-- ==== Sys2Proof/Word.lean ====
section
/-! DEFINITION. The word types of the block and the plainest operations on them. -/

namespace Sys2Proof

/-- One cell of MEM (20_memory.md R60). -/
abbrev Byte := BitVec 8

/-- One of the control registers STATUS, RESULT and PARAM (10_state.md R28 to R30). -/
abbrev Word := BitVec 32

/-- One command word (30_encoding.md R80). -/
abbrev CmdWord := BitVec 64

/-- The number of a bigint register, `B0` to `B15` (10_state.md R21, 30_encoding.md R80). -/
abbrev Reg := Fin 16

end Sys2Proof
end

