-- ==== Sys2Proof/Syntax.lean ====
section
/-! DEFINITION. The 21 commands of 30_encoding.md R83, one constructor per row of spec/opcode_table.json. Register
operands are register numbers; immediates are natural numbers, whose widths (R82) WellFormed.lean checks. Operands
stand in the order of the assembler column of R83, but for DIV (see there). -/

namespace Sys2Proof

inductive Instr where
  /-- `ZERO Bd` (R101). -/
  | zero (rd : Reg)
  /-- `COPY Bd, Ba` (R102). -/
  | copy (rd ra : Reg)
  /-- `DESER Bd, #addr, #len` (R103). -/
  | deser (rd : Reg) (addr len : Nat)
  /-- `SER Ba, #addr, #len` (R104). -/
  | ser (ra : Reg) (addr len : Nat)
  /-- `SIGBITS Ba` (R105). -/
  | sigbits (ra : Reg)
  /-- `SERSIZE Ba` (R106). -/
  | sersize (ra : Reg)
  /-- `CLRERR` (R107). -/
  | clrerr
  /-- `CMP Ba, Bb` (R120). -/
  | cmp (ra rb : Reg)
  /-- `ADD Bd, Ba, Bb` (R121). -/
  | add (rd ra rb : Reg)
  /-- `ADDS Bd, Ba, #u` (R123). -/
  | adds (rd ra : Reg) (u : Nat)
  /-- `SUB Bd, Ba, Bb` (R124). -/
  | sub (rd ra rb : Reg)
  /-- `MUL Bd, Ba, Bb` (R140). -/
  | mul (rd ra rb : Reg)
  /-- `DIV Bq, Ba, Bb, Br` (R150): `rd` the quotient, `ra` the dividend, `rb` the divisor, `rc` the remainder. -/
  | div (rd ra rb rc : Reg)
  /-- `MOD Bd, Ba, Bb` (R159). -/
  | mod (rd ra rb : Reg)
  /-- `MODPOW Bd, Ba, Bb, Bc` (R170): base `ra`, exponent `rb`, modulus `rc`. -/
  | modpow (rd ra rb rc : Reg)
  /-- `MODINV Bd, Ba, Bb` (R173): `a` in `ra`, modulus in `rb`. -/
  | modinv (rd ra rb : Reg)
  /-- `RNDBITS Bd, #n` (R191). -/
  | rndbits (rd : Reg) (n : Nat)
  /-- `RNDLIM Bd, Ba` (R192). -/
  | rndlim (rd ra : Reg)
  /-- `SIEVE #N` (R194). -/
  | sieve (n : Nat)
  /-- `ISPRIME Ba, #t` and `ISPRIME Ba, #t, SV` (R195): `sv` is the field `s`. -/
  | isprime (ra : Reg) (t : Nat) (sv : Bool)
  /-- `RNDPRIME Bd, #n, #t` and `RNDPRIME Bd, #n, #t, SV` (R197). -/
  | rndprime (rd : Reg) (n t : Nat) (sv : Bool)
deriving DecidableEq, Repr

end Sys2Proof
end

