-- ==== Sys2Proof/WellFormed.lean ====
section
/-! DEFINITION. Which terms of Instr have a command word: every immediate fits the bits 30_encoding.md R82 gives it.
Register numbers fit by their type, and every register number is legal (R80). -/

namespace Sys2Proof

/-- An immediate that is all of `imm[31:0]` (R82). -/
def fitsImm (v : Nat) : Bool := decide (v < 2 ^ 32)

/-- An immediate that is one half of `imm` (R82). -/
def fitsHalf (v : Nat) : Bool := decide (v < 2 ^ 16)

def Instr.wf : Instr → Bool
  | .zero _ => true
  | .copy _ _ => true
  | .deser _ addr len => fitsHalf addr && fitsHalf len
  | .ser _ addr len => fitsHalf addr && fitsHalf len
  | .sigbits _ => true
  | .sersize _ => true
  | .clrerr => true
  | .cmp _ _ => true
  | .add _ _ _ => true
  | .adds _ _ u => fitsImm u
  | .sub _ _ _ => true
  | .mul _ _ _ => true
  | .div _ _ _ _ => true
  | .mod _ _ _ => true
  | .modpow _ _ _ _ => true
  | .modinv _ _ _ => true
  | .rndbits _ n => fitsImm n
  | .rndlim _ _ => true
  | .sieve n => fitsImm n
  | .isprime _ t _ => fitsImm t
  | .rndprime _ n t _ => fitsHalf n && fitsHalf t

end Sys2Proof
end

