-- ==== Sys2Proof/Decode.lean ====
section
/-! DEFINITION. The command encoding (30_encoding.md R80 to R88): the fields of a word, the formats, the opcode map, the
decoder (total, an illegal word is refused by name) and the encoder written from the same map. -/

namespace Sys2Proof

/-- The fields of a command word (R80). -/
structure Fields where
  op : BitVec 8
  rd : BitVec 4
  ra : BitVec 4
  rb : BitVec 4
  rc : BitVec 4
  zero : BitVec 7
  s : BitVec 1
  imm : BitVec 32
deriving DecidableEq, Repr

/-- R88: `op = w[63:56]`, `rd = w[55:52]`, and so on. -/
def Fields.ofWord (w : CmdWord) : Fields where
  op := w.extractLsb' 56 8
  rd := w.extractLsb' 52 4
  ra := w.extractLsb' 48 4
  rb := w.extractLsb' 44 4
  rc := w.extractLsb' 40 4
  zero := w.extractLsb' 33 7
  s := w.extractLsb' 32 1
  imm := w.extractLsb' 0 32

/-- A field of a word of `w` bits at its place: its lowest bit is bit `lo` of the word. -/
def fieldAt {n : Nat} (w lo : Nat) (b : BitVec n) : BitVec w := b.setWidth w <<< lo

/-- The word with these fields (R80). -/
def Fields.toWord (f : Fields) : CmdWord :=
  fieldAt 64 56 f.op ||| fieldAt 64 52 f.rd ||| fieldAt 64 48 f.ra ||| fieldAt 64 44 f.rb ||| fieldAt 64 40 f.rc |||
    fieldAt 64 33 f.zero ||| fieldAt 64 32 f.s ||| fieldAt 64 0 f.imm

/-- Which fields a command uses beside `op` (R81); the others must be 0 (R84). -/
structure Format where
  rd : Bool := false
  ra : Bool := false
  rb : Bool := false
  rc : Bool := false
  s : Bool := false
  imm : Bool := false
deriving DecidableEq, Repr

namespace Format

/-! The formats of R81, each under the name it has there. -/

def N : Format := { }
def D : Format := { rd := true }
def A : Format := { ra := true }
def DA : Format := { rd := true, ra := true }
def AB : Format := { ra := true, rb := true }
def DAB : Format := { rd := true, ra := true, rb := true }
def DABC : Format := { rd := true, ra := true, rb := true, rc := true }
def DAI : Format := { rd := true, ra := true, imm := true }
def DM : Format := { rd := true, imm := true }
def AM : Format := { ra := true, imm := true }
def DI : Format := { rd := true, imm := true }
def I : Format := { imm := true }
def AIS : Format := { ra := true, s := true, imm := true }
def DIS : Format := { rd := true, s := true, imm := true }

end Format

/-- Every field the format does not use is 0 (R84). -/
def Format.unusedAreZero (u : Format) (f : Fields) : Bool :=
  (u.rd || f.rd == 0) && (u.ra || f.ra == 0) && (u.rb || f.rb == 0) && (u.rc || f.rc == 0) &&
    (u.s || f.s == 0) && (u.imm || f.imm == 0)

/-- A 4-bit field names a register (R80, R82). -/
def regOf (b : BitVec 4) : Reg := ⟨b.toNat, b.isLt⟩

/-- The register number as a 4-bit field. -/
def regField (r : Reg) : BitVec 4 := BitVec.ofNat 4 r.val

/-- `imm` as one unsigned number (R82). -/
def Fields.immNat (f : Fields) : Nat := f.imm.toNat

/-- `imm[31:16]`: `addr` of DESER and SER, `n` of RNDPRIME (R82). -/
def Fields.immHigh (f : Fields) : Nat := (f.imm.extractLsb' 16 16).toNat

/-- `imm[15:0]`: `len` of DESER and SER, `t` of RNDPRIME (R82). -/
def Fields.immLow (f : Fields) : Nat := (f.imm.extractLsb' 0 16).toNat

/-- The field `s` as a flag (R80). -/
def Fields.sv (f : Fields) : Bool := f.s == 1

/-- One row of the opcode map: the command's name, opcode, format and operands (R83). -/
structure Row where
  mnemonic : String
  op : BitVec 8
  format : Format
  build : Fields → Instr

/-- The 21 commands of R83. -/
def opcodeTable : List Row :=
  [ ⟨"ZERO", 0x01, .D, fun f => .zero (regOf f.rd)⟩,
    ⟨"COPY", 0x02, .DA, fun f => .copy (regOf f.rd) (regOf f.ra)⟩,
    ⟨"DESER", 0x03, .DM, fun f => .deser (regOf f.rd) f.immHigh f.immLow⟩,
    ⟨"SER", 0x04, .AM, fun f => .ser (regOf f.ra) f.immHigh f.immLow⟩,
    ⟨"SIGBITS", 0x05, .A, fun f => .sigbits (regOf f.ra)⟩,
    ⟨"SERSIZE", 0x06, .A, fun f => .sersize (regOf f.ra)⟩,
    ⟨"CLRERR", 0x07, .N, fun _ => .clrerr⟩ ] ++
  [ ⟨"CMP", 0x10, .AB, fun f => .cmp (regOf f.ra) (regOf f.rb)⟩,
    ⟨"ADD", 0x11, .DAB, fun f => .add (regOf f.rd) (regOf f.ra) (regOf f.rb)⟩,
    ⟨"ADDS", 0x12, .DAI, fun f => .adds (regOf f.rd) (regOf f.ra) f.immNat⟩,
    ⟨"SUB", 0x13, .DAB, fun f => .sub (regOf f.rd) (regOf f.ra) (regOf f.rb)⟩,
    ⟨"MUL", 0x20, .DAB, fun f => .mul (regOf f.rd) (regOf f.ra) (regOf f.rb)⟩,
    ⟨"DIV", 0x30, .DABC, fun f => .div (regOf f.rd) (regOf f.ra) (regOf f.rb) (regOf f.rc)⟩,
    ⟨"MOD", 0x31, .DAB, fun f => .mod (regOf f.rd) (regOf f.ra) (regOf f.rb)⟩ ] ++
  [ ⟨"MODPOW", 0x40, .DABC, fun f => .modpow (regOf f.rd) (regOf f.ra) (regOf f.rb) (regOf f.rc)⟩,
    ⟨"MODINV", 0x41, .DAB, fun f => .modinv (regOf f.rd) (regOf f.ra) (regOf f.rb)⟩,
    ⟨"RNDBITS", 0x50, .DI, fun f => .rndbits (regOf f.rd) f.immNat⟩,
    ⟨"RNDLIM", 0x51, .DA, fun f => .rndlim (regOf f.rd) (regOf f.ra)⟩,
    ⟨"SIEVE", 0x52, .I, fun f => .sieve f.immNat⟩,
    ⟨"ISPRIME", 0x53, .AIS, fun f => .isprime (regOf f.ra) f.immNat f.sv⟩,
    ⟨"RNDPRIME", 0x54, .DIS, fun f => .rndprime (regOf f.rd) f.immHigh f.immLow f.sv⟩ ]

/-- Why a word is illegal (R84): all three retire with ILLEGAL_CMD. -/
inductive IllegalWord where
  /-- `op` is not one of the 21 values. -/
  | unknownOpcode
  /-- A bit of `zero[39:33]` is 1. -/
  | reservedBitSet
  /-- A field the command's format does not use is not 0. -/
  | unusedFieldSet
deriving DecidableEq, Repr

/-- R88: look `op` up, then check `zero` and the unused fields. -/
def decode (w : CmdWord) : Except IllegalWord Instr :=
  let f := Fields.ofWord w
  match opcodeTable.find? (fun r => r.op == f.op) with
  | none => .error .unknownOpcode
  | some r =>
    if f.zero ≠ 0 then .error .reservedBitSet
    else if r.format.unusedAreZero f then .ok (r.build f)
    else .error .unusedFieldSet

/-- The instruction the decoder reads from an instruction whose bits are `w` (spec/opcode_table.json numbers them as
R80 does; every command has 64 bits, so `nbits` adds nothing). -/
def decodeTableWord (_nbits w : Nat) : Option Instr :=
  match decode (BitVec.ofNat 64 w) with
  | .ok i => some i
  | .error _ => none

/-- R83's mask of a row: `op`, `zero` and every unused field (R88). -/
def Row.mask (r : Row) : CmdWord :=
  let all (used : Bool) (n : Nat) : BitVec n := if used then 0 else BitVec.allOnes n
  Fields.toWord
    { op := BitVec.allOnes 8, rd := all r.format.rd 4, ra := all r.format.ra 4, rb := all r.format.rb 4,
      rc := all r.format.rc 4, zero := BitVec.allOnes 7, s := all r.format.s 1, imm := all r.format.imm 32 }

/-- R88's match value of a row: `op`, every other bit 0. -/
def Row.matchWord (r : Row) : CmdWord :=
  Fields.toWord { op := r.op, rd := 0, ra := 0, rb := 0, rc := 0, zero := 0, s := 0, imm := 0 }

/-! ## The encoder -/

/-- `imm` made of two 16-bit halves (R82). -/
def immHalves (hi lo : Nat) : BitVec 32 := fieldAt 32 16 (BitVec.ofNat 16 hi) ||| fieldAt 32 0 (BitVec.ofNat 16 lo)

/-- The field `s` of a flag. -/
def svField (sv : Bool) : BitVec 1 := if sv then 1 else 0

/-- A word with only an opcode. -/
def opOnly (op : BitVec 8) : Fields :=
  { op := op, rd := 0, ra := 0, rb := 0, rc := 0, zero := 0, s := 0, imm := 0 }

/-- R83, R86: `op` of the command, each operand in the field the assembler column names, every other bit 0. -/
def Instr.fields : Instr → Fields
  | .zero rd => { opOnly 0x01 with rd := regField rd }
  | .copy rd ra => { opOnly 0x02 with rd := regField rd, ra := regField ra }
  | .deser rd addr len => { opOnly 0x03 with rd := regField rd, imm := immHalves addr len }
  | .ser ra addr len => { opOnly 0x04 with ra := regField ra, imm := immHalves addr len }
  | .sigbits ra => { opOnly 0x05 with ra := regField ra }
  | .sersize ra => { opOnly 0x06 with ra := regField ra }
  | .clrerr => opOnly 0x07
  | .cmp ra rb => { opOnly 0x10 with ra := regField ra, rb := regField rb }
  | .add rd ra rb => { opOnly 0x11 with rd := regField rd, ra := regField ra, rb := regField rb }
  | .adds rd ra u => { opOnly 0x12 with rd := regField rd, ra := regField ra, imm := BitVec.ofNat 32 u }
  | .sub rd ra rb => { opOnly 0x13 with rd := regField rd, ra := regField ra, rb := regField rb }
  | .mul rd ra rb => { opOnly 0x20 with rd := regField rd, ra := regField ra, rb := regField rb }
  | .div rd ra rb rc =>
    { opOnly 0x30 with rd := regField rd, ra := regField ra, rb := regField rb, rc := regField rc }
  | .mod rd ra rb => { opOnly 0x31 with rd := regField rd, ra := regField ra, rb := regField rb }
  | .modpow rd ra rb rc =>
    { opOnly 0x40 with rd := regField rd, ra := regField ra, rb := regField rb, rc := regField rc }
  | .modinv rd ra rb => { opOnly 0x41 with rd := regField rd, ra := regField ra, rb := regField rb }
  | .rndbits rd n => { opOnly 0x50 with rd := regField rd, imm := BitVec.ofNat 32 n }
  | .rndlim rd ra => { opOnly 0x51 with rd := regField rd, ra := regField ra }
  | .sieve n => { opOnly 0x52 with imm := BitVec.ofNat 32 n }
  | .isprime ra t sv => { opOnly 0x53 with ra := regField ra, s := svField sv, imm := BitVec.ofNat 32 t }
  | .rndprime rd n t sv => { opOnly 0x54 with rd := regField rd, s := svField sv, imm := immHalves n t }

/-- The command word of an instruction. -/
def encode (i : Instr) : CmdWord := i.fields.toWord

/-- The name of an instruction (R83). -/
def Instr.mnemonic : Instr → String
  | .zero .. => "ZERO"
  | .copy .. => "COPY"
  | .deser .. => "DESER"
  | .ser .. => "SER"
  | .sigbits .. => "SIGBITS"
  | .sersize .. => "SERSIZE"
  | .clrerr => "CLRERR"
  | .cmp .. => "CMP"
  | .add .. => "ADD"
  | .adds .. => "ADDS"
  | .sub .. => "SUB"
  | .mul .. => "MUL"
  | .div .. => "DIV"
  | .mod .. => "MOD"
  | .modpow .. => "MODPOW"
  | .modinv .. => "MODINV"
  | .rndbits .. => "RNDBITS"
  | .rndlim .. => "RNDLIM"
  | .sieve .. => "SIEVE"
  | .isprime .. => "ISPRIME"
  | .rndprime .. => "RNDPRIME"

end Sys2Proof
end

