-- ==== Sys2Proof/Config.lean ====
section
/-! DEFINITION. What an implementation fixes (the OPEN parameters of 00_scope.md R7), the fixed parameters, and the
free values: constants without a body, of which nothing can be proved but that they are some value. -/

namespace Sys2Proof

/-- The two legal digit widths (R7, D2). -/
inductive DigitWidth where
  | d29
  | d61
deriving DecidableEq, Repr

/-- `D`, the significant bits per digit (R7). -/
def DigitWidth.bits : DigitWidth → Nat
  | .d29 => 29
  | .d61 => 61

/-- `W`, the machine word of the source's overflow arguments (R7); no state has this width. -/
def DigitWidth.wordBits : DigitWidth → Nat
  | .d29 => 64
  | .d61 => 128

/-- The OPEN parameters of R7. A machine keeps them for ever; DESIGN CHOICE, log entry 1: they are a field of State. -/
structure Params where
  digit : DigitWidth
  /-- `CAP`, digits per bigint register. -/
  cap : Nat
  /-- `MEMSIZE`, bytes of operand memory. -/
  memSize : Nat
  /-- `SIEVE_NMAX`, the largest sieve bound accepted. -/
  sieveNmax : Nat
deriving DecidableEq, Repr

namespace Params

/-- `D` of R7. -/
def digitBits (p : Params) : Nat := p.digit.bits

/-- `VMAX = 2^(D·CAP)` (R7): every register value is below it. -/
def vmax (p : Params) : Nat := 2 ^ (p.digitBits * p.cap)

/-- `SCAP = 2·CAP + 2`, digits per hidden scratch bigint (R7, D5). -/
def scap (p : Params) : Nat := 2 * p.cap + 2

end Params

namespace Config

/-- `MIN_CAPACITY` (R7, 10_state.md R22 d). -/
def minCapacity : Nat := 3

/-- `NREG` (R7). -/
def nreg : Nat := 16

/-- `CACHE_PRESENT` (R7, D6): this block has no wide-digit cache. -/
def cachePresent : Bool := false

/-- The value the RAND port supplies at a draw when State lists none (10_state.md R38; log entry 2). A free value. -/
opaque randPort : Nat → Nat

/-- The source of what the spec calls unspecified: `unspecified_canonical()` (00_scope.md R10) and what a host read
returns while BUSY (10_state.md R43); log entries 3 and 10. A free value. -/
opaque unspecified : Nat → Nat

/-- What a byte of MEM nothing has written since reset reads as: by the reset it dates from and the address
(20_memory.md R72, U22: any value, fixed until written); log entry 4. A free value. -/
opaque unwrittenByte : Nat → Nat → Byte

end Config

/-- The ranges R7 gives the OPEN parameters. -/
abbrev Params.Legal (p : Params) : Prop :=
  (Config.minCapacity ≤ p.cap ∧ p.cap ≤ 65535) ∧ (1 ≤ p.memSize ∧ p.memSize ≤ 65536) ∧
    (3 ≤ p.sieveNmax ∧ p.sieveNmax < 2 ^ 32)

/-- The recommended values of R7 (93_implementation_defined.md section 3). DESIGN CHOICE, log entry 1: the machine
`State.reset` has them; no statement rests on it. -/
def Params.recommended : Params :=
  { digit := .d29, cap := 160, memSize := 4096, sieveNmax := 1048576 }

end Sys2Proof
end

