-- ==== Sys2Proof/Machine/State.lean ====
section
/-! DEFINITION. The state of the block, as plain data, and its value right after reset (10_state.md). INVENTORY.md lists
every field with its rule and reset value. -/

namespace Sys2Proof.Machine

/-- What stops the machine with a fault: NOTHING. Errors of this block are next states (60_exceptions.md R220: "The next
command is accepted and executed as if the error had not occurred"), a command that cannot find a prime stays in
progress (R258), and the spec names no other stop. So no constructor, and nothing to be safe or unsafe about. -/
inductive Fault
deriving DecidableEq, Repr

/-- Why a step has no meaning. -/
inductive Refusal where
  /-- Raised by `exec`'s arm of an instruction that has no meaning yet. Every instruction has its meaning, so nothing
  raises it. Safe: the machine stops where the hardware goes on. -/
  | notModelled (mnemonic : String)
deriving DecidableEq, Repr

/-- The content of one bigint register (R21): the digits in use, least significant first. `length` is how many there
are; slots above it hold nothing that is ever read (R24; log entry 5). `capacity` is `Params.cap` and `growable` is
false for every register. -/
structure Bigint where
  digits : List Nat
deriving DecidableEq, Repr

/-- `length` of R21. -/
def Bigint.length (b : Bigint) : Nat := b.digits.length

/-- Canonical zero (R23): `length == 1, digits[0] == 0`. -/
def Bigint.canonicalZero : Bigint := ⟨[0]⟩

/-- The error codes (60_exceptions.md R221); 10 to 15 are never produced (U27). -/
inductive ECode where
  | ok
  | capacity
  | invalidArg
  | bufTooSmall
  | illegalAlias
  | subUnderflow
  | divByZero
  | notInvertible
  | illegalCmd
  | badAddress
deriving DecidableEq, Repr

/-- The stored fields of STATUS (R28). BUSY is `State.busy`; bits 31:8 read as 0 (`State.statusWord`). -/
structure Status where
  /-- Bit 1, ERR: the last retired command ended in an error. -/
  err : Bool
  /-- Bit 2, STICKY: some command has ended in an error since reset or the last CLRERR. -/
  sticky : Bool
  /-- Bit 3, SIEVE_VALID: a SIEVE command has succeeded since reset. -/
  sieveValid : Bool
  /-- Bits 7:4, ECODE: the error code of the last retired command. -/
  ecode : ECode
deriving DecidableEq, Repr

/-- STATUS after reset (R40), BUSY apart. -/
def Status.clear : Status := { err := false, sticky := false, sieveValid := false, ecode := .ok }

/-- MEM (R37): the bytes written since reset, by address. -/
abbrev Memory := List Host.Cell

/-- What the host can do (R43). -/
inductive HostAction where
  | reset
  | issue (w : CmdWord)
  | readStatus
  | readResult
  | readParam
  | memWrite (addr : Nat) (byte : Byte)
  | memRead (addr : Nat)
deriving DecidableEq, Repr

/-- When the host takes an action: it polls STATUS until BUSY is 0, or it acts after the running command has gone `k`
steps on, whatever BUSY is. DESIGN CHOICE, log entry 7. -/
inductive HostTime where
  | whenIdle
  | afterSteps (k : Nat)
deriving DecidableEq, Repr

/-- One action of the host still to come. -/
structure HostEvent where
  time : HostTime
  act : HostAction
deriving DecidableEq, Repr

/-- What a read action of R43 returned to the host. -/
inductive HostReply where
  | status (w : Word)
  | result (w : Word)
  | param (w : Word)
  | memByte (b : Byte)
deriving DecidableEq, Repr

/-- The state of the block (10_state.md), with the inputs still to come. -/
structure State where
  /-- The OPEN parameters (00_scope.md R7), constant. -/
  par : Params
  /-- `B0 .. B15` (R21). -/
  regs : Vector Bigint 16
  /-- STATUS but BUSY (R28). -/
  status : Status
  /-- RESULT (R29). -/
  result : Word
  /-- MEM (R37). -/
  mem : Memory
  /-- The reset the unwritten bytes of MEM date from; the model's own, log entry 4. -/
  memEpoch : Nat
  /-- The sieve table `SV`: `SV.prime[0 .. SV.count)` (R36). -/
  sieve : List Nat
  /-- The command issued and not yet retired (R27): `BUSY = 1` iff there is one (R28). -/
  running : Option CmdWord
  /-- The values the RAND port will supply (R38), next first; log entry 2. -/
  rand : List Nat
  /-- The host's actions still to come (R43, D11), next first; log entry 7. -/
  host : List HostEvent
  /-- What the host has read, newest first; the model's own, log entry 10. -/
  replies : List HostReply
  /-- How many free values have been used; the model's own, log entry 3. -/
  fresh : Nat
deriving DecidableEq, Repr

/-- The block with parameters `p` right after reset (R40, R251), nothing to come from the host or the RAND port. -/
def State.resetFor (p : Params) : State where
  par := p
  regs := Vector.replicate 16 Bigint.canonicalZero
  status := Status.clear
  result := 0
  mem := []
  memEpoch := 0
  sieve := []
  running := none
  rand := []
  host := []
  replies := []
  fresh := 0

/-- The machine right after reset, with the recommended parameters (log entries 1 and 15). -/
def State.reset : State := State.resetFor Params.recommended

end Sys2Proof.Machine
end

