-- ==== Sys2Proof/Machine/Bigint.lean ====
section
/-! DEFINITION. Numbers and their digits: the notation of 00_scope.md R8 and R9, the invariants of 10_state.md R22, and the
integer functions the command rules are written with. -/

namespace Sys2Proof.Machine

/-- `bitlen(v)` (R8). -/
def bitlen (v : Nat) : Nat := if v = 0 then 0 else Nat.log2 v + 1

/-- `ceil(x / y)` (R8). -/
def ceilDiv (x y : Nat) : Nat := (x + y - 1) / y

/-- `v[lo + n - 1 : lo]` (R8): `n` bits of `v` from bit `lo` up. -/
def bitsOf (v lo n : Nat) : Nat := v / 2 ^ lo % 2 ^ n

/-- `dlen(v)` (R9): how many digits `canon(v)` has. -/
def digitLen (D v : Nat) : Nat := if v = 0 then 1 else ceilDiv (bitlen v) D

/-- The digits of `canon(v)` (R9): digit `k` is `v[D·k + D − 1 : D·k]`. -/
def canonDigits (D v : Nat) : List Nat := (List.range (digitLen D v)).map fun k => bitsOf v (D * k) D

/-- `canon(v)` (R9). -/
def canon (D v : Nat) : Bigint := ⟨canonDigits D v⟩

/-- `Σ ds[k]·2^(S·k)`: the number a little-endian array of `S`-bit digits stands for (R9, 40_storage_transfer.md R100). -/
def digitsVal (S : Nat) (ds : List Nat) : Nat := ds.foldr (fun d acc => d + 2 ^ S * acc) 0

/-- `val(x)` (R9, R23). -/
def Bigint.val (D : Nat) (b : Bigint) : Nat := digitsVal D b.digits

/-- The invariants of R22 for one register: (a) and the capacity, (b), (c). -/
def Bigint.Canonical (p : Params) (b : Bigint) : Prop :=
  (1 ≤ b.length ∧ b.length ≤ p.cap) ∧ (b.length = 1 ∨ b.digits.getLast? ≠ some 0) ∧
    ∀ d ∈ b.digits, d < 2 ^ p.digitBits

/-- Leading zero digits, those at the high-index end, removed down to one digit (R22 b, 41_compare_add_sub.md R125). -/
def trimDigits (ds : List Nat) : List Nat :=
  match (ds.reverse.dropWhile (· == 0)).reverse with
  | [] => [0]
  | t => t

/-- The bytes of a value in the wire format, `ceil(T/8)` of them (20_memory.md R62): byte `j` is `v[8·j + 7 : 8·j]`. -/
def wireBytes (v : Nat) : List Byte :=
  (List.range (ceilDiv (bitlen v) 8)).map fun j => BitVec.ofNat 8 (bitsOf v (8 * j) 8)

/-- `Σ bytes[j]·2^(8·j)` (R72). -/
def wireValue (bytes : List Byte) : Nat := digitsVal 8 (bytes.map BitVec.toNat)

/-! ## Modular exponentiation (44_modular.md R171) -/

/-- The loop of R171; one unit of fuel a round, and `bitlen exp` rounds are enough. -/
def modPowLoop (m : Nat) : Nat → Nat → Nat → Nat → Nat
  | 0, result, _, _ => result
  | fuel + 1, result, a, exp =>
    if exp = 0 then result
    else modPowLoop m fuel (if exp % 2 = 1 then result * a % m else result) (a * a % m) (exp / 2)

/-- `mod_pow(n, e, m)` by right-to-left square-and-multiply, with the special case `m = 1` (R171). -/
def modPow (n e m : Nat) : Nat := if m = 1 then 0 else modPowLoop m (bitlen e) 1 n e

/-! ## Modular inverse (44_modular.md R174, R175) -/

/-- A magnitude and a sign bit (R174). -/
structure Signed where
  mag : Nat
  neg : Bool
deriving DecidableEq, Repr

/-- The table of R175: `(±x) − (±p)`. -/
def signedSub (x p : Signed) : Signed :=
  match x.neg, p.neg with
  | false, false => if p.mag ≤ x.mag then ⟨x.mag - p.mag, false⟩ else ⟨p.mag - x.mag, true⟩
  | false, true => ⟨x.mag + p.mag, false⟩
  | true, false => ⟨x.mag + p.mag, true⟩
  | true, true => if x.mag ≤ p.mag then ⟨p.mag - x.mag, false⟩ else ⟨x.mag - p.mag, true⟩

/-- The loop of R174: `none` where there is no inverse. `mCur` falls at every round, so `m + 2` units of fuel are
enough. -/
def modInvLoop : Nat → Nat → Nat → Signed → Signed → Option Signed
  | 0, _, _, _, _ => none
  | fuel + 1, aCur, mCur, x, y =>
    if 1 < aCur then
      if mCur = 0 then none
      else modInvLoop fuel mCur (aCur % mCur) y (signedSub x ⟨aCur / mCur * y.mag, y.neg⟩)
    else if aCur = 0 then none
    else some x

/-- `mod_inv(a, m)` (R173, R174): `none` is NOT_INVERTIBLE. -/
def modInv (a m : Nat) : Option Nat :=
  if m = 1 then some 0
  else (modInvLoop (m + 2) a m ⟨1, false⟩ ⟨0, false⟩).map fun x => if x.neg then m - x.mag else x.mag

/-! ## The sieve table (45_number_theory.md R194) -/

/-- No divisor of `n` among `d, d + 2, …` up to its square root; one unit of fuel a candidate. -/
def noOddDivisorFrom (n : Nat) : Nat → Nat → Bool
  | 0, _ => true
  | fuel + 1, d => if n < d * d then true else if n % d = 0 then false else noOddDivisorFrom n fuel (d + 2)

/-- `n` is an odd prime. -/
def isOddPrime (n : Nat) : Bool := decide (3 ≤ n) && n % 2 == 1 && noOddDivisorFrom n n 3

/-- `[s : 3 ≤ s < N, s odd, s prime]` in ascending order (R194). -/
def oddPrimesBelow (N : Nat) : List Nat := (List.range N).filter isOddPrime

end Sys2Proof.Machine
end

