-- ==== Sys2Proof/Machine/Flags.lean ====
section
/-! DEFINITION. The control registers as the host reads them: STATUS (10_state.md R28), PARAM (R30), and the values
RESULT takes (R29). -/

namespace Sys2Proof.Machine

/-- The value of `STATUS.ECODE` (60_exceptions.md R221). -/
def ECode.code : ECode → BitVec 4
  | .ok => 0
  | .capacity => 1
  | .invalidArg => 2
  | .bufTooSmall => 3
  | .illegalAlias => 4
  | .subUnderflow => 5
  | .divByZero => 6
  | .notInvertible => 7
  | .illegalCmd => 8
  | .badAddress => 9

/-- `STATUS.BUSY` (R28): 1 from issue to retire. -/
def State.busy (s : State) : Bool := s.running.isSome

/-- STATUS as a 32-bit word (R28): ECODE in 7:4, SIEVE_VALID 3, STICKY 2, ERR 1, BUSY 0, the rest 0. -/
def State.statusWord (s : State) : Word :=
  fieldAt 32 4 s.status.ecode.code ||| fieldAt 32 3 (BitVec.ofBool s.status.sieveValid) |||
    fieldAt 32 2 (BitVec.ofBool s.status.sticky) ||| fieldAt 32 1 (BitVec.ofBool s.status.err) |||
    fieldAt 32 0 (BitVec.ofBool s.busy)

/-- PARAM as a 32-bit word (R30): CAP in 31:16, NREG 15:8, D 7:0. -/
def State.paramWord (s : State) : Word :=
  fieldAt 32 16 (BitVec.ofNat 16 s.par.cap) ||| fieldAt 32 8 (BitVec.ofNat 8 Config.nreg) |||
    fieldAt 32 0 (BitVec.ofNat 8 s.par.digitBits)

/-- The sentinel `−1` (60_exceptions.md R223). -/
def minusOne : Word := 0xFFFFFFFF

/-- The RESULT of CMP (41_compare_add_sub.md R120). -/
def cmpResult (a b : Nat) : Word := if a < b then minusOne else if a = b then 0 else 1

/-- STATUS after a successful end (R222): ERR and ECODE cleared, the rest kept. -/
def Status.succeeded (st : Status) : Status := { st with err := false, ecode := .ok }

/-- STATUS after a failing end (R223): ERR, ECODE and STICKY set, SIEVE_VALID kept. -/
def Status.failed (c : ECode) (st : Status) : Status := { st with err := true, sticky := true, ecode := c }

end Sys2Proof.Machine
end

