-- ==== Sys2Proof/Machine/Ops.lean ====
section
/-! DEFINITION. The shared operations: MEM byte by byte (20_memory.md R72, R73), the free values, the draws of the RAND port
(45_number_theory.md R190), and the two ends of a command: `retire` (60_exceptions.md R222) and `raise` (R223), which is
all an exception of this block is (R227). -/

namespace Sys2Proof.Machine

/-! ## MEM -/

/-- What an address nothing has been written to holds: no known byte (log entry 4). -/
def Memory.unlisted : Option Byte := none

/-- The byte written last at `a`. -/
def Memory.lookup : Memory → Nat → Option Byte
  | [], _ => Memory.unlisted
  | (k, b) :: m, a => if k = a then some b else Memory.lookup m a

/-- `m` with `b` written at `a`, the addresses still strictly rising. -/
def Memory.store : Memory → Nat → Byte → Memory
  | [], a, b => [(a, b)]
  | (k, c) :: m, a, b =>
    if a < k then (a, b) :: (k, c) :: m
    else if a = k then (a, b) :: m
    else (k, c) :: Memory.store m a b

/-- `bytes` written from `a` up (R73). -/
def Memory.storeBytes : Memory → Nat → List Byte → Memory
  | m, _, [] => m
  | m, a, b :: bs => Memory.storeBytes (m.store a b) (a + 1) bs

/-- The canonical form: addresses strictly rising, and no entry that says what an unlisted address holds. -/
def Memory.wf : Memory → Bool
  | [] => true
  | [c] => some c.2 != Memory.unlisted
  | c :: d :: m => some c.2 != Memory.unlisted && decide (c.1 < d.1) && Memory.wf (d :: m)

/-- `MEM[a]` (R60): the byte written last, or the free byte of an address nothing has written since reset (R72, U22). -/
def State.readByte (s : State) (a : Nat) : Byte := (s.mem.lookup a).getD (Config.unwrittenByte s.memEpoch a)

/-- `MemRead(addr, n)` (R72). -/
def State.memRead (s : State) (addr n : Nat) : List Byte := (List.range n).map fun j => s.readByte (addr + j)

/-- `MemWrite(addr, n, bytes)` (R73), `n` the length of `bytes`. -/
def State.memWrite (s : State) (addr : Nat) (bytes : List Byte) : State :=
  { s with mem := s.mem.storeBytes addr bytes }

/-- The range `MEM[addr .. addr + len)` leaves MEM (R65). -/
def State.outsideMem (s : State) (addr len : Nat) : Bool := decide (s.par.memSize < addr + len)

/-! ## Free values and draws -/

/-- The next unspecified value and the state after it (00_scope.md R10); log entry 3. -/
def State.takeUnspecified (s : State) : Nat × State :=
  (Config.unspecified s.fresh, { s with fresh := s.fresh + 1 })

/-- The next value of the RAND port (10_state.md R38) and the state after it: the first one State lists, or a free value
where it lists none; log entry 2. -/
def State.takeRand (s : State) : Nat × State :=
  match s.rand with
  | v :: vs => (v, { s with rand := vs })
  | [] => (Config.randPort s.fresh, { s with fresh := s.fresh + 1 })

/-- A value of the RAND port brought into `lo .. hi`: itself if it is there; every value of the range is one (R190). -/
def intoRange (lo hi v : Nat) : Nat := if lo ≤ v ∧ v ≤ hi then v else lo + v % (hi - lo + 1)

/-- `draw(lo, hi)` (00_scope.md R10, R190), for `lo ≤ hi`. -/
def State.draw (lo hi : Nat) (s : State) : Nat × State :=
  let (v, t) := s.takeRand
  (intoRange lo hi v, t)

/-! ## The end of a command -/

/-- `retire(result)` (R222). -/
def State.retire (result : Word) (s : State) : State :=
  { s with result := result, status := s.status.succeeded, running := none }

/-- `raise <Code>` (R223). -/
def State.raiseError (c : ECode) (s : State) : State :=
  { s with result := minusOne, status := s.status.failed c, running := none }

end Sys2Proof.Machine
end

