-- ==== Sys2Proof/Machine/Operands.lean ====
section
/-! DEFINITION. Operands: reading and writing bigint registers, and the checks on register numbers and values that several
commands share. -/

namespace Sys2Proof.Machine

/-- `D` of the machine (00_scope.md R7). -/
def State.digitBits (s : State) : Nat := s.par.digitBits

/-- `VMAX` of the machine (R7). -/
def State.vmax (s : State) : Nat := s.par.vmax

/-- `val(B[r])` (10_state.md R23). -/
def State.value (s : State) (r : Reg) : Nat := s.regs[r].val s.digitBits

/-- The content of register `r`. -/
def State.setReg (s : State) (r : Reg) (b : Bigint) : State := { s with regs := s.regs.set r b }

/-- `B[r] <- v` (00_scope.md R9), for `v < VMAX`. -/
def State.writeValue (s : State) (r : Reg) (v : Nat) : State := s.setReg r (canon s.digitBits v)

/-- `B[r] <- unspecified_canonical()` (R10): a free value below VMAX (60_exceptions.md R237 b); log entry 3. -/
def State.writeUnspecified (s : State) (r : Reg) : State :=
  let (v, t) := s.takeUnspecified
  t.writeValue r (v % s.vmax)

/-- `B[rd] <- unspecified_canonical(); raise c` (R237 b). -/
def State.failDestination (s : State) (rd : Reg) (c : ECode) : State := (s.writeUnspecified rd).raiseError c

/-- The end of a command whose result is `v`: CAPACITY when it does not fit a register (10_state.md R25), else
`B[rd] <- v; retire(0)`. -/
def State.finishValue (s : State) (rd : Reg) (v : Nat) : State :=
  if s.vmax ≤ v then s.failDestination rd .capacity else (s.writeValue rd v).retire 0

/-- A destination register equals a source it must differ from (70_reset_and_hazards.md R254). -/
def aliases (rd : Reg) (sources : List Reg) : Bool := sources.contains rd

/-- The sieve table is asked for and does not exist (70_reset_and_hazards.md R256). -/
def State.sieveMissing (s : State) (sv : Bool) : Bool := sv && !s.status.sieveValid

end Sys2Proof.Machine
end

