-- ==== Sys2Proof/Machine/AddSub.lean ====
section
/-! DEFINITION. The meanings of CMP, ADD, ADDS and SUB (41_compare_add_sub.md). -/

namespace Sys2Proof.Machine

/-- R120. -/
def execCmp (ra rb : Reg) (s : State) : Host.Outcome State Fault Refusal :=
  .next (s.retire (cmpResult (s.value ra) (s.value rb)))

/-- R121. -/
def execAdd (rd ra rb : Reg) (s : State) : Host.Outcome State Fault Refusal :=
  .next (s.finishValue rd (s.value ra + s.value rb))

/-- R123. -/
def execAdds (rd ra : Reg) (u : Nat) (s : State) : Host.Outcome State Fault Refusal :=
  .next (s.finishValue rd (s.value ra + u))

/-- R124. -/
def execSub (rd ra rb : Reg) (s : State) : Host.Outcome State Fault Refusal :=
  .next (if s.value ra < s.value rb then s.raiseError .subUnderflow
    else (s.writeValue rd (s.value ra - s.value rb)).retire 0)

end Sys2Proof.Machine
end

