-- ==== Sys2Proof/Machine/Divide.lean ====
section
/-! DEFINITION. The meanings of DIV and MOD (43_divide.md). -/

namespace Sys2Proof.Machine

/-- The register numbers of DIV that raise ILLEGAL_ALIAS (R150 check 2): the quotient's destination `rd` against `ra`,
`rb` and `rc`, the remainder's destination `rc` against `ra` and `rb`. -/
def divAliases (rd ra rb rc : Reg) : Bool := aliases rd [ra, rb, rc] || aliases rc [ra, rb]

/-- R150. -/
def execDiv (rd ra rb rc : Reg) (s : State) : Host.Outcome State Fault Refusal :=
  .next (if divAliases rd ra rb rc then s.raiseError .illegalAlias
    else if s.value rb = 0 then s.raiseError .divByZero
    else ((s.writeValue rd (s.value ra / s.value rb)).writeValue rc (s.value ra % s.value rb)).retire 0)

/-- R159. -/
def execMod (rd ra rb : Reg) (s : State) : Host.Outcome State Fault Refusal :=
  .next (if aliases rd [ra, rb] then s.raiseError .illegalAlias
    else if s.value rb = 0 then s.raiseError .divByZero
    else (s.writeValue rd (s.value ra % s.value rb)).retire 0)

end Sys2Proof.Machine
end

