-- ==== Sys2Proof/Machine/Modular.lean ====
section
/-! DEFINITION. The meanings of MODPOW and MODINV (44_modular.md). -/

namespace Sys2Proof.Machine

/-- R170, computed by the algorithm of R171. -/
def execModpow (rd ra rb rc : Reg) (s : State) : Host.Outcome State Fault Refusal :=
  .next (if aliases rd [ra, rb, rc] then s.raiseError .illegalAlias
    else if s.value rc = 0 then s.raiseError .divByZero
    else (s.writeValue rd (modPow (s.value ra) (s.value rb) (s.value rc))).retire 0)

/-- R173, computed by the algorithm of R174. -/
def execModinv (rd ra rb : Reg) (s : State) : Host.Outcome State Fault Refusal :=
  .next (if aliases rd [ra, rb] then s.raiseError .illegalAlias
    else if s.value rb = 0 then s.raiseError .divByZero
    else match modInv (s.value ra) (s.value rb) with
      | none => s.failDestination rd .notInvertible
      | some v => (s.writeValue rd v).retire 0)

end Sys2Proof.Machine
end

