-- ==== Sys2Proof/Machine/Multiply.lean ====
section
/-! DEFINITION. The meaning of MUL (42_multiply.md). -/

namespace Sys2Proof.Machine

/-- R140: zero operands first, then the capacity test on the sum of the operand lengths (D34). -/
def execMul (rd ra rb : Reg) (s : State) : Host.Outcome State Fault Refusal :=
  .next (if s.value ra = 0 ∨ s.value rb = 0 then (s.writeValue rd 0).retire 0
    else if s.par.cap < digitLen s.digitBits (s.value ra) + digitLen s.digitBits (s.value rb) then
      s.failDestination rd .capacity
    else (s.writeValue rd (s.value ra * s.value rb)).retire 0)

end Sys2Proof.Machine
end

