-- ==== Sys2Proof/Machine/NumberTheory.lean ====
section
/-! DEFINITION. The meanings of RNDBITS, RNDLIM, SIEVE, ISPRIME and RNDPRIME (45_number_theory.md). -/

namespace Sys2Proof.Machine

/-- R191. -/
def execRndbits (rd : Reg) (n : Nat) (s : State) : Host.Outcome State Fault Refusal :=
  .next (if n < s.digitBits then s.raiseError .invalidArg
    else if s.digitBits * s.par.cap < n then s.failDestination rd .capacity
    else
      let (v, t) := s.draw (2 ^ (n - 1)) (2 ^ n - 1)
      (t.writeValue rd v).retire 0)

/-- R192. -/
def execRndlim (rd ra : Reg) (s : State) : Host.Outcome State Fault Refusal :=
  .next (if aliases rd [ra] then s.raiseError .illegalAlias
    else if s.value ra = 0 then s.raiseError .invalidArg
    else
      let (v, t) := s.draw 0 (s.value ra - 1)
      (t.writeValue rd v).retire 0)

/-- R194. -/
def execSieve (n : Nat) (s : State) : Host.Outcome State Fault Refusal :=
  .next (if n < 3 then s.raiseError .invalidArg
    else if s.par.sieveNmax < n then s.raiseError .capacity
    else State.retire (BitVec.ofNat 32 (oddPrimesBelow n).length)
      { s with sieve := oddPrimesBelow n, status := { s.status with sieveValid := true } })

/-- R195 step 1: some table prime below `p` divides `p`. -/
def prefilterRejects (sieve : List Nat) (p : Nat) : Bool := sieve.any fun q => decide (q < p) && p % q == 0

/-- R195 step 2: `trials` witnesses drawn one after another, up to the first that shows `p` composite. -/
def fermatLoop (p : Nat) : Nat → State → Bool × State
  | 0, s => (true, s)
  | trials + 1, s =>
    let (w, t) := s.draw 2 (p - 2)
    if modPow w (p - 1) p = 1 then fermatLoop p trials t else (false, t)

/-- `is_large_prime(p, t, sieve)` (R195 steps 1 to 3): the verdict, and the state after the draws. -/
def largePrimeTest (p trials : Nat) (sv : Bool) (s : State) : Bool × State :=
  if sv && prefilterRejects s.sieve p then (false, s) else fermatLoop p trials s

/-- R195. -/
def execIsprime (ra : Reg) (t : Nat) (sv : Bool) (s : State) : Host.Outcome State Fault Refusal :=
  .next (if t < 1 ∨ s.sieveMissing sv ∨ s.value ra < 4 then s.raiseError .invalidArg
    else
      let (accepted, u) := largePrimeTest (s.value ra) t sv s
      u.retire (if accepted then 1 else 0))

/-- `c OR 1` (R197: "set low bit"). -/
def setLowBit (c : Nat) : Nat := if c % 2 = 0 then c + 1 else c

/-- R197, one round of its loop: a candidate is drawn and tested; accepted, the command retires; rejected, it stays in
progress (BUSY is 1) and the next step runs the next round (70_reset_and_hazards.md R258; log entry 6). -/
def execRndprime (rd : Reg) (n t : Nat) (sv : Bool) (s : State) : Host.Outcome State Fault Refusal :=
  .next (if n < s.digitBits ∨ t < 1 ∨ s.sieveMissing sv then s.raiseError .invalidArg
    else if s.digitBits * s.par.cap < n then s.failDestination rd .capacity
    else
      let (c, u) := s.draw (2 ^ (n - 1)) (2 ^ n - 1)
      let (accepted, v) := largePrimeTest (setLowBit c) t sv u
      if accepted then (v.writeValue rd (setLowBit c)).retire 0
      else { v with running := some (encode (.rndprime rd n t sv)) })

end Sys2Proof.Machine
end

