-- ==== Sys2Proof/Machine/Storage.lean ====
section
/-! DEFINITION. The meanings of ZERO, COPY, DESER, SER, SIGBITS, SERSIZE and CLRERR (40_storage_transfer.md). -/

namespace Sys2Proof.Machine

/-- R101. -/
def execZero (rd : Reg) (s : State) : Host.Outcome State Fault Refusal :=
  .next ((s.writeValue rd 0).retire 0)

/-- R102. -/
def execCopy (rd ra : Reg) (s : State) : Host.Outcome State Fault Refusal :=
  .next ((s.writeValue rd (s.value ra)).retire 0)

/-- R103. -/
def execDeser (rd : Reg) (addr len : Nat) (s : State) : Host.Outcome State Fault Refusal :=
  .next (if s.outsideMem addr len then s.raiseError .badAddress
    else s.finishValue rd (wireValue (s.memRead addr len)))

/-- R104. -/
def execSer (ra : Reg) (addr len : Nat) (s : State) : Host.Outcome State Fault Refusal :=
  .next (if s.outsideMem addr len then s.raiseError .badAddress
    else if len < (wireBytes (s.value ra)).length then s.raiseError .bufTooSmall
    else (s.memWrite addr (wireBytes (s.value ra))).retire (BitVec.ofNat 32 (wireBytes (s.value ra)).length))

/-- R105. -/
def execSigbits (ra : Reg) (s : State) : Host.Outcome State Fault Refusal :=
  .next (s.retire (BitVec.ofNat 32 (bitlen (s.value ra))))

/-- R106. -/
def execSersize (ra : Reg) (s : State) : Host.Outcome State Fault Refusal :=
  .next (s.retire (BitVec.ofNat 32 (ceilDiv (bitlen (s.value ra)) 8)))

/-- R107. -/
def execClrerr (s : State) : Host.Outcome State Fault Refusal :=
  .next (State.retire 0 { s with status := { s.status with sticky := false } })

end Sys2Proof.Machine
end

