-- ==== Sys2Proof/Machine/Dispatch.lean ====
section
/-! DEFINITION. The dispatch: one arm per constructor of Instr. -/

namespace Sys2Proof.Machine

def exec (i : Instr) (s : State) : Host.Outcome State Fault Refusal :=
  match i with
  | .zero rd => Sys2Proof.Machine.execZero rd s
  | .copy rd ra => Sys2Proof.Machine.execCopy rd ra s
  | .deser rd addr len => Sys2Proof.Machine.execDeser rd addr len s
  | .ser ra addr len => Sys2Proof.Machine.execSer ra addr len s
  | .sigbits ra => Sys2Proof.Machine.execSigbits ra s
  | .sersize ra => Sys2Proof.Machine.execSersize ra s
  | .clrerr => Sys2Proof.Machine.execClrerr s
  | .cmp ra rb => Sys2Proof.Machine.execCmp ra rb s
  | .add rd ra rb => Sys2Proof.Machine.execAdd rd ra rb s
  | .adds rd ra u => Sys2Proof.Machine.execAdds rd ra u s
  | .sub rd ra rb => Sys2Proof.Machine.execSub rd ra rb s
  | .mul rd ra rb => Sys2Proof.Machine.execMul rd ra rb s
  | .div rd ra rb rc => Sys2Proof.Machine.execDiv rd ra rb rc s
  | .mod rd ra rb => Sys2Proof.Machine.execMod rd ra rb s
  | .modpow rd ra rb rc => Sys2Proof.Machine.execModpow rd ra rb rc s
  | .modinv rd ra rb => Sys2Proof.Machine.execModinv rd ra rb s
  | .rndbits rd n => Sys2Proof.Machine.execRndbits rd n s
  | .rndlim rd ra => Sys2Proof.Machine.execRndlim rd ra s
  | .sieve n => Sys2Proof.Machine.execSieve n s
  | .isprime ra t sv => Sys2Proof.Machine.execIsprime ra t sv s
  | .rndprime rd n t sv => Sys2Proof.Machine.execRndprime rd n t sv s

end Sys2Proof.Machine
end

