-- ==== Sys2Proof/Machine/HostPort.lean ====
section
/-! DEFINITION. What the host does to the block (10_state.md R43) and what the sequencer does with a command word (R27,
30_encoding.md R88). Step.lean only chooses between the two. -/

namespace Sys2Proof.Machine

/-- A Reset (70_reset_and_hazards.md R250): every piece of the block's state takes its reset value and a running command
is abandoned. The parameters stay; MEM becomes unspecified, which is a new power-up content; what is outside the block
(the host's later actions, the RAND port, what the host has read) goes on. Log entry 11. -/
def State.hostReset (s : State) : State :=
  { State.resetFor s.par with
    memEpoch := s.memEpoch + 1, fresh := s.fresh, rand := s.rand, host := s.host, replies := s.replies }

/-- The host has read `r`. -/
def State.reply (r : HostReply) (s : State) : State := { s with replies := r :: s.replies }

/-- A write of CMD (R27): it issues the command while BUSY is 0 and is dropped while BUSY is 1. -/
def State.hostIssue (w : CmdWord) (s : State) : State := if s.busy then s else { s with running := some w }

/-- ReadResult (R43): RESULT, or an unspecified value while BUSY is 1. -/
def State.hostReadResult (s : State) : State :=
  if s.busy then
    let (v, t) := s.takeUnspecified
    t.reply (.result (BitVec.ofNat 32 v))
  else s.reply (.result s.result)

/-- HostMemWrite (R43, R74): dropped while BUSY is 1 or outside MEM. -/
def State.hostMemWrite (addr : Nat) (b : Byte) (s : State) : State :=
  if s.busy || s.outsideMem addr 1 then s else s.memWrite addr [b]

/-- HostMemRead (R43, R74): the byte, or an unspecified byte while BUSY is 1 or outside MEM. -/
def State.hostMemRead (addr : Nat) (s : State) : State :=
  if s.busy || s.outsideMem addr 1 then
    let (v, t) := s.takeUnspecified
    t.reply (.memByte (BitVec.ofNat 8 v))
  else s.reply (.memByte (s.readByte addr))

/-- The effect of one host action (R43). -/
def State.hostAct (s : State) : HostAction → State
  | .reset => s.hostReset
  | .issue w => s.hostIssue w
  | .readStatus => s.reply (.status s.statusWord)
  | .readResult => s.hostReadResult
  | .readParam => s.reply (.param s.paramWord)
  | .memWrite addr b => s.hostMemWrite addr b
  | .memRead addr => s.hostMemRead addr

/-- The host acts now: its next action waits for nothing, or the block is idle (log entry 7). -/
def HostEvent.due (busy : Bool) (e : HostEvent) : Bool := !busy || e.time == .afterSteps 0

/-- The host action that comes next, if it comes before the running command goes on, and the state without it. -/
def State.dueAction (s : State) : Option (HostAction × State) :=
  match s.host with
  | [] => none
  | e :: es => if e.due s.busy then some (e.act, { s with host := es }) else none

/-- One step of the running command has gone by. -/
def HostTime.tick : HostTime → HostTime
  | .whenIdle => .whenIdle
  | .afterSteps k => .afterSteps (k - 1)

/-- The running command goes one step on: the host's next action comes one step nearer. -/
def State.tickHost (s : State) : State :=
  match s.host with
  | [] => s
  | e :: es => { s with host := { e with time := e.time.tick } :: es }

/-- What the sequencer does with the word it has been issued (R88): an illegal word raises ILLEGAL_CMD (R84), any other
runs its command's rule. -/
def runCommand (w : CmdWord) (s : State) : Host.Outcome State Fault Refusal :=
  match decode w with
  | .ok i => exec i s
  | .error _ => .next (s.raiseError .illegalCmd)

/-- The block with no host action due: idle it holds all its state (60_exceptions.md R235), busy it runs its command. -/
def sequencer (s : State) : Host.Outcome State Fault Refusal :=
  match s.running with
  | none => .next s
  | some w => runCommand w s.tickHost

/-- The state in which the sequencer has been issued `w` and the host does not act while it runs; log entry 8. -/
def State.issued (s : State) (w : CmdWord) : State :=
  { s with running := some w, host := s.host.filter fun e => e.time == .whenIdle }

end Sys2Proof.Machine
end

