-- ==== Sys2Proof/Machine/Step.lean ====
section
/-! DEFINITION. One step of the machine: one action of the host, or one step of the running command. -/

namespace Sys2Proof.Machine

/-- A host action that is due takes place (10_state.md R43); otherwise the sequencer goes on (R20, R27). -/
def step (s : State) : Host.Outcome State Fault Refusal :=
  match s.dueAction with
  | some (a, t) => .next (t.hostAct a)
  | none => sequencer s

/-- `s` with the word `w` issued, so that the next step runs it (log entry 8). Every command has 64 bits (R80). -/
def State.withFetchWord (s : State) (_nbits w : Nat) : State := s.issued (BitVec.ofNat 64 w)

end Sys2Proof.Machine
end

