-- ==== Sys2Proof/Machine/Asm.lean ====
section
/-! DEFINITION. The assembler of 30_encoding.md R86: a line is a mnemonic and its operands, and it stands for one command
word. Text is a list of characters. What R86 leaves open of the text is log entry 19. -/

namespace Sys2Proof.Machine

/-- An operand of a line (R86). -/
inductive AsmOperand where
  /-- `B0` to `B15`. -/
  | reg (r : Reg)
  /-- `#` and a number. -/
  | imm (v : Nat)
  /-- The optional last operand `SV`. -/
  | sv
deriving DecidableEq, Repr

/-- A line: its mnemonic and its operands in the order of R83's assembler column. -/
structure AsmLine where
  mnemonic : List Char
  operands : List AsmOperand
deriving DecidableEq, Repr

/-- The line of an instruction (R83, R86). -/
def Instr.toLine : Instr → AsmLine
  | .zero rd => ⟨['Z', 'E', 'R', 'O'], [.reg rd]⟩
  | .copy rd ra => ⟨['C', 'O', 'P', 'Y'], [.reg rd, .reg ra]⟩
  | .deser rd addr len => ⟨['D', 'E', 'S', 'E', 'R'], [.reg rd, .imm addr, .imm len]⟩
  | .ser ra addr len => ⟨['S', 'E', 'R'], [.reg ra, .imm addr, .imm len]⟩
  | .sigbits ra => ⟨['S', 'I', 'G', 'B', 'I', 'T', 'S'], [.reg ra]⟩
  | .sersize ra => ⟨['S', 'E', 'R', 'S', 'I', 'Z', 'E'], [.reg ra]⟩
  | .clrerr => ⟨['C', 'L', 'R', 'E', 'R', 'R'], []⟩
  | .cmp ra rb => ⟨['C', 'M', 'P'], [.reg ra, .reg rb]⟩
  | .add rd ra rb => ⟨['A', 'D', 'D'], [.reg rd, .reg ra, .reg rb]⟩
  | .adds rd ra u => ⟨['A', 'D', 'D', 'S'], [.reg rd, .reg ra, .imm u]⟩
  | .sub rd ra rb => ⟨['S', 'U', 'B'], [.reg rd, .reg ra, .reg rb]⟩
  | .mul rd ra rb => ⟨['M', 'U', 'L'], [.reg rd, .reg ra, .reg rb]⟩
  | .div rd ra rb rc => ⟨['D', 'I', 'V'], [.reg rd, .reg ra, .reg rb, .reg rc]⟩
  | .mod rd ra rb => ⟨['M', 'O', 'D'], [.reg rd, .reg ra, .reg rb]⟩
  | .modpow rd ra rb rc => ⟨['M', 'O', 'D', 'P', 'O', 'W'], [.reg rd, .reg ra, .reg rb, .reg rc]⟩
  | .modinv rd ra rb => ⟨['M', 'O', 'D', 'I', 'N', 'V'], [.reg rd, .reg ra, .reg rb]⟩
  | .rndbits rd n => ⟨['R', 'N', 'D', 'B', 'I', 'T', 'S'], [.reg rd, .imm n]⟩
  | .rndlim rd ra => ⟨['R', 'N', 'D', 'L', 'I', 'M'], [.reg rd, .reg ra]⟩
  | .sieve n => ⟨['S', 'I', 'E', 'V', 'E'], [.imm n]⟩
  | .isprime ra t sv => ⟨['I', 'S', 'P', 'R', 'I', 'M', 'E'], [.reg ra, .imm t] ++ if sv then [.sv] else []⟩
  | .rndprime rd n t sv =>
    ⟨['R', 'N', 'D', 'P', 'R', 'I', 'M', 'E'], [.reg rd, .imm n, .imm t] ++ if sv then [.sv] else []⟩

/-- The instruction a line stands for (R83, R86), if its operands are those of its mnemonic. -/
def AsmLine.toInstr (l : AsmLine) : Option Instr :=
  match l.mnemonic, l.operands with
  | ['Z', 'E', 'R', 'O'], [.reg rd] => some (.zero rd)
  | ['C', 'O', 'P', 'Y'], [.reg rd, .reg ra] => some (.copy rd ra)
  | ['D', 'E', 'S', 'E', 'R'], [.reg rd, .imm addr, .imm len] => some (.deser rd addr len)
  | ['S', 'E', 'R'], [.reg ra, .imm addr, .imm len] => some (.ser ra addr len)
  | ['S', 'I', 'G', 'B', 'I', 'T', 'S'], [.reg ra] => some (.sigbits ra)
  | ['S', 'E', 'R', 'S', 'I', 'Z', 'E'], [.reg ra] => some (.sersize ra)
  | ['C', 'L', 'R', 'E', 'R', 'R'], [] => some .clrerr
  | ['C', 'M', 'P'], [.reg ra, .reg rb] => some (.cmp ra rb)
  | ['A', 'D', 'D'], [.reg rd, .reg ra, .reg rb] => some (.add rd ra rb)
  | ['A', 'D', 'D', 'S'], [.reg rd, .reg ra, .imm u] => some (.adds rd ra u)
  | ['S', 'U', 'B'], [.reg rd, .reg ra, .reg rb] => some (.sub rd ra rb)
  | ['M', 'U', 'L'], [.reg rd, .reg ra, .reg rb] => some (.mul rd ra rb)
  | ['D', 'I', 'V'], [.reg rd, .reg ra, .reg rb, .reg rc] => some (.div rd ra rb rc)
  | ['M', 'O', 'D'], [.reg rd, .reg ra, .reg rb] => some (.mod rd ra rb)
  | ['M', 'O', 'D', 'P', 'O', 'W'], [.reg rd, .reg ra, .reg rb, .reg rc] => some (.modpow rd ra rb rc)
  | ['M', 'O', 'D', 'I', 'N', 'V'], [.reg rd, .reg ra, .reg rb] => some (.modinv rd ra rb)
  | ['R', 'N', 'D', 'B', 'I', 'T', 'S'], [.reg rd, .imm n] => some (.rndbits rd n)
  | ['R', 'N', 'D', 'L', 'I', 'M'], [.reg rd, .reg ra] => some (.rndlim rd ra)
  | ['S', 'I', 'E', 'V', 'E'], [.imm n] => some (.sieve n)
  | ['I', 'S', 'P', 'R', 'I', 'M', 'E'], [.reg ra, .imm t] => some (.isprime ra t false)
  | ['I', 'S', 'P', 'R', 'I', 'M', 'E'], [.reg ra, .imm t, .sv] => some (.isprime ra t true)
  | ['R', 'N', 'D', 'P', 'R', 'I', 'M', 'E'], [.reg rd, .imm n, .imm t] => some (.rndprime rd n t false)
  | ['R', 'N', 'D', 'P', 'R', 'I', 'M', 'E'], [.reg rd, .imm n, .imm t, .sv] => some (.rndprime rd n t true)
  | _, _ => none

/-! ## The text of a line -/

def isBlank (c : Char) : Bool := c == ' ' || c == '\t'

/-- `cs` without blanks at either end. -/
def stripBlanks (cs : List Char) : List Char := ((cs.dropWhile isBlank).reverse.dropWhile isBlank).reverse

/-- `cs` cut at each comma. -/
def splitCommas : List Char → List (List Char)
  | [] => [[]]
  | c :: cs =>
    match c == ',', splitCommas cs with
    | true, rest => [] :: rest
    | false, [] => [[c]]
    | false, w :: rest => (c :: w) :: rest

/-- The value of a hexadecimal or decimal digit character. -/
def digitOf (c : Char) : Option Nat :=
  let n := c.toNat
  if 48 ≤ n ∧ n ≤ 57 then some (n - 48)
  else if 65 ≤ n ∧ n ≤ 70 then some (n - 55)
  else if 97 ≤ n ∧ n ≤ 102 then some (n - 87)
  else none

/-- The number the digits `cs` make in base `base`, after those already read, which make `acc`. -/
def numberFrom (base : Nat) : Nat → List Char → Option Nat
  | acc, [] => some acc
  | acc, c :: cs =>
    match digitOf c with
    | some d => if d < base then numberFrom base (base * acc + d) cs else none
    | none => none

/-- A number of at least one digit. -/
def parseNumber (base : Nat) (cs : List Char) : Option Nat := if cs = [] then none else numberFrom base 0 cs

/-- `B0` to `B15`, `#` and a decimal number or `0x` and hexadecimal digits, or `SV` (R86). -/
def parseOperand (cs : List Char) : Option AsmOperand :=
  match cs with
  | ['S', 'V'] => some .sv
  | 'B' :: ds => (parseNumber 10 ds).bind fun n => if h : n < 16 then some (.reg ⟨n, h⟩) else none
  | '#' :: '0' :: 'x' :: ds => (parseNumber 16 ds).map .imm
  | '#' :: ds => (parseNumber 10 ds).map .imm
  | _ => none

/-- A line of text (R86): what stands before a `;`, the mnemonic, then the operands between commas. -/
def parseLine (text : List Char) : Option AsmLine :=
  let code := stripBlanks (text.takeWhile (· != ';'))
  let name := code.takeWhile fun c => !isBlank c
  let rest := stripBlanks (code.drop name.length)
  if rest = [] then some ⟨name, []⟩
  else ((splitCommas rest).mapM fun w => parseOperand (stripBlanks w)).map fun ops => ⟨name, ops⟩

/-- The command word of a line of text: `op`, each operand in its field, every other bit 0 (R86). An immediate that does
not fit its field is refused. -/
def assemble (text : List Char) : Option CmdWord :=
  match (parseLine text).bind AsmLine.toInstr with
  | some i => if i.wf then some (encode i) else none
  | none => none

/-- The text of an operand. -/
def AsmOperand.text : AsmOperand → List Char
  | .reg r => 'B' :: Nat.toDigits 10 r.val
  | .imm v => '#' :: Nat.toDigits 10 v
  | .sv => ['S', 'V']

/-- The text of a line. -/
def AsmLine.text (l : AsmLine) : List Char :=
  match l.operands with
  | [] => l.mnemonic
  | o :: os => l.mnemonic ++ ' ' :: o.text ++ os.flatMap fun p => ',' :: ' ' :: p.text

/-- The assembler text of an instruction. -/
def Instr.text (i : Instr) : List Char := (Instr.toLine i).text

end Sys2Proof.Machine
end

