-- ==== Sys2Proof/Machine/DigitAlgorithms.lean ====
section
/-! DEFINITION. The source's digit-level procedures, on little-endian digit lists: base conversion (40_storage_transfer.md
R100), compare (41_compare_add_sub.md R120), add (R122), subtract (R125), multiply (42_multiply.md R141), divide
(43_divide.md R151 to R156), the one-bit right shift (44_modular.md R171) and the sieve (45_number_theory.md R194). The meanings
follow the value-level rules, which are the architectural result (00_scope.md R11); that the two levels agree is stated
in Certificates/Slice0/Obligations.lean. "AND MASK" is `% 2^D` and ">> D" is `/ 2^D` (R8). -/

namespace Sys2Proof.Machine

/-! ## Base conversion (R100) -/

/-- R100's inner loop for one destination digit: `acc` is `dst[j]`, `got` the bits it has, `need` those it still needs,
`si` and `sb` the cursor. Each round needs fewer bits, so `need` units of fuel are enough. -/
def fillDigit (S : Nat) (src : List Nat) : Nat → Nat → Nat → Nat → Nat → Nat → Nat × Nat × Nat
  | 0, _, _, acc, si, sb => (acc, si, sb)
  | fuel + 1, need, got, acc, si, sb =>
    if need = 0 then (acc, si, sb)
    else
      let pull := S - sb
      if pull ≤ need then
        fillDigit S src fuel (need - pull) (got + pull) (acc ||| (src.getD si 0 >>> sb) <<< got) (si + 1) 0
      else (acc ||| ((src.getD si 0 >>> sb) % 2 ^ need) <<< got, si, sb + need)

/-- R100's outer loop: the destination digits still to make, with `remaining` bits left. -/
def convertLoop (S R : Nat) (src : List Nat) : Nat → Nat → Nat → Nat → List Nat
  | 0, _, _, _ => []
  | n + 1, remaining, si, sb =>
    let need := min R remaining
    let (d, si', sb') := fillDigit S src need need 0 0 si sb
    d :: convertLoop S R src n (remaining - need) si' sb'

/-- `convert(src, S, T, R)` (R100). -/
def convert (src : List Nat) (S T R : Nat) : List Nat := convertLoop S R src (ceilDiv T R) T 0 0

/-! ## Compare (R120) -/

/-- The walk from the most significant digit, on digits listed most significant first. -/
def cmpFromTop : List Nat → List Nat → Ordering
  | x :: xs, y :: ys => if x = y then cmpFromTop xs ys else if x < y then .lt else .gt
  | _, _ => .eq

/-- `cmp(a, b)`: lengths first, then the digits. -/
def cmpDigits (a b : List Nat) : Ordering :=
  if a.length = b.length then cmpFromTop a.reverse b.reverse
  else if a.length < b.length then .lt else .gt

/-! ## Add and subtract (R122, R125) -/

/-- The digits of `a` and `b` side by side up to the longer length, the shorter read as 0 above its own (R122). -/
def pairDigits (a b : List Nat) : List (Nat × Nat) :=
  let L := max a.length b.length
  (a ++ List.replicate (L - a.length) 0).zip (b ++ List.replicate (L - b.length) 0)

/-- The raw sum of one position, up to `D + 1` bits (R122). -/
def addRaw (x y carry : Nat) : Nat := x + y + carry

/-- R122's loop: the masked digits and the carry out of the last one. -/
def addLoop (D : Nat) : List (Nat × Nat) → Nat → List Nat × Nat
  | [], carry => ([], carry)
  | (x, y) :: rest, carry =>
    let raw := addRaw x y carry
    let (ds, c) := addLoop D rest (raw / 2 ^ D)
    (raw % 2 ^ D :: ds, c)

/-- `add` (R122) in a register of `cap` digits: `none` is CAPACITY. -/
def addDigits (D cap : Nat) (a b : List Nat) : Option (List Nat) :=
  let (ds, c) := addLoop D (pairDigits a b) 0
  if c = 0 then some ds
  else if max a.length b.length = cap then none
  else some (ds ++ [1])

/-- The raw difference of one position (R125). -/
def subRaw (D x y borrow : Nat) : Nat := x + 2 ^ D - y - borrow

/-- R125's loop: a borrow occurred when bit `D` of the raw digit is 0. -/
def subLoop (D : Nat) : List (Nat × Nat) → Nat → List Nat
  | [], _ => []
  | (x, y) :: rest, borrow =>
    let raw := subRaw D x y borrow
    raw % 2 ^ D :: subLoop D rest (1 - raw / 2 ^ D)

/-- `sub` (R125), for `a ≥ b`. -/
def subDigits (D : Nat) (a b : List Nat) : List Nat := trimDigits (subLoop D (pairDigits a b) 0)

/-! ## Multiply (R141) -/

/-- `t[i] <- t[i] + x`. -/
def addAt (t : List Nat) (i x : Nat) : List Nat := t.set i (t.getD i 0 + x)

/-- R141 step 3 for one `k`: `t[k+i] <- t[k+i] + a[k]·b[i]` for every `i`. -/
def mulRow (a b : List Nat) (t : List Nat) (k : Nat) : List Nat :=
  (List.range b.length).foldl (fun t i => addAt t (k + i) (a.getD k 0 * b.getD i 0)) t

/-- R141 steps 2 and 3: the columns of the product, no carry taken. -/
def mulColumns (a b : List Nat) : List Nat :=
  (List.range a.length).foldl (mulRow a b) (List.replicate (a.length + b.length) 0)

/-- R141 step 4 at position `i`. -/
def carryStep (D : Nat) (t : List Nat) (i : Nat) : List Nat :=
  (addAt t (i + 1) (t.getD i 0 / 2 ^ D)).set i (t.getD i 0 % 2 ^ D)

/-- R141 step 4: the one carry pass, from position 0 to `n - 2`. -/
def carryPass (D : Nat) (t : List Nat) : List Nat := (List.range (t.length - 1)).foldl (carryStep D) t

/-- R141 step 5 and 43_divide.md R156: one leading zero digit removed, if there is one. -/
def trimOne (ds : List Nat) : List Nat := if 1 < ds.length ∧ ds.getLast? = some 0 then ds.dropLast else ds

/-- `mul` (R141) in a register of `cap` digits: `none` is CAPACITY. -/
def mulDigits (D cap : Nat) (a b : List Nat) : Option (List Nat) :=
  if a = [0] ∨ b = [0] then some [0]
  else if cap < a.length + b.length then none
  else some (trimOne (carryPass D (mulColumns a b)))

/-! ## Divide (R151 to R156) -/

/-- R153: how many top digits of `r` make the trial dividend. -/
def trialLen (r : List Nat) : Nat := min r.length 4

/-- R153: how many top digits of `b` make the trial divisor. -/
def trialDivisorLen (r b : List Nat) : Nat := if b.length < r.length then trialLen r - 1 else trialLen r

/-- The number the top `k` digits of `ds` make. -/
def topValue (D : Nat) (ds : List Nat) (k : Nat) : Nat := digitsVal D (ds.drop (ds.length - k))

/-- R153: the candidate digit. -/
def estimate (D : Nat) (r b : List Nat) : Nat := topValue D r (trialLen r) / topValue D b (trialDivisorLen r b)

/-- R154's correction loop, from the candidate down. -/
def correct (valB valR : Nat) : Nat → Nat
  | 0 => 0
  | q + 1 => if valR < valB * (q + 1) then correct valB valR q else q + 1

/-- R153 and R154. -/
def estimateAndCorrect (D : Nat) (r b : List Nat) : Nat :=
  correct (digitsVal D b) (digitsVal D r) (estimate D r b)

/-- One iteration of R152: the quotient digit and the running remainder less its multiple of `b`. -/
def divStep (D : Nat) (b r : List Nat) : Nat × List Nat :=
  match cmpDigits r b with
  | .eq => (1, [0])
  | .lt => (0, r)
  | .gt =>
    let q := estimateAndCorrect D r b
    (q, canonDigits D (digitsVal D r - digitsVal D b * q))

/-- R155: the next dividend digit at position 0; a zero remainder stays one digit long. -/
def shiftIn (r : List Nat) (d : Nat) : List Nat := if r = [0] then [d] else d :: r

/-- R152's loop over the dividend digits still to come, next first; `q` the quotient digits so far. -/
def divLoop (D : Nat) (b : List Nat) : List Nat → List Nat → List Nat → List Nat × List Nat
  | [], r, q =>
    let (qd, r') := divStep D b r
    (qd :: q, r')
  | d :: ds, r, q =>
    let (qd, r') := divStep D b r
    divLoop D b ds (shiftIn r' d) (qd :: q)

/-- `div_with_remainder(a, b)` for `b` not zero (R151, R152, R156): quotient and remainder. -/
def divDigits (D : Nat) (a b : List Nat) : List Nat × List Nat :=
  match cmpDigits a b with
  | .lt => ([0], a)
  | .eq => ([1], [0])
  | .gt =>
    let low := a.length - b.length
    let (q, r) := divLoop D b (a.take low).reverse (a.drop low) []
    (trimOne q, r)

/-! ## Right shift (R171) -/

/-- `exp >> 1`: each digit takes the low bit of the next higher one at its top; a top digit that becomes 0 is trimmed
unless it is the only one. -/
def shiftRightOne (D : Nat) (ds : List Nat) : List Nat :=
  trimOne (List.zipWith (fun d hi => d / 2 + hi % 2 * 2 ^ (D - 1)) ds (ds.tail ++ [0]))

/-- `exp` is odd: bit 0 of digit 0 (R171). -/
def isOddDigits (ds : List Nat) : Bool := ds.headD 0 % 2 == 1

/-! ## The classical sieve (R194) -/

/-- The indices `i·i, i·i + i, …` unmarked. -/
def unmarkMultiples (i : Nat) (marks : List Bool) : List Bool :=
  (List.range marks.length).map fun j => marks.getD j false && !(decide (i * i ≤ j) && j % i == 0)

/-- `for i = 2, 3, …` while `i·i < N`; one unit of fuel a value of `i`. -/
def eratosthenesLoop (N : Nat) : Nat → Nat → List Bool → List Bool
  | 0, _, marks => marks
  | fuel + 1, i, marks =>
    if i * i < N then eratosthenesLoop N fuel (i + 1) (if marks.getD i false then unmarkMultiples i marks else marks)
    else marks

/-- The classical sieve of Eratosthenes in an array of length `N`; the marked odd indices. -/
def eratosthenes (N : Nat) : List Nat :=
  let marks := eratosthenesLoop N N 2 ((List.range N).map fun i => decide (2 ≤ i))
  (List.range N).filter fun j => j % 2 == 1 && marks.getD j false

end Sys2Proof.Machine
end

