-- ==== Sys2Proof/Safety.lean ====
section
/-! DEFINITION. The terms claims use: how a command ended, what it left alone, and the invariant of the block. -/

namespace Sys2Proof.Machine

/-! ## How a command is encoded -/

/-- The words with opcode `op` are the command `build` of format `fmt` (30_encoding.md R83): a word of that opcode is illegal if
a bit of `zero` is 1 or a field outside the format is not 0 (R84, R88), else it is the command with these operands. -/
def EncodedAs (op : BitVec 8) (fmt : Format) (build : Fields → Instr) : Prop :=
  ∀ w : CmdWord, (Fields.ofWord w).op = op → decode w =
    if (Fields.ofWord w).zero ≠ 0 then .error .reservedBitSet
    else if fmt.unusedAreZero (Fields.ofWord w) then .ok (build (Fields.ofWord w)) else .error .unusedFieldSet

/-! ## How a command ended -/

/-- `t` is `s` after `retire(result)` as far as RESULT, STATUS and BUSY go (60_exceptions.md R222): STICKY and SIEVE_VALID
as in `s`. -/
structure Succeeded (result : Word) (s t : State) : Prop where
  result : t.result = result
  err : t.status.err = false
  ecode : t.status.ecode = .ok
  sticky : t.status.sticky = s.status.sticky
  sieveValid : t.status.sieveValid = s.status.sieveValid
  idle : t.running = none

/-- `t` is `s` after `raise c` as far as RESULT, STATUS and BUSY go (R223). -/
structure Failed (c : ECode) (s t : State) : Prop where
  result : t.result = 0xFFFFFFFF
  err : t.status.err = true
  ecode : t.status.ecode = c
  sticky : t.status.sticky = true
  sieveValid : t.status.sieveValid = s.status.sieveValid
  idle : t.running = none

/-! ## What is left alone -/

/-- Every register but those listed is as before. -/
def SameRegsBut (ds : List Reg) (s t : State) : Prop := ∀ r : Reg, r ∉ ds → t.regs[r] = s.regs[r]

/-- Every byte of MEM reads as before. -/
def SameMem (s t : State) : Prop := ∀ a, t.readByte a = s.readByte a

/-- Every byte of MEM outside `lo .. lo + n - 1` reads as before. -/
def SameMemOutside (lo n : Nat) (s t : State) : Prop := ∀ a, a < lo ∨ lo + n ≤ a → t.readByte a = s.readByte a

/-- The parameters, the host's coming actions and what it has read are as before. -/
structure SameOutside (s t : State) : Prop where
  par : t.par = s.par
  host : t.host = s.host
  replies : t.replies = s.replies

/-- No value of the RAND port and no free value was used. -/
structure NoDraw (s t : State) : Prop where
  rand : t.rand = s.rand
  fresh : t.fresh = s.fresh

/-- The frame of a command that stores nothing: only the registers listed, RESULT, STATUS and BUSY may differ (and the
draws taken). -/
structure Keeps (ds : List Reg) (s t : State) : Prop where
  regs : SameRegsBut ds s t
  mem : SameMem s t
  sieve : t.sieve = s.sieve
  outside : SameOutside s t

/-- The command reported `c` and changed nothing else (60_exceptions.md R237 a). -/
def FailedCleanly (c : ECode) (s t : State) : Prop := Failed c s t ∧ Keeps [] s t ∧ NoDraw s t

/-- The command reported `c` and left an unspecified canonical value in `rd` (R237 b). -/
def FailedInto (rd : Reg) (c : ECode) (s t : State) : Prop :=
  Failed c s t ∧ Keeps [rd] s t ∧ t.regs[rd].Canonical s.par ∧ t.rand = s.rand

/-- Register `r` holds the value `v`, canonically (10_state.md R22, R23). -/
def State.Holds (t : State) (r : Reg) (v : Nat) : Prop := t.value r = v ∧ t.regs[r].Canonical t.par

/-- The prefilter of ISPRIME finds a factor: a table prime below `p` that divides `p` (45_number_theory.md R195 step 1). -/
def SieveHit (sieve : List Nat) (sv : Bool) (p : Nat) : Prop := sv = true ∧ ∃ q ∈ sieve, q < p ∧ q ∣ p

/-- `w` is a witness of the range R195 draws from, and `w^(p−1) mod p = 1`. -/
def Passes (p w : Nat) : Prop := (2 ≤ w ∧ w ≤ p - 2) ∧ w ^ (p - 1) % p = 1

/-- RNDPRIME is still in progress: BUSY is 1, and no register, no byte of MEM, no table entry, neither RESULT nor the rest
of STATUS differ (R197, 10_state.md R28). -/
structure StillRunning (w : CmdWord) (s t : State) : Prop where
  busy : t.running = some w
  regs : t.regs = s.regs
  status : t.status = s.status
  result : t.result = s.result
  mem : SameMem s t
  sieve : t.sieve = s.sieve
  outside : SameOutside s t

/-- The state 10_state.md R40 gives after reset: the registers, STATUS, RESULT, the table and MEM. -/
structure AfterReset (t : State) : Prop where
  regs : ∀ r : Reg, t.regs[r] = Bigint.canonicalZero
  status : t.statusWord = 0
  result : t.result = 0
  sieve : t.sieve = []
  memUnwritten : ∀ a, t.mem.lookup a = none

/-! ## The invariant -/

/-- Every register meets R22. -/
def State.RegsCanonical (s : State) : Prop := ∀ r : Reg, s.regs[r].Canonical s.par

/-- What holds at every moment: legal parameters (00_scope.md R7), canonical registers (10_state.md R22), MEM in its
canonical form and inside MEMSIZE (20_memory.md R60), a table of ascending odd primes, empty until SIEVE_VALID
(10_state.md R36, R28), and ERR, ECODE, STICKY and RESULT in step (60_exceptions.md R222 to R224). -/
structure State.Inv (s : State) : Prop where
  legal : s.par.Legal
  regs : s.RegsCanonical
  memForm : s.mem.wf = true
  memRange : ∀ c ∈ s.mem, c.1 < s.par.memSize
  sieveSorted : s.sieve.Pairwise (· < ·)
  sievePrimes : ∀ q ∈ s.sieve, q.Prime ∧ q ≠ 2 ∧ q < s.par.sieveNmax
  sieveEmpty : s.status.sieveValid = false → s.sieve = []
  errCode : s.status.err = true ↔ s.status.ecode ≠ .ok
  errSticky : s.status.err = true → s.status.sticky = true
  errResult : s.status.err = true → s.result = 0xFFFFFFFF

/-! ## What an instruction writes and reports -/

/-- The registers an instruction writes (70_reset_and_hazards.md R254, column "destination(s)"). -/
def destinations : Instr → List Reg
  | .zero rd => [rd]
  | .copy rd _ => [rd]
  | .deser rd _ _ => [rd]
  | .ser _ _ _ => []
  | .sigbits _ => []
  | .sersize _ => []
  | .clrerr => []
  | .cmp _ _ => []
  | .add rd _ _ => [rd]
  | .adds rd _ _ => [rd]
  | .sub rd _ _ => [rd]
  | .mul rd _ _ => [rd]
  | .div rd _ _ rc => [rd, rc]
  | .mod rd _ _ => [rd]
  | .modpow rd _ _ _ => [rd]
  | .modinv rd _ _ => [rd]
  | .rndbits rd _ => [rd]
  | .rndlim rd _ => [rd]
  | .sieve _ => []
  | .isprime _ _ _ => []
  | .rndprime rd _ _ _ => [rd]

/-- The bytes an instruction stores when it succeeds: the first address and how many (20_memory.md R64). -/
def storedBytes (i : Instr) (s : State) : Nat × Nat :=
  match i with
  | .ser ra addr _ => (addr, ceilDiv (bitlen (s.value ra)) 8)
  | _ => (0, 0)

/-- The error codes an instruction can report (60_exceptions.md R236). -/
def reportable : Instr → List ECode
  | .zero _ | .copy _ _ | .sigbits _ | .sersize _ | .clrerr | .cmp _ _ => []
  | .deser _ _ _ => [.capacity, .badAddress]
  | .ser _ _ _ => [.bufTooSmall, .badAddress]
  | .add _ _ _ | .adds _ _ _ | .mul _ _ _ => [.capacity]
  | .sub _ _ _ => [.subUnderflow]
  | .div _ _ _ _ | .mod _ _ _ | .modpow _ _ _ _ => [.illegalAlias, .divByZero]
  | .modinv _ _ _ => [.illegalAlias, .divByZero, .notInvertible]
  | .rndbits _ _ | .sieve _ | .rndprime _ _ _ _ => [.capacity, .invalidArg]
  | .rndlim _ _ => [.invalidArg, .illegalAlias]
  | .isprime _ _ _ => [.invalidArg]

end Sys2Proof.Machine
end

