-- ==== Sys2Proof/Certificates/Slice0/Obligations.lean ====
section
/-! DEFINITION. The statements for the provers: what the numbered rules of spec/ say, as propositions about the model. -/

open Sys2Proof Sys2Proof.Machine

/-! ## Encoding -/

/-- Decoding the word of a well-formed instruction gives it back (30_encoding.md R83, R86, R88). -/
def Obligations.DecodeOfEncode : Prop := ∀ i : Instr, i.wf = true → decode (encode i) = .ok i

/-- A word has at most one meaning, and all its bits come from it (R84). -/
def Obligations.EncodeOfDecode : Prop :=
  ∀ (w : CmdWord) (i : Instr), decode w = .ok i → i.wf = true ∧ encode i = w

/-- R88: the fields by their bits; a row's words are those with `w AND mask = match`; two rows never match the same word;
a word no row matches is illegal and raises ILLEGAL_CMD, any other runs its command. -/
def Obligations.WordIsOfRowIffMaskMatches : Prop :=
  ∀ w : CmdWord,
    ((Fields.ofWord w).op.toNat = bitsOf w.toNat 56 8 ∧ (Fields.ofWord w).rd.toNat = bitsOf w.toNat 52 4 ∧
      (Fields.ofWord w).ra.toNat = bitsOf w.toNat 48 4 ∧ (Fields.ofWord w).rb.toNat = bitsOf w.toNat 44 4 ∧
      (Fields.ofWord w).rc.toNat = bitsOf w.toNat 40 4 ∧ (Fields.ofWord w).zero.toNat = bitsOf w.toNat 33 7 ∧
      (Fields.ofWord w).s.toNat = bitsOf w.toNat 32 1 ∧ (Fields.ofWord w).imm.toNat = bitsOf w.toNat 0 32) ∧
    (∀ r ∈ opcodeTable, w &&& r.mask = r.matchWord ↔ ∃ i, decode w = .ok i ∧ i.mnemonic = r.mnemonic) ∧
    (∀ r ∈ opcodeTable, ∀ q ∈ opcodeTable, w &&& r.mask = r.matchWord → w &&& q.mask = q.matchWord →
      r.mnemonic = q.mnemonic) ∧
    ((∀ r ∈ opcodeTable, w &&& r.mask ≠ r.matchWord) → ∃ e, decode w = .error e) ∧
    ∀ s : State, (∀ e, decode w = .error e → ∃ t, runCommand w s = .next t ∧ Failed .illegalCmd s t) ∧
      ∀ i, decode w = .ok i → runCommand w s = exec i s

/-- R84: which words are illegal, and that an illegal word retires with ILLEGAL_CMD and changes nothing else. -/
def Obligations.IllegalWordRetiresAlone : Prop :=
  (∀ w : CmdWord, (∃ e, decode w = .error e) ↔
    ¬ ∃ r ∈ opcodeTable, r.op = (Fields.ofWord w).op ∧ (Fields.ofWord w).zero = 0 ∧
      r.format.unusedAreZero (Fields.ofWord w) = true) ∧
  ∀ (s : State) (w : CmdWord) (e : IllegalWord), s.running = some w → s.dueAction = none → decode w = .error e →
    ∃ t, step s = .next t ∧ FailedCleanly .illegalCmd s.tickHost t

/-- Words of every family written out by 30_encoding.md R80 (95_test_vectors.md V30.1, V30.2), and what they decode to. -/
def Obligations.SampleWordsDecode : Prop :=
  decode 0x0310000000100005 = .ok (.deser 1 16 5) ∧
  decode 0x100A300000000000 = .ok (.cmp 10 3) ∧
  decode 0x12FF000000000001 = .ok (.adds 15 15 1) ∧
  decode 0x2040100000000000 = .ok (.mul 4 0 1) ∧
  decode 0x3020130000000000 = .ok (.div 2 0 1 3) ∧
  decode 0x4093240000000000 = .ok (.modpow 9 3 2 4) ∧
  decode 0x5400000102000014 = .ok (.rndprime 0 512 20 true) ∧
  decode 0x1120100000000001 = .error .unusedFieldSet ∧
  decode 0x1120100200000000 = .error .reservedBitSet ∧
  decode 0x0800000000000000 = .error .unknownOpcode

/-- The assembler's lines and the instructions stand for each other (R86). -/
def Obligations.AssemblerLineStandsForInstr : Prop :=
  ∀ (l : AsmLine) (i : Instr), l.toInstr = some i ↔ Machine.Instr.toLine i = l

/-! ## The step and the host -/

/-- A step runs the decoded instruction, with the host's next action one step nearer. -/
def Obligations.StepRunsDecodedInstr : Prop :=
  ∀ (s : State) (w : CmdWord) (i : Instr), s.running = some w → s.dueAction = none → decode w = .ok i →
    step s = exec i s.tickHost ∧ { s.tickHost with host := s.host } = s ∧ (s.host = [] → s.tickHost = s)

/-- What `withFetchWord` places is what the next step runs. -/
def Obligations.FetchedWordRunsNext : Prop :=
  ∀ (s : State) (nbits w : Nat) (i : Instr), decodeTableWord nbits w = some i →
    step (s.withFetchWord nbits w) = exec i (s.withFetchWord nbits w)

/-- 60_exceptions.md R220: nothing stops the block; every step and every command answers a next state. -/
def Obligations.NothingStopsTheBlock : Prop :=
  (∀ s : State, ∃ t, step s = .next t) ∧ ∀ (i : Instr) (s : State), ∃ t, exec i s = .next t

/-- 10_state.md R27: a write of CMD while BUSY is 0 issues the command, whose word is then decoded and run; a write while
BUSY is 1 is dropped with no effect. -/
def Obligations.IssueTakenIdleDroppedBusy : Prop :=
  ∀ (s : State) (w : CmdWord) (time : HostTime) (es : List HostEvent), s.host = ⟨time, .issue w⟩ :: es →
    (s.busy = false → ∃ t, step s = .next t ∧ t = { s with running := some w, host := es } ∧ t.busy = true ∧
      (t.dueAction = none → step t = runCommand w t.tickHost)) ∧
    (s.busy = true → time = .afterSteps 0 → step s = .next { s with host := es })

/-- R43: the effect of each action of the host, taken while the block is idle or at once. -/
def Obligations.HostActionsTakeEffect : Prop :=
  ∀ (s : State) (e : HostEvent) (es : List HostEvent), s.host = e :: es →
    (s.busy = false ∨ e.time = .afterSteps 0) →
    (e.act = .reset → ∃ t, step s = .next t ∧ AfterReset t ∧ t.par = s.par ∧ t.host = es ∧ t.replies = s.replies) ∧
    (∀ w, e.act = .issue w →
      step s = .next { s with host := es, running := if s.busy then s.running else some w }) ∧
    (e.act = .readStatus → step s = .next { s with host := es, replies := .status s.statusWord :: s.replies }) ∧
    (e.act = .readResult → s.busy = false →
      step s = .next { s with host := es, replies := .result s.result :: s.replies }) ∧
    (e.act = .readResult → s.busy = true → ∃ v k,
      step s = .next { s with host := es, replies := .result v :: s.replies, fresh := k }) ∧
    (e.act = .readParam → step s = .next { s with host := es, replies := .param s.paramWord :: s.replies }) ∧
    (∀ a b, e.act = .memWrite a b → s.busy = false → a < s.par.memSize →
      ∃ t, step s = .next t ∧ t.readByte a = b ∧ SameMemOutside a 1 s t ∧ t = { s with host := es, mem := t.mem }) ∧
    (∀ a b, e.act = .memWrite a b → s.busy = true ∨ s.par.memSize ≤ a → step s = .next { s with host := es }) ∧
    (∀ a, e.act = .memRead a → s.busy = false → a < s.par.memSize →
      step s = .next { s with host := es, replies := .memByte (s.readByte a) :: s.replies }) ∧
    (∀ a, e.act = .memRead a → s.busy = true ∨ s.par.memSize ≤ a → ∃ b k,
      step s = .next { s with host := es, replies := .memByte b :: s.replies, fresh := k })

/-- 60_exceptions.md R225, 70_reset_and_hazards.md R255: nothing but Reset disturbs a running command. -/
def Obligations.OnlyResetDisturbsACommand : Prop :=
  ∀ (s : State) (e : HostEvent) (es : List HostEvent), s.host = e :: es → s.busy = true → e.time = .afterSteps 0 →
    e.act ≠ .reset → ∃ t, step s = .next t ∧ t.running = s.running ∧ t.regs = s.regs ∧ t.status = s.status ∧
      t.result = s.result ∧ SameMem s t ∧ t.sieve = s.sieve ∧ t.rand = s.rand ∧ t.par = s.par

/-- R250, R251: a Reset may be taken at any time and leaves every piece of state at its reset value and the block idle;
the state right after power-up is the same. Log entry 11 says what is outside the block. -/
def Obligations.ResetAtAnyTime : Prop :=
  (∀ p : Params, AfterReset (State.resetFor p) ∧ (State.resetFor p).busy = false ∧
    (p.Legal → (State.resetFor p).RegsCanonical)) ∧
  ∀ (s : State) (time : HostTime) (es : List HostEvent), s.host = ⟨time, .reset⟩ :: es →
    (s.busy = false ∨ time = .afterSteps 0) →
    ∃ t, step s = .next t ∧ AfterReset t ∧ t.busy = false ∧ t.status = Status.clear ∧ t.paramWord = s.paramWord ∧
      (s.par.Legal → t.RegsCanonical)

/-- 10_state.md R28: where the fields of STATUS stand, and that bits 31:8 read as 0. -/
def Obligations.StatusFieldsAtTheirBits : Prop :=
  ∀ s : State, s.statusWord.getLsbD 0 = s.busy ∧ s.statusWord.getLsbD 1 = s.status.err ∧
    s.statusWord.getLsbD 2 = s.status.sticky ∧ s.statusWord.getLsbD 3 = s.status.sieveValid ∧
    s.statusWord.toNat / 2 ^ 4 = s.status.ecode.code.toNat

/-- R30: PARAM is constant, with D, NREG and CAP in their fields. -/
def Obligations.ParamIsConstant : Prop :=
  (∀ s : State, s.par.Legal → s.paramWord.toNat % 2 ^ 8 = s.digitBits ∧ s.paramWord.toNat / 2 ^ 8 % 2 ^ 8 = 16 ∧
    s.paramWord.toNat / 2 ^ 16 = s.par.cap ∧ (s.digitBits = 29 ∨ s.digitBits = 61)) ∧
  ∀ s t : State, step s = .next t → t.paramWord = s.paramWord

/-! ## The end of a command, whatever the command -/

/-- 60_exceptions.md R222 to R224: what every retire writes into RESULT, ERR, ECODE and STICKY. -/
def Obligations.EveryRetireReports : Prop :=
  ∀ (i : Instr) (s t : State), exec i s = .next t → t.running = none →
    (t.status.err = true → t.result = 0xFFFFFFFF ∧ t.status.ecode ≠ .ok ∧ t.status.sticky = true) ∧
    (t.status.err = false → t.status.ecode = .ok) ∧
    (i = .clrerr → t.status.sticky = false) ∧
    (i ≠ .clrerr → t.status.sticky = (s.status.sticky || t.status.err))

/-- R236: the error matrix, both ways; and a word of every opcode with an unused field that is not 0. -/
def Obligations.ErrorMatrix : Prop :=
  (∀ (i : Instr) (s t : State), exec i s = .next t → t.running = none → t.status.err = true →
    t.status.ecode ∈ reportable i) ∧
  (∀ (i : Instr), ∀ c ∈ reportable i, ∃ (j : Instr) (s t : State), j.mnemonic = i.mnemonic ∧ j.wf = true ∧ s.Inv ∧
    exec j s = .next t ∧ t.running = none ∧ t.status.err = true ∧ t.status.ecode = c) ∧
  ∀ r ∈ opcodeTable, ∃ w : CmdWord, (Fields.ofWord w).op = r.op ∧ decode w = .error .unusedFieldSet

/-- R237: what a failed command leaves behind; the illegal word first. -/
def Obligations.StateAfterAnError : Prop :=
  (∀ (w : CmdWord) (e : IllegalWord) (s : State), decode w = .error e → ∃ t, runCommand w s = .next t ∧
    t.status.ecode = .illegalCmd ∧ Keeps [] s t ∧ (s.RegsCanonical → t.RegsCanonical)) ∧
  ∀ (i : Instr) (s t : State), s.par.Legal → s.RegsCanonical → exec i s = .next t → t.running = none →
    t.status.err = true →
    (t.status.ecode ∈ [ECode.illegalAlias, .invalidArg, .badAddress, .divByZero, .subUnderflow, .bufTooSmall] ∨
      (∃ n, i = .sieve n) → Keeps [] s t) ∧
    (t.status.ecode ∈ [ECode.capacity, .notInvertible] → Keeps (destinations i) s t) ∧
    t.RegsCanonical

/-- The frame of every instruction on the registers: only its destinations differ (70_reset_and_hazards.md R254). -/
def Obligations.OnlyDestinationsChange : Prop :=
  ∀ (i : Instr) (s t : State), exec i s = .next t → SameRegsBut (destinations i) s t

/-- The frame of every instruction on MEM: only SER stores, and only the bytes 20_memory.md R64 gives. -/
def Obligations.OnlySerStores : Prop :=
  ∀ (i : Instr) (s t : State), exec i s = .next t →
    SameMemOutside (storedBytes i s).1 (storedBytes i s).2 s t ∧ (t.status.err = true → t.running = none → SameMem s t)

/-- The frame of every instruction on the rest: only SIEVE touches the table and SIEVE_VALID (10_state.md R36, R28); the
parameters and the host's side are never touched. -/
def Obligations.OnlySieveWritesTheTable : Prop :=
  ∀ (i : Instr) (s t : State), exec i s = .next t → SameOutside s t ∧
    ((∀ n, i ≠ .sieve n) → t.sieve = s.sieve ∧ t.status.sieveValid = s.status.sieveValid)

/-- From 70_reset_and_hazards.md R258: every command but RNDPRIME retires; RNDPRIME may run on for any number of steps. That a
step is one round of RNDPRIME is the model's choice, log entry 6. -/
def Obligations.OnlyRndprimeMayNotRetire : Prop :=
  (∀ (i : Instr) (s : State), i.mnemonic ≠ "RNDPRIME" → ∃ t, exec i s = .next t ∧ t.running = none) ∧
  ∀ k : Nat, ∃ s : State, s.Inv ∧ s.host = [] ∧ ∃ t, core.run k s = .next t ∧ t.busy = true

/-! ## The invariant -/

/-- The state after reset meets the invariant, whatever the parameters. -/
def Obligations.ResetMeetsInv : Prop := (∀ p : Params, p.Legal → (State.resetFor p).Inv) ∧ State.reset.Inv

/-- Every step keeps the invariant: canonical registers, MEM in its form and range, the table, and the error report. -/
def Obligations.StepKeepsInv : Prop := ∀ s t : State, s.Inv → step s = .next t → t.Inv

/-- 10_state.md R23: the observable content of a register is one number below VMAX. -/
def Obligations.RegisterIsItsValue : Prop :=
  (∀ (p : Params) (b c : Bigint), b.Canonical p → c.Canonical p →
    b.val p.digitBits = ∑ k ∈ Finset.range b.length, b.digits.getD k 0 * 2 ^ (p.digitBits * k) ∧
    (b.val p.digitBits = c.val p.digitBits ↔ b = c) ∧ b.val p.digitBits < p.vmax ∧
      b = canon p.digitBits (b.val p.digitBits)) ∧
  ∀ (p : Params) (v : Nat), p.Legal → v < p.vmax → (canon p.digitBits v).Canonical p ∧
    (canon p.digitBits v).val p.digitBits = v ∧ (v = 0 → canon p.digitBits v = ⟨[0]⟩)

/-! ## Storage and transfer -/

/-- 40_storage_transfer.md R101. -/
def Obligations.ZeroGivesCanonicalZero : Prop :=
  EncodedAs 0x01 .D (fun f => .zero (regOf f.rd)) ∧
  ∀ (s : State) (rd : Reg), ∃ t, exec (.zero rd) s = .next t ∧ t.regs[rd] = ⟨[0]⟩ ∧ t.value rd = 0 ∧
    Succeeded 0 s t ∧ Keeps [rd] s t ∧ NoDraw s t

/-- R102. -/
def Obligations.CopyCopiesTheDigits : Prop :=
  EncodedAs 0x02 .DA (fun f => .copy (regOf f.rd) (regOf f.ra)) ∧
  ∀ (s : State) (rd ra : Reg), s.regs[ra].Canonical s.par → ∃ t, exec (.copy rd ra) s = .next t ∧
    t.regs[rd] = s.regs[ra] ∧ Succeeded 0 s t ∧ Keeps [rd] s t ∧ NoDraw s t ∧ (rd = ra → Keeps [] s t)

/-- R103: the value is `Σ MEM[addr + j]·2^(8j)`. -/
def Obligations.DeserLoadsTheBytes : Prop :=
  EncodedAs 0x03 .DM (fun f => .deser (regOf f.rd) f.immHigh f.immLow) ∧
  ∀ (s : State) (rd : Reg) (addr len : Nat), s.par.Legal →
    let v := ∑ j ∈ Finset.range len, (s.readByte (addr + j)).toNat * 2 ^ (8 * j)
    (s.par.memSize < addr + len → ∃ t, exec (.deser rd addr len) s = .next t ∧ FailedCleanly .badAddress s t) ∧
    (addr + len ≤ s.par.memSize → s.vmax ≤ v →
      ∃ t, exec (.deser rd addr len) s = .next t ∧ FailedInto rd .capacity s t) ∧
    (addr + len ≤ s.par.memSize → v < s.vmax → ∃ t, exec (.deser rd addr len) s = .next t ∧
      t.regs[rd].digits = trimDigits (convert ((s.memRead addr len).map BitVec.toNat) 8 (8 * len) s.digitBits) ∧
      t.Holds rd v ∧ Succeeded 0 s t ∧ Keeps [rd] s t ∧ NoDraw s t)

/-- R104: byte `j` written is `v[8j + 7 : 8j]`; every byte outside the `ceil(T/8)` written reads as before. -/
def Obligations.SerStoresTheBytes : Prop :=
  EncodedAs 0x04 .AM (fun f => .ser (regOf f.ra) f.immHigh f.immLow) ∧
  ∀ (s : State) (ra : Reg) (addr len : Nat), s.par.Legal →
    let v := s.value ra
    let need := ceilDiv (bitlen v) 8
    (s.par.memSize < addr + len → ∃ t, exec (.ser ra addr len) s = .next t ∧ FailedCleanly .badAddress s t) ∧
    (addr + len ≤ s.par.memSize → len < need →
      ∃ t, exec (.ser ra addr len) s = .next t ∧ FailedCleanly .bufTooSmall s t) ∧
    (addr + len ≤ s.par.memSize → need ≤ len → ∃ t, exec (.ser ra addr len) s = .next t ∧
      (∀ j < need, (t.readByte (addr + j)).toNat = v / 2 ^ (8 * j) % 2 ^ 8) ∧ SameMemOutside addr need s t ∧
      t.result.toNat = need ∧ Succeeded t.result s t ∧ SameRegsBut [] s t ∧ t.sieve = s.sieve ∧ SameOutside s t ∧
      NoDraw s t) ∧
    (s.regs[ra].Canonical s.par → convert s.regs[ra].digits s.digitBits (bitlen v) 8 = (wireBytes v).map BitVec.toNat)

/-- R105: RESULT is the `k` with `2^(k−1) ≤ v < 2^k`, 0 for 0; in digits `D·(length − 1) + bitlen(top digit)`. -/
def Obligations.SigbitsCountsTheBits : Prop :=
  EncodedAs 0x05 .A (fun f => .sigbits (regOf f.ra)) ∧
  ∀ (s : State) (ra : Reg), s.par.Legal → s.regs[ra].Canonical s.par →
    ∃ t, exec (.sigbits ra) s = .next t ∧
      (s.value ra = 0 → t.result = 0) ∧
      (s.value ra ≠ 0 → 2 ^ (t.result.toNat - 1) ≤ s.value ra ∧ s.value ra < 2 ^ t.result.toNat ∧
        ∀ top, s.regs[ra].digits.getLast? = some top →
          t.result.toNat = s.digitBits * (s.regs[ra].length - 1) + bitlen top) ∧
      t.result.toNat ≤ s.digitBits * s.par.cap ∧ Succeeded t.result s t ∧ Keeps [] s t ∧ NoDraw s t

/-- R106: RESULT is the least number of bytes that hold the value. -/
def Obligations.SersizeCountsTheBytes : Prop :=
  EncodedAs 0x06 .A (fun f => .sersize (regOf f.ra)) ∧
  ∀ (s : State) (ra : Reg), s.par.Legal → s.regs[ra].Canonical s.par →
    ∃ t, exec (.sersize ra) s = .next t ∧ t.result.toNat = ceilDiv (bitlen (s.value ra)) 8 ∧
      s.value ra < 2 ^ (8 * t.result.toNat) ∧
      (s.value ra ≠ 0 → 2 ^ (8 * (t.result.toNat - 1)) ≤ s.value ra) ∧ (s.value ra = 0 → t.result = 0) ∧
      Succeeded t.result s t ∧ Keeps [] s t ∧ NoDraw s t

/-- R107. -/
def Obligations.ClrerrClearsSticky : Prop :=
  EncodedAs 0x07 .N (fun _ => .clrerr) ∧
  ∀ s : State, ∃ t, exec .clrerr s = .next t ∧ t.status = { s.status with err := false, sticky := false, ecode := .ok } ∧
    t.result = 0 ∧ t.running = none ∧ Keeps [] s t ∧ NoDraw s t

/-- R108: the round trips between a register and MEM. -/
def Obligations.SerializationRoundTrips : Prop :=
  (∀ (s : State) (rd ra : Reg) (addr len : Nat), s.par.Legal → s.regs[ra].Canonical s.par →
    ceilDiv (bitlen (s.value ra)) 8 ≤ len → addr + len ≤ s.par.memSize →
    ∃ t u, exec (.ser ra addr len) s = .next t ∧ exec (.deser rd addr t.result.toNat) t = .next u ∧
      u.regs[rd] = s.regs[ra] ∧ u.value rd = s.value ra ∧
      ∃ x y, exec (.sigbits ra) s = .next x ∧ exec (.sigbits rd) u = .next y ∧ x.result = y.result) ∧
  ∀ (s : State) (rd : Reg) (addr len : Nat), s.par.Legal → addr + len ≤ s.par.memSize →
    wireValue (s.memRead addr len) < s.vmax →
    ∃ t u, exec (.deser rd addr len) s = .next t ∧ exec (.ser rd addr len) t = .next u ∧ SameMem s u ∧
      (len = 0 ∨ s.readByte (addr + len - 1) ≠ 0 → u.result.toNat = len) ∧
      (len ≠ 0 → s.readByte (addr + len - 1) = 0 → u.result.toNat < len)

/-- R100: what the bit-granular conversion computes. -/
def Obligations.ConvertGivesTheDigits : Prop :=
  ∀ (src : List Nat) (S T R : Nat), 0 < S → 0 < R → (∀ d ∈ src, d < 2 ^ S) →
    convert src S T R = (List.range (ceilDiv T R)).map fun j => bitsOf (digitsVal S src % 2 ^ T) (R * j) R

/-! ## Compare, add, subtract -/

/-- 41_compare_add_sub.md R120, at the level of values and of digits. -/
def Obligations.CmpComparesValues : Prop :=
  EncodedAs 0x10 .AB (fun f => .cmp (regOf f.ra) (regOf f.rb)) ∧
  ∀ (s : State) (ra rb : Reg), s.RegsCanonical →
    (∃ t, exec (.cmp ra rb) s = .next t ∧
      (t.result.toInt = if s.value ra < s.value rb then -1 else if s.value ra = s.value rb then 0 else 1) ∧
      Succeeded t.result s t ∧ Keeps [] s t ∧ NoDraw s t) ∧
    cmpDigits s.regs[ra].digits s.regs[rb].digits = compare (s.value ra) (s.value rb)

/-- R121. -/
def Obligations.AddGivesTheSum : Prop :=
  EncodedAs 0x11 .DAB (fun f => .add (regOf f.rd) (regOf f.ra) (regOf f.rb)) ∧
  ∀ (s : State) (rd ra rb : Reg), s.par.Legal →
    (s.value ra + s.value rb < s.vmax → ∃ t, exec (.add rd ra rb) s = .next t ∧
      t.Holds rd (s.value ra + s.value rb) ∧ Succeeded 0 s t ∧ Keeps [rd] s t ∧ NoDraw s t) ∧
    (s.vmax ≤ s.value ra + s.value rb → (∃ t, exec (.add rd ra rb) s = .next t ∧ FailedInto rd .capacity s t) ∧
      (s.regs[ra].Canonical s.par → s.regs[rb].Canonical s.par →
        max s.regs[ra].length s.regs[rb].length = s.par.cap))

/-- R123. -/
def Obligations.AddsAddsTheScalar : Prop :=
  EncodedAs 0x12 .DAI (fun f => .adds (regOf f.rd) (regOf f.ra) f.immNat) ∧
  ∀ (s : State) (rd ra : Reg) (u : Nat), s.par.Legal →
    (s.value ra + u < s.vmax → ∃ t, exec (.adds rd ra u) s = .next t ∧
      t.Holds rd (s.value ra + u) ∧ Succeeded 0 s t ∧ Keeps [rd] s t ∧ NoDraw s t) ∧
    (s.vmax ≤ s.value ra + u → ∃ t, exec (.adds rd ra u) s = .next t ∧ FailedInto rd .capacity s t) ∧
    (u < 2 ^ 32 → s.regs[ra].Canonical s.par →
      canonDigits s.digitBits u = (if s.digitBits = 29 ∧ 2 ^ 29 ≤ u then [u % 2 ^ 29, u / 2 ^ 29] else [u]) ∧
      addDigits s.digitBits s.par.cap s.regs[ra].digits (canonDigits s.digitBits u) =
        if s.value ra + u < s.vmax then some (canonDigits s.digitBits (s.value ra + u)) else none)

/-- R124. -/
def Obligations.SubGivesTheDifference : Prop :=
  EncodedAs 0x13 .DAB (fun f => .sub (regOf f.rd) (regOf f.ra) (regOf f.rb)) ∧
  ∀ (s : State) (rd ra rb : Reg), s.par.Legal → s.regs[ra].Canonical s.par →
    (s.value ra < s.value rb → ∃ t, exec (.sub rd ra rb) s = .next t ∧ FailedCleanly .subUnderflow s t) ∧
    (s.value rb ≤ s.value ra → ∃ t, exec (.sub rd ra rb) s = .next t ∧ t.value rd + s.value rb = s.value ra ∧
      t.regs[rd].Canonical s.par ∧ Succeeded 0 s t ∧ Keeps [rd] s t ∧ NoDraw s t)

/-- R122: the digit-level addition gives the same register content, and CAPACITY exactly when the sum does not fit. -/
def Obligations.AddDigitsAgree : Prop :=
  ∀ (p : Params) (a b : Bigint), p.Legal → a.Canonical p → b.Canonical p →
    addDigits p.digitBits p.cap a.digits b.digits =
      if a.val p.digitBits + b.val p.digitBits < p.vmax then
        some (canonDigits p.digitBits (a.val p.digitBits + b.val p.digitBits)) else none

/-- R125: the digit-level subtraction gives the same register content. -/
def Obligations.SubDigitsAgree : Prop :=
  ∀ (p : Params) (a b : Bigint), a.Canonical p → b.Canonical p → b.val p.digitBits ≤ a.val p.digitBits →
    subDigits p.digitBits a.digits b.digits = canonDigits p.digitBits (a.val p.digitBits - b.val p.digitBits)

/-! ## Multiply -/

/-- 42_multiply.md R140. -/
def Obligations.MulGivesTheProduct : Prop :=
  EncodedAs 0x20 .DAB (fun f => .mul (regOf f.rd) (regOf f.ra) (regOf f.rb)) ∧
  ∀ (s : State) (rd ra rb : Reg), s.par.Legal → s.regs[ra].Canonical s.par → s.regs[rb].Canonical s.par →
    (s.value ra = 0 ∨ s.value rb = 0 → ∃ t, exec (.mul rd ra rb) s = .next t ∧ t.Holds rd 0 ∧ Succeeded 0 s t ∧
      Keeps [rd] s t ∧ NoDraw s t) ∧
    (s.value ra ≠ 0 → s.value rb ≠ 0 → s.par.cap < s.regs[ra].length + s.regs[rb].length →
      ∃ t, exec (.mul rd ra rb) s = .next t ∧ FailedInto rd .capacity s t) ∧
    (s.value ra ≠ 0 → s.value rb ≠ 0 → s.regs[ra].length + s.regs[rb].length ≤ s.par.cap →
      ∃ t, exec (.mul rd ra rb) s = .next t ∧ t.Holds rd (s.value ra * s.value rb) ∧ Succeeded 0 s t ∧
        Keeps [rd] s t ∧ NoDraw s t)

/-- R141: the digit-level multiplication gives the same register content. -/
def Obligations.MulDigitsAgree : Prop :=
  ∀ (p : Params) (a b : Bigint), a.Canonical p → b.Canonical p →
    mulDigits p.digitBits p.cap a.digits b.digits =
      if a.val p.digitBits = 0 ∨ b.val p.digitBits = 0 then some [0]
      else if p.cap < a.length + b.length then none
      else some (canonDigits p.digitBits (a.val p.digitBits * b.val p.digitBits))

/-- R142, D7: every column fits the accumulator of `2·D + ceil(log2(CAP)) + 1` bits. -/
def Obligations.MulColumnsFit : Prop :=
  ∀ (p : Params) (a b : Bigint), a.Canonical p → b.Canonical p → ∀ x ∈ mulColumns a.digits b.digits,
    x ≤ min a.length b.length * (2 ^ p.digitBits - 1) ^ 2 ∧ x < 2 ^ (2 * p.digitBits + Nat.clog 2 p.cap + 1)

/-! ## Divide -/

/-- 43_divide.md R150. -/
def Obligations.DivGivesQuotientAndRemainder : Prop :=
  EncodedAs 0x30 .DABC (fun f => .div (regOf f.rd) (regOf f.ra) (regOf f.rb) (regOf f.rc)) ∧
  ∀ (s : State) (rd ra rb rc : Reg), s.par.Legal → s.regs[ra].Canonical s.par → s.regs[rb].Canonical s.par →
    let clash := rd = ra ∨ rd = rb ∨ rd = rc ∨ rc = ra ∨ rc = rb
    (clash → ∃ t, exec (.div rd ra rb rc) s = .next t ∧ FailedCleanly .illegalAlias s t) ∧
    (¬ clash → s.value rb = 0 → ∃ t, exec (.div rd ra rb rc) s = .next t ∧ FailedCleanly .divByZero s t) ∧
    (¬ clash → s.value rb ≠ 0 → ∃ t, exec (.div rd ra rb rc) s = .next t ∧
      s.value ra = t.value rd * s.value rb + t.value rc ∧ t.value rc < s.value rb ∧
      t.regs[rd].Canonical s.par ∧ t.regs[rc].Canonical s.par ∧ Succeeded 0 s t ∧ Keeps [rd, rc] s t ∧ NoDraw s t)

/-- R159. -/
def Obligations.ModGivesTheRemainder : Prop :=
  EncodedAs 0x31 .DAB (fun f => .mod (regOf f.rd) (regOf f.ra) (regOf f.rb)) ∧
  ∀ (s : State) (rd ra rb : Reg), s.par.Legal → s.regs[rb].Canonical s.par →
    (rd = ra ∨ rd = rb → ∃ t, exec (.mod rd ra rb) s = .next t ∧ FailedCleanly .illegalAlias s t) ∧
    (rd ≠ ra → rd ≠ rb → s.value rb = 0 → ∃ t, exec (.mod rd ra rb) s = .next t ∧ FailedCleanly .divByZero s t) ∧
    (rd ≠ ra → rd ≠ rb → s.value rb ≠ 0 → ∃ t, exec (.mod rd ra rb) s = .next t ∧
      t.Holds rd (s.value ra % s.value rb) ∧ Succeeded 0 s t ∧ Keeps [rd] s t ∧ NoDraw s t)

/-- R157 e: the digit-level long division (R151 to R156) gives the digits of quotient and remainder. -/
def Obligations.DivDigitsAgree : Prop :=
  ∀ (w : DigitWidth) (a b : Nat), b ≠ 0 →
    divDigits w.bits (canonDigits w.bits a) (canonDigits w.bits b) =
      (canonDigits w.bits (a / b), canonDigits w.bits (a % b))

/-- R157 b and d: the estimate is never too low, at most one too high, exact for a short remainder, and at most `2^D`. -/
def Obligations.EstimateIsClose : Prop :=
  ∀ (w : DigitWidth) (r b : Nat), b ≠ 0 → b < r → r < b * 2 ^ w.bits →
    let q := estimate w.bits (canonDigits w.bits r) (canonDigits w.bits b)
    r / b ≤ q ∧ q ≤ r / b + 1 ∧ (digitLen w.bits r ≤ 4 → q = r / b) ∧ q ≤ 2 ^ w.bits ∧
      estimateAndCorrect w.bits (canonDigits w.bits r) (canonDigits w.bits b) = r / b

/-! ## Modular arithmetic -/

/-- 44_modular.md R170: MODPOW, by the algorithm of R171, gives the naive power modulo `m`. -/
def Obligations.ModpowGivesThePower : Prop :=
  EncodedAs 0x40 .DABC (fun f => .modpow (regOf f.rd) (regOf f.ra) (regOf f.rb) (regOf f.rc)) ∧
  ∀ (s : State) (rd ra rb rc : Reg), s.par.Legal → s.regs[rc].Canonical s.par →
    let clash := rd = ra ∨ rd = rb ∨ rd = rc
    (clash → ∃ t, exec (.modpow rd ra rb rc) s = .next t ∧ FailedCleanly .illegalAlias s t) ∧
    (¬ clash → s.value rc = 0 → ∃ t, exec (.modpow rd ra rb rc) s = .next t ∧ FailedCleanly .divByZero s t) ∧
    (¬ clash → s.value rc ≠ 0 → ∃ t, exec (.modpow rd ra rb rc) s = .next t ∧
      t.Holds rd (s.value ra ^ s.value rb % s.value rc) ∧ Succeeded 0 s t ∧ Keeps [rd] s t ∧ NoDraw s t)

/-- R171: the shift and the parity of the working exponent on its digits. -/
def Obligations.ShiftRightHalves : Prop :=
  ∀ (w : DigitWidth) (e : Nat), shiftRightOne w.bits (canonDigits w.bits e) = canonDigits w.bits (e / 2) ∧
    isOddDigits (canonDigits w.bits e) = decide (e % 2 = 1)

/-- R173: MODINV, by the algorithm of R174, gives the one inverse below `m`, and NOT_INVERTIBLE when there is none. -/
def Obligations.ModinvGivesTheInverse : Prop :=
  EncodedAs 0x41 .DAB (fun f => .modinv (regOf f.rd) (regOf f.ra) (regOf f.rb)) ∧
  ∀ (s : State) (rd ra rb : Reg), s.par.Legal → s.regs[rb].Canonical s.par →
    let a := s.value ra
    let m := s.value rb
    (rd = ra ∨ rd = rb → ∃ t, exec (.modinv rd ra rb) s = .next t ∧ FailedCleanly .illegalAlias s t) ∧
    (rd ≠ ra → rd ≠ rb → m = 0 → ∃ t, exec (.modinv rd ra rb) s = .next t ∧ FailedCleanly .divByZero s t) ∧
    (rd ≠ ra → rd ≠ rb → 2 ≤ m → Nat.gcd a m ≠ 1 →
      ∃ t, exec (.modinv rd ra rb) s = .next t ∧ FailedInto rd .notInvertible s t) ∧
    (rd ≠ ra → rd ≠ rb → m = 1 → ∃ t, exec (.modinv rd ra rb) s = .next t ∧ t.Holds rd 0 ∧ Succeeded 0 s t ∧
      Keeps [rd] s t ∧ NoDraw s t) ∧
    (rd ≠ ra → rd ≠ rb → 2 ≤ m → Nat.gcd a m = 1 →
      ∃ t, exec (.modinv rd ra rb) s = .next t ∧ t.value rd < m ∧ a * t.value rd % m = 1 ∧
        (∀ v < m, a * v % m = 1 → v = t.value rd) ∧ t.regs[rd].Canonical s.par ∧ Succeeded 0 s t ∧
        Keeps [rd] s t ∧ NoDraw s t)

/-! ## Number theory -/

/-- 45_number_theory.md R191: a value of exactly `n` bits, and every such value is a legal outcome (R190). -/
def Obligations.RndbitsDrawsExactlyNBits : Prop :=
  EncodedAs 0x50 .DI (fun f => .rndbits (regOf f.rd) f.immNat) ∧
  ∀ (s : State) (rd : Reg) (n : Nat), s.par.Legal →
    (n < s.digitBits → ∃ t, exec (.rndbits rd n) s = .next t ∧ FailedCleanly .invalidArg s t) ∧
    (s.digitBits * s.par.cap < n → ∃ t, exec (.rndbits rd n) s = .next t ∧ FailedInto rd .capacity s t) ∧
    (s.digitBits ≤ n → n ≤ s.digitBits * s.par.cap →
      (∃ t, exec (.rndbits rd n) s = .next t ∧ (2 ^ (n - 1) ≤ t.value rd ∧ t.value rd ≤ 2 ^ n - 1) ∧
        t.regs[rd].Canonical s.par ∧ t.regs[rd].length = ceilDiv n s.digitBits ∧ Succeeded 0 s t ∧ Keeps [rd] s t) ∧
      ∀ (v : Nat) (rest : List Nat), 2 ^ (n - 1) ≤ v → v ≤ 2 ^ n - 1 →
        ∃ t, exec (.rndbits rd n) { s with rand := v :: rest } = .next t ∧ t.Holds rd v ∧ t.rand = rest ∧
          Succeeded 0 s t ∧ Keeps [rd] s t)

/-- R192: a value below the limit, and every such value is a legal outcome. -/
def Obligations.RndlimDrawsBelowTheLimit : Prop :=
  EncodedAs 0x51 .DA (fun f => .rndlim (regOf f.rd) (regOf f.ra)) ∧
  ∀ (s : State) (rd ra : Reg), s.par.Legal → s.regs[ra].Canonical s.par →
    (rd = ra → ∃ t, exec (.rndlim rd ra) s = .next t ∧ FailedCleanly .illegalAlias s t) ∧
    (rd ≠ ra → s.value ra = 0 → ∃ t, exec (.rndlim rd ra) s = .next t ∧ FailedCleanly .invalidArg s t) ∧
    (rd ≠ ra → s.value ra ≠ 0 →
      (∃ t, exec (.rndlim rd ra) s = .next t ∧ t.value rd < s.value ra ∧ t.regs[rd].Canonical s.par ∧
        Succeeded 0 s t ∧ Keeps [rd] s t) ∧
      ∀ (v : Nat) (rest : List Nat), v < s.value ra →
        ∃ t, exec (.rndlim rd ra) { s with rand := v :: rest } = .next t ∧ t.Holds rd v ∧ t.rand = rest ∧
          Succeeded 0 s t ∧ Keeps [rd] s t)

/-- R194: the table is the ascending list of the odd primes below `N`. -/
def Obligations.SieveBuildsTheTable : Prop :=
  EncodedAs 0x52 .I (fun f => .sieve f.immNat) ∧
  ∀ (s : State) (n : Nat), s.par.Legal →
    (n < 3 → ∃ t, exec (.sieve n) s = .next t ∧ FailedCleanly .invalidArg s t) ∧
    (s.par.sieveNmax < n → ∃ t, exec (.sieve n) s = .next t ∧ FailedCleanly .capacity s t) ∧
    (3 ≤ n → n ≤ s.par.sieveNmax → ∃ t, exec (.sieve n) s = .next t ∧
      t.sieve.Pairwise (· < ·) ∧ (∀ q, q ∈ t.sieve ↔ 3 ≤ q ∧ q < n ∧ q % 2 = 1 ∧ q.Prime) ∧
      t.status = { s.status with err := false, ecode := .ok, sieveValid := true } ∧
      t.result.toNat = t.sieve.length ∧ t.running = none ∧ SameRegsBut [] s t ∧ SameMem s t ∧ SameOutside s t ∧
      NoDraw s t)

/-- R194: the classical sieve of Eratosthenes gives the same table. -/
def Obligations.EratosthenesGivesTheTable : Prop := ∀ n : Nat, eratosthenes n = oddPrimesBelow n

/-- R195: ISPRIME, for the draws the RAND port happens to supply and for every sequence of draws it can supply; a reject
takes no draw after the witness that shows it. -/
def Obligations.IsprimeRunsTheFermatTest : Prop :=
  EncodedAs 0x53 .AIS (fun f => .isprime (regOf f.ra) f.immNat f.sv) ∧
  ∀ (s : State) (ra : Reg) (t : Nat) (sv : Bool),
    let p := s.value ra
    let bad := t < 1 ∨ (sv = true ∧ s.status.sieveValid = false) ∨ p < 4
    (bad → ∃ u, exec (.isprime ra t sv) s = .next u ∧ FailedCleanly .invalidArg s u) ∧
    (¬ bad → SieveHit s.sieve sv p → ∃ u, exec (.isprime ra t sv) s = .next u ∧ Succeeded 0 s u ∧ Keeps [] s u ∧
      NoDraw s u) ∧
    (¬ bad → ¬ SieveHit s.sieve sv p →
      (∃ u, exec (.isprime ra t sv) s = .next u ∧ (Succeeded 0 s u ∨ Succeeded 1 s u) ∧ Keeps [] s u) ∧
      ∀ ws rest : List Nat, ws.length = t → (∀ w ∈ ws, 2 ≤ w ∧ w ≤ p - 2) →
        ∃ u, exec (.isprime ra t sv) { s with rand := ws ++ rest } = .next u ∧ Keeps [] s u ∧
          ((∀ w ∈ ws, w ^ (p - 1) % p = 1) → Succeeded 1 s u ∧ u.rand = rest) ∧
          (¬ (∀ w ∈ ws, w ^ (p - 1) % p = 1) → Succeeded 0 s u ∧
            u.rand = (ws.dropWhile fun w => w ^ (p - 1) % p == 1).tail ++ rest))

/-- R195, corner case: a prime from 5 up is accepted for every draw. -/
def Obligations.PrimesAreAlwaysAccepted : Prop :=
  ∀ (s : State) (ra : Reg) (t : Nat) (sv : Bool), (s.value ra).Prime → 5 ≤ s.value ra → 1 ≤ t →
    (sv = true → s.status.sieveValid = true) → (∀ q ∈ s.sieve, q.Prime) →
    ∃ u, exec (.isprime ra t sv) s = .next u ∧ Succeeded 1 s u

/-- R196: which verdicts are possible. -/
def Obligations.PossibleVerdicts : Prop :=
  ∀ (s : State) (ra : Reg) (t : Nat) (sv : Bool), 4 ≤ s.value ra → 1 ≤ t →
    (sv = true → s.status.sieveValid = true) →
    ((∃ rand u, exec (.isprime ra t sv) { s with rand := rand } = .next u ∧ u.result = 1) ↔
      ¬ SieveHit s.sieve sv (s.value ra) ∧ ∃ w, Passes (s.value ra) w) ∧
    ((∃ rand u, exec (.isprime ra t sv) { s with rand := rand } = .next u ∧ u.result = 0) ↔
      SieveHit s.sieve sv (s.value ra) ∨
        ∃ w, (2 ≤ w ∧ w ≤ s.value ra - 2) ∧ w ^ (s.value ra - 1) % s.value ra ≠ 1)

/-- From R197: one round of RNDPRIME, for the draws it happens to get and for every sequence of draws. That a step is one round
is the model's choice, log entry 6. -/
def Obligations.RndprimeRunsOneRound : Prop :=
  EncodedAs 0x54 .DIS (fun f => .rndprime (regOf f.rd) f.immHigh f.immLow f.sv) ∧
  ∀ (s : State) (rd : Reg) (n t : Nat) (sv : Bool), s.par.Legal →
    let bad := n < s.digitBits ∨ t < 1 ∨ (sv = true ∧ s.status.sieveValid = false)
    let word := encode (.rndprime rd n t sv)
    (bad → ∃ u, exec (.rndprime rd n t sv) s = .next u ∧ FailedCleanly .invalidArg s u) ∧
    (¬ bad → s.digitBits * s.par.cap < n →
      ∃ u, exec (.rndprime rd n t sv) s = .next u ∧ FailedInto rd .capacity s u) ∧
    (¬ bad → n ≤ s.digitBits * s.par.cap →
      (∃ u, exec (.rndprime rd n t sv) s = .next u ∧
        ((bitlen (u.value rd) = n ∧ u.value rd % 2 = 1 ∧ u.regs[rd].Canonical s.par ∧ Succeeded 0 s u ∧
            Keeps [rd] s u) ∨
          StillRunning word s u)) ∧
      ∀ (c : Nat) (ws rest : List Nat), 2 ^ (n - 1) ≤ c → c ≤ 2 ^ n - 1 → ws.length = t →
        (∀ w ∈ ws, 2 ≤ w ∧ w ≤ (c ||| 1) - 2) →
        ∃ u, exec (.rndprime rd n t sv) { s with rand := c :: (ws ++ rest) } = .next u ∧
          (¬ SieveHit s.sieve sv (c ||| 1) → (∀ w ∈ ws, w ^ ((c ||| 1) - 1) % (c ||| 1) = 1) →
            u.Holds rd (c ||| 1) ∧ Succeeded 0 s u ∧ Keeps [rd] s u ∧ u.rand = rest) ∧
          (SieveHit s.sieve sv (c ||| 1) → StillRunning word s u ∧ u.rand = ws ++ rest) ∧
          (¬ SieveHit s.sieve sv (c ||| 1) → ¬ (∀ w ∈ ws, w ^ ((c ||| 1) - 1) % (c ||| 1) = 1) →
            StillRunning word s u ∧
              u.rand = (ws.dropWhile fun w => w ^ ((c ||| 1) - 1) % (c ||| 1) == 1).tail ++ rest))

/-- From R197: the possible results are the odd numbers of `n` bits that R195 can accept, every prime of `n` bits among them. That
a step is one round is the model's choice, log entry 6. -/
def Obligations.RndprimePossibleResults : Prop :=
  ∀ (s : State) (rd : Reg) (n t : Nat) (sv : Bool) (c : Nat), s.par.Legal → s.digitBits ≤ n →
    n ≤ s.digitBits * s.par.cap → 1 ≤ t → (sv = true → s.status.sieveValid = true) → (∀ q ∈ s.sieve, q.Prime) →
    ((∃ rand u, exec (.rndprime rd n t sv) { s with rand := rand } = .next u ∧ u.running = none ∧ u.value rd = c) ↔
      c % 2 = 1 ∧ bitlen c = n ∧ ¬ SieveHit s.sieve sv c ∧ ∃ w, Passes c w) ∧
    (c.Prime → bitlen c = n →
      ∃ rand u, exec (.rndprime rd n t sv) { s with rand := rand } = .next u ∧ u.running = none ∧ u.value rd = c)
end

