-- ==== Sys2Proof/Laws/Bigint.lean ====
section
/-! SUPPORT. The laws of numbers and their digits: `canon` and `val` are inverse to each other on canonical digits
(10_state.md R23), and the sizes of values, lengths and bytes. -/

namespace Sys2Proof.Machine

/-! ## bitlen -/

@[simp] theorem bitlen_zero : bitlen 0 = 0 := rfl

theorem bitlen_le_iff (v k : Nat) : bitlen v ≤ k ↔ v < 2 ^ k := by
  unfold bitlen
  split
  · subst v; simp
  · rename_i h
    rw [Nat.succ_le_iff, Nat.log2_lt h]

theorem lt_two_pow_bitlen (v : Nat) : v < 2 ^ bitlen v := (bitlen_le_iff v _).mp le_rfl

theorem two_pow_bitlen_pred_le {v : Nat} (h : v ≠ 0) : 2 ^ (bitlen v - 1) ≤ v := by
  by_contra hc
  have h1 := (bitlen_le_iff v (bitlen v - 1)).mpr (by omega)
  have h2 : bitlen v ≠ 0 := by simp [bitlen, h]
  omega

theorem bitlen_pos {v : Nat} (h : v ≠ 0) : 0 < bitlen v := by simp [bitlen, h]

/-- `bitlen` is the number R8 defines. -/
theorem bitlen_eq_iff {v k : Nat} (hk : 0 < k) : bitlen v = k ↔ 2 ^ (k - 1) ≤ v ∧ v < 2 ^ k := by
  constructor
  · rintro rfl
    have hv : v ≠ 0 := by rintro rfl; simp at hk
    exact ⟨two_pow_bitlen_pred_le hv, lt_two_pow_bitlen v⟩
  · rintro ⟨h1, h2⟩
    have ha := (bitlen_le_iff v k).mpr h2
    have hb : ¬ bitlen v ≤ k - 1 := by rw [bitlen_le_iff]; omega
    omega

/-! ## Lengths -/

theorem ceilDiv_le_iff {x y n : Nat} (hy : 0 < y) : ceilDiv x y ≤ n ↔ x ≤ y * n := by
  unfold ceilDiv
  rw [← Nat.lt_succ_iff, Nat.div_lt_iff_lt_mul hy, Nat.succ_mul, Nat.mul_comm n y]
  omega

theorem le_mul_ceilDiv {y : Nat} (x : Nat) (hy : 0 < y) : x ≤ y * ceilDiv x y := (ceilDiv_le_iff hy).mp le_rfl

theorem digitLen_pos {D : Nat} (v : Nat) (hD : 0 < D) : 1 ≤ digitLen D v := by
  unfold digitLen
  split
  · rfl
  · rename_i h
    by_contra hc
    have : ceilDiv (bitlen v) D ≤ 0 := by omega
    rw [ceilDiv_le_iff hD] at this
    have := bitlen_pos h
    omega

theorem digitLen_le_iff {D v n : Nat} (hD : 0 < D) (hn : 1 ≤ n) : digitLen D v ≤ n ↔ v < 2 ^ (D * n) := by
  unfold digitLen
  split
  · subst v; simp [hn]
  · rw [ceilDiv_le_iff hD, bitlen_le_iff]

theorem lt_two_pow_digitLen {D : Nat} (v : Nat) (hD : 0 < D) : v < 2 ^ (D * digitLen D v) :=
  (digitLen_le_iff hD (digitLen_pos v hD)).mp le_rfl

theorem two_pow_digitLen_pred_le {D v : Nat} (hD : 0 < D) (hv : v ≠ 0) : 2 ^ (D * (digitLen D v - 1)) ≤ v := by
  by_contra hc
  have h1 := digitLen_pos v hD
  rcases Nat.lt_or_ge 1 (digitLen D v) with h | h
  · have := (digitLen_le_iff (v := v) (n := digitLen D v - 1) hD (by omega)).mpr (by omega)
    omega
  · have : digitLen D v - 1 = 0 := by omega
    rw [this] at hc
    simp at hc
    omega

/-! ## digitsVal -/

@[simp] theorem digitsVal_nil (S : Nat) : digitsVal S [] = 0 := rfl

@[simp] theorem digitsVal_cons (S d : Nat) (ds : List Nat) :
    digitsVal S (d :: ds) = d + 2 ^ S * digitsVal S ds := rfl

theorem digitsVal_append (S : Nat) (xs ys : List Nat) :
    digitsVal S (xs ++ ys) = digitsVal S xs + 2 ^ (S * xs.length) * digitsVal S ys := by
  induction xs with
  | nil => simp
  | cons d ds ih => simp [ih, Nat.mul_add, Nat.pow_add]; ring

theorem digitsVal_lt (S : Nat) (ds : List Nat) (h : ∀ d ∈ ds, d < 2 ^ S) : digitsVal S ds < 2 ^ (S * ds.length) := by
  induction ds with
  | nil => simp
  | cons d ds ih =>
    have h1 := ih fun x hx => h x (List.mem_cons_of_mem _ hx)
    have h2 := h d List.mem_cons_self
    simp only [digitsVal_cons, List.length_cons, Nat.mul_succ, Nat.pow_add]
    calc d + 2 ^ S * digitsVal S ds < 2 ^ S * (digitsVal S ds + 1) := by rw [Nat.mul_succ]; omega
      _ ≤ 2 ^ S * 2 ^ (S * ds.length) := Nat.mul_le_mul_left _ h1
      _ = 2 ^ (S * ds.length) * 2 ^ S := Nat.mul_comm ..

@[simp] theorem digitsVal_replicate_zero (S n : Nat) : digitsVal S (List.replicate n 0) = 0 := by
  induction n with
  | zero => rfl
  | succ n ih => simp [List.replicate_succ, ih]

/-- `Σ_k v[S·k + S − 1 : S·k]·2^(S·k)` over the first `n` digits is `v mod 2^(S·n)`. -/
theorem digitsVal_bitsOf (S v n : Nat) :
    digitsVal S ((List.range n).map fun k => bitsOf v (S * k) S) = v % 2 ^ (S * n) := by
  induction n with
  | zero => simp [Nat.mod_one]
  | succ n ih =>
    rw [List.range_succ, List.map_append, digitsVal_append, ih]
    simp only [List.map_cons, List.map_nil, digitsVal_cons, digitsVal_nil, List.length_map, List.length_range, bitsOf,
      Nat.mul_zero, Nat.add_zero, Nat.mul_succ, Nat.pow_add]
    rw [Nat.mod_mul]

/-! ## canon and val -/

@[simp] theorem canonDigits_length (D v : Nat) : (canonDigits D v).length = digitLen D v := by simp [canonDigits]

/-- The value of `canon(v)` is `v` (R9). -/
@[simp] theorem digitsVal_canonDigits {D : Nat} (v : Nat) (hD : 0 < D) : digitsVal D (canonDigits D v) = v := by
  rw [canonDigits, digitsVal_bitsOf]
  exact Nat.mod_eq_of_lt (lt_two_pow_digitLen v hD)

theorem val_canon {D : Nat} (v : Nat) (hD : 0 < D) : (canon D v).val D = v := digitsVal_canonDigits v hD

theorem canonDigits_lt {D v d : Nat} (h : d ∈ canonDigits D v) : d < 2 ^ D := by
  obtain ⟨k, -, rfl⟩ := List.mem_map.mp h
  exact Nat.mod_lt _ (Nat.two_pow_pos D)

theorem canonDigits_zero (D : Nat) : canonDigits D 0 = [0] := by simp [canonDigits, digitLen, bitsOf]

/-- The top digit of `canon(v)` is not 0 but for `v = 0` (R22 b). -/
theorem canonDigits_getLast? {D v : Nat} (hD : 0 < D) (hv : v ≠ 0) : (canonDigits D v).getLast? ≠ some 0 := by
  have hn := digitLen_pos v hD
  obtain ⟨n, hn'⟩ : ∃ n, digitLen D v = n + 1 := ⟨digitLen D v - 1, by omega⟩
  have hlo := two_pow_digitLen_pred_le hD hv
  have hhi := lt_two_pow_digitLen v hD
  rw [hn'] at hlo hhi
  simp only [canonDigits, hn', List.range_succ, List.map_append, List.map_cons, List.map_nil, List.getLast?_concat,
    ne_eq, Option.some.injEq, bitsOf]
  have h1 : 0 < v / 2 ^ (D * n) := Nat.div_pos (by simpa using hlo) (Nat.two_pow_pos _)
  have h2 : v / 2 ^ (D * n) < 2 ^ D := by
    rw [Nat.div_lt_iff_lt_mul (Nat.two_pow_pos _), ← Nat.pow_add]
    rwa [Nat.mul_succ, Nat.add_comm] at hhi
  rw [Nat.mod_eq_of_lt h2]
  omega

theorem DigitWidth.bits_pos (w : DigitWidth) : 0 < w.bits := by cases w <;> decide

theorem digitBits_pos (p : Params) : 0 < p.digitBits := DigitWidth.bits_pos p.digit

theorem vmax_pos (p : Params) : 0 < p.vmax := Nat.two_pow_pos _

/-- `canon(v)` meets R22 for `v < VMAX`. -/
theorem canon_canonical {p : Params} {v : Nat} (hp : 1 ≤ p.cap) (hv : v < p.vmax) :
    (canon p.digitBits v).Canonical p := by
  have hD := digitBits_pos p
  refine ⟨⟨?_, ?_⟩, ?_, fun d hd => canonDigits_lt hd⟩
  · simpa [Bigint.length, canon] using digitLen_pos v hD
  · simpa [Bigint.length, canon] using (digitLen_le_iff hD hp).mpr hv
  · by_cases h : v = 0
    · left; subst h; simp [Bigint.length, canon, digitLen]
    · right; exact canonDigits_getLast? hD h

/-- A canonical register holds less than VMAX (R23). -/
theorem Bigint.Canonical.val_lt {p : Params} {b : Bigint} (h : b.Canonical p) : b.val p.digitBits < p.vmax :=
  lt_of_lt_of_le (digitsVal_lt _ _ h.2.2) (Nat.pow_le_pow_right (by decide) (Nat.mul_le_mul_left _ h.1.2))

/-- Digits with no leading zero are as many as their value needs. -/
theorem digitLen_digitsVal {D : Nat} {ds : List Nat} (hD : 0 < D) (hne : 1 ≤ ds.length)
    (hlt : ∀ d ∈ ds, d < 2 ^ D) (htop : ds.length = 1 ∨ ds.getLast? ≠ some 0) : digitLen D (digitsVal D ds) = ds.length := by
  apply Nat.le_antisymm
  · exact (digitLen_le_iff hD hne).mpr (digitsVal_lt D ds hlt)
  · rcases htop with h | h
    · rw [h]; exact digitLen_pos _ hD
    · rcases List.eq_nil_or_concat ds with rfl | ⟨init, top, rfl⟩
      · simp at hne
      · simp only [List.concat_eq_append, List.getLast?_concat, ne_eq, Option.some.injEq, List.length_append,
          List.length_cons, List.length_nil, Nat.zero_add, digitsVal_append, digitsVal_cons, digitsVal_nil,
          Nat.mul_zero, Nat.add_zero] at h ⊢
        by_contra hc
        have h1 : 1 ≤ init.length := by
          have := digitLen_pos (D := D) (digitsVal D init + 2 ^ (D * init.length) * top) hD
          omega
        have h2 := (digitLen_le_iff (v := digitsVal D init + 2 ^ (D * init.length) * top) hD h1).mp (by omega)
        have h3 : 2 ^ (D * init.length) ≤ 2 ^ (D * init.length) * top := Nat.le_mul_of_pos_right _ (by omega)
        omega

/-- Digits below `2^D` are read back from their value. -/
theorem bitsOf_digitsVal {D : Nat} {ds : List Nat} (hlt : ∀ d ∈ ds, d < 2 ^ D) :
    (List.range ds.length).map (fun k => bitsOf (digitsVal D ds) (D * k) D) = ds := by
  induction ds with
  | nil => rfl
  | cons d ds ih =>
    have hd := hlt d List.mem_cons_self
    rw [List.length_cons, List.range_succ_eq_map, List.map_cons, List.map_map]
    congr 1
    · simp [bitsOf, Nat.mod_eq_of_lt hd]
    · refine Eq.trans (List.map_congr_left fun k _ => ?_) (ih fun x hx => hlt x (List.mem_cons_of_mem _ hx))
      have : (d + 2 ^ D * digitsVal D ds) / 2 ^ D = digitsVal D ds := by
        rw [Nat.add_mul_div_left _ _ (Nat.two_pow_pos D), Nat.div_eq_of_lt hd, Nat.zero_add]
      simp only [Function.comp_apply, bitsOf, digitsVal_cons, Nat.succ_eq_add_one, Nat.mul_add, Nat.mul_one,
        Nat.add_comm (D * k) D, Nat.pow_add, ← Nat.div_div_eq_div_mul, this]

/-- A canonical register is `canon` of its value: digits are a function of the value (R23). -/
theorem canon_val {p : Params} {b : Bigint} (h : b.Canonical p) : canon p.digitBits (b.val p.digitBits) = b := by
  have hD := digitBits_pos p
  have hl : digitLen p.digitBits (digitsVal p.digitBits b.digits) = b.digits.length :=
    digitLen_digitsVal hD h.1.1 h.2.2 h.2.1
  cases b with
  | mk ds => simp only [canon, Bigint.val, canonDigits] at hl ⊢; rw [hl, bitsOf_digitsVal h.2.2]

theorem canonicalZero_eq_canon (D : Nat) : canon D 0 = Bigint.canonicalZero := by
  simp [canon, canonDigits_zero, Bigint.canonicalZero]

/-! ## Wire bytes (20_memory.md R62) -/

@[simp] theorem wireBytes_length (v : Nat) : (wireBytes v).length = ceilDiv (bitlen v) 8 := by simp [wireBytes]

/-- The bytes of a value stand for the value. -/
theorem wireValue_wireBytes (v : Nat) : wireValue (wireBytes v) = v := by
  have h : (wireBytes v).map BitVec.toNat = (List.range (ceilDiv (bitlen v) 8)).map fun j => bitsOf v (8 * j) 8 := by
    simp only [wireBytes, List.map_map]
    refine List.map_congr_left fun j _ => ?_
    simp [bitsOf]
  rw [wireValue, h, digitsVal_bitsOf]
  apply Nat.mod_eq_of_lt
  rw [← bitlen_le_iff]
  exact le_mul_ceilDiv _ (by decide)

end Sys2Proof.Machine
end

