-- ==== Sys2Proof/Laws/Encoding.lean ====
section
/-! SUPPORT. The laws of the fields of a command word: taking a word apart and putting it together are inverse to each other. -/

namespace Sys2Proof

theorem Fields.ofWord_toWord (f : Fields) : Fields.ofWord f.toWord = f := by
  obtain ⟨op, rd, ra, rb, rc, z, s, imm⟩ := f
  simp only [Fields.ofWord, Fields.toWord, fieldAt, Fields.mk.injEq]
  refine ⟨?_, ?_, ?_, ?_, ?_, ?_, ?_, ?_⟩ <;> (ext i hi; interval_cases i <;> simp)

theorem Fields.toWord_ofWord (w : CmdWord) : (Fields.ofWord w).toWord = w := by
  simp only [Fields.ofWord, Fields.toWord, fieldAt]
  ext i hi
  interval_cases i <;> simp

theorem Fields.toWord_inj {f g : Fields} : f.toWord = g.toWord ↔ f = g :=
  ⟨fun h => by rw [← Fields.ofWord_toWord f, h, Fields.ofWord_toWord], fun h => h ▸ rfl⟩

theorem fieldAt_and_self {n : Nat} (w lo : Nat) (a b : BitVec n) :
    fieldAt w lo a &&& fieldAt w lo b = fieldAt w lo (a &&& b) := by
  ext i hi
  simp [fieldAt]
  grind

@[simp] theorem regOf_regField (r : Reg) : regOf (regField r) = r := by
  ext; simp [regOf, regField]

@[simp] theorem regField_regOf (b : BitVec 4) : regField (regOf b) = b := by
  simp [regOf, regField]

theorem immHigh_immHalves {f : Fields} {hi lo : Nat} (h : f.imm = immHalves hi lo) (hh : hi < 2 ^ 16) :
    f.immHigh = hi := by
  have : (immHalves hi lo).extractLsb' 16 16 = BitVec.ofNat 16 hi := by
    ext i hi'; simp [immHalves, fieldAt]; grind
  rw [Fields.immHigh, h, this]
  simp; omega

theorem immLow_immHalves {f : Fields} {hi lo : Nat} (h : f.imm = immHalves hi lo) (hl : lo < 2 ^ 16) :
    f.immLow = lo := by
  have : (immHalves hi lo).extractLsb' 0 16 = BitVec.ofNat 16 lo := by
    ext i hi'; simp [immHalves, fieldAt, hi']; omega
  rw [Fields.immLow, h, this]
  simp; omega

@[simp] theorem svField_eq_one (sv : Bool) : (svField sv == 1) = sv := by cases sv <;> rfl

/-- The row of a word's opcode decides what the word is. -/
theorem Machine.encodedAs_of_mem {r : Row} (h : r ∈ opcodeTable) : Machine.EncodedAs r.op r.format r.build := by
  intro w hw
  have hf : opcodeTable.find? (fun q => q.op == (Fields.ofWord w).op) = some r := by
    rw [hw]
    simp only [opcodeTable, List.cons_append, List.nil_append, List.mem_cons, List.not_mem_nil, or_false] at h
    rcases h with rfl | rfl | rfl | rfl | rfl | rfl | rfl | rfl | rfl | rfl | rfl | rfl | rfl | rfl | rfl | rfl | rfl |
      rfl | rfl | rfl | rfl <;> rfl
  simp only [decode, hf]

end Sys2Proof
end

