-- ==== Sys2Proof/Laws/State.lean ====
section
/-! SUPPORT. One lemma per field per update of State, true by rfl, so that no proof unfolds a record update. -/

namespace Sys2Proof.Machine.State

variable (s : State)

/-! ## setReg -/

@[simp] theorem setReg_par (r : Reg) (b : Bigint) : (s.setReg r b).par = s.par := rfl
@[simp] theorem setReg_regs (r : Reg) (b : Bigint) : (s.setReg r b).regs = s.regs.set r b := rfl
@[simp] theorem setReg_status (r : Reg) (b : Bigint) : (s.setReg r b).status = s.status := rfl
@[simp] theorem setReg_result (r : Reg) (b : Bigint) : (s.setReg r b).result = s.result := rfl
@[simp] theorem setReg_mem (r : Reg) (b : Bigint) : (s.setReg r b).mem = s.mem := rfl
@[simp] theorem setReg_memEpoch (r : Reg) (b : Bigint) : (s.setReg r b).memEpoch = s.memEpoch := rfl
@[simp] theorem setReg_sieve (r : Reg) (b : Bigint) : (s.setReg r b).sieve = s.sieve := rfl
@[simp] theorem setReg_running (r : Reg) (b : Bigint) : (s.setReg r b).running = s.running := rfl
@[simp] theorem setReg_rand (r : Reg) (b : Bigint) : (s.setReg r b).rand = s.rand := rfl
@[simp] theorem setReg_host (r : Reg) (b : Bigint) : (s.setReg r b).host = s.host := rfl
@[simp] theorem setReg_replies (r : Reg) (b : Bigint) : (s.setReg r b).replies = s.replies := rfl
@[simp] theorem setReg_fresh (r : Reg) (b : Bigint) : (s.setReg r b).fresh = s.fresh := rfl

/-! ## writeValue -/

@[simp] theorem writeValue_par (r : Reg) (v : Nat) : (s.writeValue r v).par = s.par := rfl
@[simp] theorem writeValue_regs (r : Reg) (v : Nat) : (s.writeValue r v).regs = s.regs.set r (canon s.digitBits v) := rfl
@[simp] theorem writeValue_status (r : Reg) (v : Nat) : (s.writeValue r v).status = s.status := rfl
@[simp] theorem writeValue_result (r : Reg) (v : Nat) : (s.writeValue r v).result = s.result := rfl
@[simp] theorem writeValue_mem (r : Reg) (v : Nat) : (s.writeValue r v).mem = s.mem := rfl
@[simp] theorem writeValue_memEpoch (r : Reg) (v : Nat) : (s.writeValue r v).memEpoch = s.memEpoch := rfl
@[simp] theorem writeValue_sieve (r : Reg) (v : Nat) : (s.writeValue r v).sieve = s.sieve := rfl
@[simp] theorem writeValue_running (r : Reg) (v : Nat) : (s.writeValue r v).running = s.running := rfl
@[simp] theorem writeValue_rand (r : Reg) (v : Nat) : (s.writeValue r v).rand = s.rand := rfl
@[simp] theorem writeValue_host (r : Reg) (v : Nat) : (s.writeValue r v).host = s.host := rfl
@[simp] theorem writeValue_replies (r : Reg) (v : Nat) : (s.writeValue r v).replies = s.replies := rfl
@[simp] theorem writeValue_fresh (r : Reg) (v : Nat) : (s.writeValue r v).fresh = s.fresh := rfl

/-! ## writeUnspecified -/

@[simp] theorem writeUnspecified_par (r : Reg) : (s.writeUnspecified r).par = s.par := rfl
@[simp] theorem writeUnspecified_regs (r : Reg) : (s.writeUnspecified r).regs = s.regs.set r (canon s.digitBits (Config.unspecified s.fresh % s.vmax)) := rfl
@[simp] theorem writeUnspecified_status (r : Reg) : (s.writeUnspecified r).status = s.status := rfl
@[simp] theorem writeUnspecified_result (r : Reg) : (s.writeUnspecified r).result = s.result := rfl
@[simp] theorem writeUnspecified_mem (r : Reg) : (s.writeUnspecified r).mem = s.mem := rfl
@[simp] theorem writeUnspecified_memEpoch (r : Reg) : (s.writeUnspecified r).memEpoch = s.memEpoch := rfl
@[simp] theorem writeUnspecified_sieve (r : Reg) : (s.writeUnspecified r).sieve = s.sieve := rfl
@[simp] theorem writeUnspecified_running (r : Reg) : (s.writeUnspecified r).running = s.running := rfl
@[simp] theorem writeUnspecified_rand (r : Reg) : (s.writeUnspecified r).rand = s.rand := rfl
@[simp] theorem writeUnspecified_host (r : Reg) : (s.writeUnspecified r).host = s.host := rfl
@[simp] theorem writeUnspecified_replies (r : Reg) : (s.writeUnspecified r).replies = s.replies := rfl
@[simp] theorem writeUnspecified_fresh (r : Reg) : (s.writeUnspecified r).fresh = s.fresh + 1 := rfl

/-! ## memWrite -/

@[simp] theorem memWrite_par (a : Nat) (bs : List Byte) : (s.memWrite a bs).par = s.par := rfl
@[simp] theorem memWrite_regs (a : Nat) (bs : List Byte) : (s.memWrite a bs).regs = s.regs := rfl
@[simp] theorem memWrite_status (a : Nat) (bs : List Byte) : (s.memWrite a bs).status = s.status := rfl
@[simp] theorem memWrite_result (a : Nat) (bs : List Byte) : (s.memWrite a bs).result = s.result := rfl
@[simp] theorem memWrite_mem (a : Nat) (bs : List Byte) : (s.memWrite a bs).mem = s.mem.storeBytes a bs := rfl
@[simp] theorem memWrite_memEpoch (a : Nat) (bs : List Byte) : (s.memWrite a bs).memEpoch = s.memEpoch := rfl
@[simp] theorem memWrite_sieve (a : Nat) (bs : List Byte) : (s.memWrite a bs).sieve = s.sieve := rfl
@[simp] theorem memWrite_running (a : Nat) (bs : List Byte) : (s.memWrite a bs).running = s.running := rfl
@[simp] theorem memWrite_rand (a : Nat) (bs : List Byte) : (s.memWrite a bs).rand = s.rand := rfl
@[simp] theorem memWrite_host (a : Nat) (bs : List Byte) : (s.memWrite a bs).host = s.host := rfl
@[simp] theorem memWrite_replies (a : Nat) (bs : List Byte) : (s.memWrite a bs).replies = s.replies := rfl
@[simp] theorem memWrite_fresh (a : Nat) (bs : List Byte) : (s.memWrite a bs).fresh = s.fresh := rfl

/-! ## retire -/

@[simp] theorem retire_par (w : Word) : (s.retire w).par = s.par := rfl
@[simp] theorem retire_regs (w : Word) : (s.retire w).regs = s.regs := rfl
@[simp] theorem retire_status (w : Word) : (s.retire w).status = s.status.succeeded := rfl
@[simp] theorem retire_result (w : Word) : (s.retire w).result = w := rfl
@[simp] theorem retire_mem (w : Word) : (s.retire w).mem = s.mem := rfl
@[simp] theorem retire_memEpoch (w : Word) : (s.retire w).memEpoch = s.memEpoch := rfl
@[simp] theorem retire_sieve (w : Word) : (s.retire w).sieve = s.sieve := rfl
@[simp] theorem retire_running (w : Word) : (s.retire w).running = none := rfl
@[simp] theorem retire_rand (w : Word) : (s.retire w).rand = s.rand := rfl
@[simp] theorem retire_host (w : Word) : (s.retire w).host = s.host := rfl
@[simp] theorem retire_replies (w : Word) : (s.retire w).replies = s.replies := rfl
@[simp] theorem retire_fresh (w : Word) : (s.retire w).fresh = s.fresh := rfl

/-! ## raiseError -/

@[simp] theorem raiseError_par (c : ECode) : (s.raiseError c).par = s.par := rfl
@[simp] theorem raiseError_regs (c : ECode) : (s.raiseError c).regs = s.regs := rfl
@[simp] theorem raiseError_status (c : ECode) : (s.raiseError c).status = s.status.failed c := rfl
@[simp] theorem raiseError_result (c : ECode) : (s.raiseError c).result = minusOne := rfl
@[simp] theorem raiseError_mem (c : ECode) : (s.raiseError c).mem = s.mem := rfl
@[simp] theorem raiseError_memEpoch (c : ECode) : (s.raiseError c).memEpoch = s.memEpoch := rfl
@[simp] theorem raiseError_sieve (c : ECode) : (s.raiseError c).sieve = s.sieve := rfl
@[simp] theorem raiseError_running (c : ECode) : (s.raiseError c).running = none := rfl
@[simp] theorem raiseError_rand (c : ECode) : (s.raiseError c).rand = s.rand := rfl
@[simp] theorem raiseError_host (c : ECode) : (s.raiseError c).host = s.host := rfl
@[simp] theorem raiseError_replies (c : ECode) : (s.raiseError c).replies = s.replies := rfl
@[simp] theorem raiseError_fresh (c : ECode) : (s.raiseError c).fresh = s.fresh := rfl

/-! ## failDestination -/

@[simp] theorem failDestination_par (r : Reg) (c : ECode) : (s.failDestination r c).par = s.par := rfl
@[simp] theorem failDestination_regs (r : Reg) (c : ECode) : (s.failDestination r c).regs = s.regs.set r (canon s.digitBits (Config.unspecified s.fresh % s.vmax)) := rfl
@[simp] theorem failDestination_status (r : Reg) (c : ECode) : (s.failDestination r c).status = s.status.failed c := rfl
@[simp] theorem failDestination_result (r : Reg) (c : ECode) : (s.failDestination r c).result = minusOne := rfl
@[simp] theorem failDestination_mem (r : Reg) (c : ECode) : (s.failDestination r c).mem = s.mem := rfl
@[simp] theorem failDestination_memEpoch (r : Reg) (c : ECode) : (s.failDestination r c).memEpoch = s.memEpoch := rfl
@[simp] theorem failDestination_sieve (r : Reg) (c : ECode) : (s.failDestination r c).sieve = s.sieve := rfl
@[simp] theorem failDestination_running (r : Reg) (c : ECode) : (s.failDestination r c).running = none := rfl
@[simp] theorem failDestination_rand (r : Reg) (c : ECode) : (s.failDestination r c).rand = s.rand := rfl
@[simp] theorem failDestination_host (r : Reg) (c : ECode) : (s.failDestination r c).host = s.host := rfl
@[simp] theorem failDestination_replies (r : Reg) (c : ECode) : (s.failDestination r c).replies = s.replies := rfl
@[simp] theorem failDestination_fresh (r : Reg) (c : ECode) : (s.failDestination r c).fresh = s.fresh + 1 := rfl

/-! ## reply -/

@[simp] theorem reply_par (x : HostReply) : (s.reply x).par = s.par := rfl
@[simp] theorem reply_regs (x : HostReply) : (s.reply x).regs = s.regs := rfl
@[simp] theorem reply_status (x : HostReply) : (s.reply x).status = s.status := rfl
@[simp] theorem reply_result (x : HostReply) : (s.reply x).result = s.result := rfl
@[simp] theorem reply_mem (x : HostReply) : (s.reply x).mem = s.mem := rfl
@[simp] theorem reply_memEpoch (x : HostReply) : (s.reply x).memEpoch = s.memEpoch := rfl
@[simp] theorem reply_sieve (x : HostReply) : (s.reply x).sieve = s.sieve := rfl
@[simp] theorem reply_running (x : HostReply) : (s.reply x).running = s.running := rfl
@[simp] theorem reply_rand (x : HostReply) : (s.reply x).rand = s.rand := rfl
@[simp] theorem reply_host (x : HostReply) : (s.reply x).host = s.host := rfl
@[simp] theorem reply_replies (x : HostReply) : (s.reply x).replies = x :: s.replies := rfl
@[simp] theorem reply_fresh (x : HostReply) : (s.reply x).fresh = s.fresh := rfl

/-! ## hostReset -/

@[simp] theorem hostReset_par : s.hostReset.par = s.par := rfl
@[simp] theorem hostReset_regs : s.hostReset.regs = Vector.replicate 16 Bigint.canonicalZero := rfl
@[simp] theorem hostReset_status : s.hostReset.status = Status.clear := rfl
@[simp] theorem hostReset_result : s.hostReset.result = 0 := rfl
@[simp] theorem hostReset_mem : s.hostReset.mem = [] := rfl
@[simp] theorem hostReset_memEpoch : s.hostReset.memEpoch = s.memEpoch + 1 := rfl
@[simp] theorem hostReset_sieve : s.hostReset.sieve = [] := rfl
@[simp] theorem hostReset_running : s.hostReset.running = none := rfl
@[simp] theorem hostReset_rand : s.hostReset.rand = s.rand := rfl
@[simp] theorem hostReset_host : s.hostReset.host = s.host := rfl
@[simp] theorem hostReset_replies : s.hostReset.replies = s.replies := rfl
@[simp] theorem hostReset_fresh : s.hostReset.fresh = s.fresh := rfl

/-! ## resetFor -/

@[simp] theorem resetFor_par (p : Params) : (resetFor p).par = p := rfl
@[simp] theorem resetFor_regs (p : Params) : (resetFor p).regs = Vector.replicate 16 Bigint.canonicalZero := rfl
@[simp] theorem resetFor_status (p : Params) : (resetFor p).status = Status.clear := rfl
@[simp] theorem resetFor_result (p : Params) : (resetFor p).result = 0 := rfl
@[simp] theorem resetFor_mem (p : Params) : (resetFor p).mem = [] := rfl
@[simp] theorem resetFor_memEpoch (p : Params) : (resetFor p).memEpoch = 0 := rfl
@[simp] theorem resetFor_sieve (p : Params) : (resetFor p).sieve = [] := rfl
@[simp] theorem resetFor_running (p : Params) : (resetFor p).running = none := rfl
@[simp] theorem resetFor_rand (p : Params) : (resetFor p).rand = [] := rfl
@[simp] theorem resetFor_host (p : Params) : (resetFor p).host = [] := rfl
@[simp] theorem resetFor_replies (p : Params) : (resetFor p).replies = [] := rfl
@[simp] theorem resetFor_fresh (p : Params) : (resetFor p).fresh = 0 := rfl

/-! ## The status word's fields after an end of a command -/

@[simp] theorem succeeded_err (st : Status) : st.succeeded.err = false := rfl
@[simp] theorem succeeded_sticky (st : Status) : st.succeeded.sticky = st.sticky := rfl
@[simp] theorem succeeded_sieveValid (st : Status) : st.succeeded.sieveValid = st.sieveValid := rfl
@[simp] theorem succeeded_ecode (st : Status) : st.succeeded.ecode = .ok := rfl
@[simp] theorem failed_err (c : ECode) (st : Status) : (st.failed c).err = true := rfl
@[simp] theorem failed_sticky (c : ECode) (st : Status) : (st.failed c).sticky = true := rfl
@[simp] theorem failed_sieveValid (c : ECode) (st : Status) : (st.failed c).sieveValid = st.sieveValid := rfl
@[simp] theorem failed_ecode (c : ECode) (st : Status) : (st.failed c).ecode = c := rfl

/-! ## Reading a register after a write -/

theorem setReg_self (r : Reg) (b : Bigint) : (s.setReg r b).regs[r] = b := by simp

theorem setReg_other (r q : Reg) (b : Bigint) (h : q ≠ r) : (s.setReg r b).regs[q] = s.regs[q] := by
  have : r.val ≠ q.val := fun e => h (Fin.ext e.symm)
  simp [this]

@[simp] theorem setReg_digitBits (r : Reg) (b : Bigint) : (s.setReg r b).digitBits = s.digitBits := rfl
@[simp] theorem writeValue_digitBits (r : Reg) (v : Nat) : (s.writeValue r v).digitBits = s.digitBits := rfl
@[simp] theorem retire_digitBits (w : Word) : (s.retire w).digitBits = s.digitBits := rfl
@[simp] theorem raiseError_digitBits (c : ECode) : (s.raiseError c).digitBits = s.digitBits := rfl

theorem value_def (r : Reg) : s.value r = digitsVal s.digitBits s.regs[r].digits := rfl

/-- A byte of MEM depends on what was written and on the power-up content alone. -/
theorem readByte_congr {s t : State} (hm : t.mem = s.mem) (he : t.memEpoch = s.memEpoch) (a : Nat) :
    t.readByte a = s.readByte a := by
  simp [readByte, hm, he]

end Sys2Proof.Machine.State
end

