-- ==== Sys2Proof/Laws/Memory.lean ====
section
/-! SUPPORT. The laws of MEM: a read after a write, and that every memory operation keeps the canonical form and the range. -/

namespace Sys2Proof.Machine

namespace Memory

theorem lookup_store_self (m : Memory) (a : Nat) (b : Byte) : (m.store a b).lookup a = some b := by
  induction m with
  | nil => simp [store, lookup]
  | cons c m ih =>
    obtain ⟨k, x⟩ := c
    simp only [store]
    split
    · simp [lookup]
    · split
      · simp [lookup]
      · rename_i h; simp [lookup, ih, Ne.symm h]

theorem lookup_store_other (m : Memory) {a a' : Nat} (b : Byte) (h : a' ≠ a) :
    (m.store a b).lookup a' = m.lookup a' := by
  induction m with
  | nil => simp [store, lookup, h.symm]
  | cons c m ih =>
    obtain ⟨k, x⟩ := c
    simp only [store]
    split
    · simp [lookup, h.symm]
    · split
      · rename_i h2; subst h2; simp [lookup, h.symm]
      · simp [lookup, ih]

theorem store_ne_nil (m : Memory) (a : Nat) (b : Byte) : m.store a b ≠ [] := by
  cases m with
  | nil => simp [store]
  | cons c m => simp only [store]; split <;> [simp; (split <;> simp)]

/-- The canonical form, as a statement about the addresses: every entry is a written byte, so only their order counts. -/
theorem wf_iff (m : Memory) : m.wf = true ↔ (m.map Prod.fst).Pairwise (· < ·) := by
  induction m with
  | nil => simp [wf]
  | cons c m ih =>
    cases m with
    | nil => simp [wf, unlisted]
    | cons d m =>
      simp only [wf, unlisted, Bool.and_eq_true, decide_eq_true_eq, ih, List.map_cons, List.pairwise_cons]
      constructor
      · rintro ⟨⟨-, hcd⟩, hd, hm⟩
        refine ⟨fun x hx => ?_, hd, hm⟩
        rcases List.mem_cons.mp hx with rfl | hx
        · exact hcd
        · exact lt_trans hcd (hd x hx)
      · rintro ⟨hc, hd, hm⟩
        exact ⟨⟨by simp, hc _ List.mem_cons_self⟩, hd, hm⟩

theorem mem_store {m : Memory} {a : Nat} {b : Byte} {c : Host.Cell} (h : c ∈ m.store a b) : c = (a, b) ∨ c ∈ m := by
  induction m with
  | nil => simpa [store] using h
  | cons d m ih =>
    obtain ⟨k, x⟩ := d
    simp only [store] at h
    split at h
    · simpa using h
    · split at h
      · rcases List.mem_cons.mp h with h | h
        · exact .inl h
        · exact .inr (List.mem_cons_of_mem _ h)
      · rcases List.mem_cons.mp h with h | h
        · exact .inr (h ▸ List.mem_cons_self)
        · exact (ih h).imp_right (List.mem_cons_of_mem _)

theorem wf_store {m : Memory} (h : m.wf = true) (a : Nat) (b : Byte) : (m.store a b).wf = true := by
  rw [wf_iff] at h ⊢
  induction m with
  | nil => simp [store]
  | cons c m ih =>
    obtain ⟨k, x⟩ := c
    simp only [List.map_cons, List.pairwise_cons] at h
    simp only [store]
    split
    · rename_i hak
      simp only [List.map_cons, List.pairwise_cons]
      refine ⟨fun y hy => ?_, h⟩
      rcases List.mem_cons.mp hy with rfl | hy
      · exact hak
      · exact lt_trans hak (h.1 y hy)
    · split
      · rename_i hak
        subst hak
        simpa only [List.map_cons, List.pairwise_cons] using h
      · rename_i h1 h2
        simp only [List.map_cons, List.pairwise_cons]
        refine ⟨fun y hy => ?_, ih h.2⟩
        obtain ⟨c, hc, rfl⟩ := List.mem_map.mp hy
        rcases mem_store hc with rfl | hc
        · simp only; omega
        · exact h.1 _ (List.mem_map_of_mem hc)

theorem wf_storeBytes {m : Memory} (h : m.wf = true) (a : Nat) (bs : List Byte) : (m.storeBytes a bs).wf = true := by
  induction bs generalizing m a with
  | nil => exact h
  | cons b bs ih => exact ih (wf_store h a b) (a + 1)

theorem mem_storeBytes {m : Memory} {a : Nat} {bs : List Byte} {c : Host.Cell} (h : c ∈ m.storeBytes a bs) :
    (a ≤ c.1 ∧ c.1 < a + bs.length) ∨ c ∈ m := by
  induction bs generalizing m a with
  | nil => exact .inr h
  | cons b bs ih =>
    rcases ih h with h | h
    · left; simp only [List.length_cons]; omega
    · rcases mem_store h with rfl | h
      · left; simp
      · exact .inr h

theorem lookup_storeBytes_outside (m : Memory) {a a' : Nat} (bs : List Byte) (h : a' < a ∨ a + bs.length ≤ a') :
    (m.storeBytes a bs).lookup a' = m.lookup a' := by
  induction bs generalizing m a with
  | nil => rfl
  | cons b bs ih =>
    simp only [List.length_cons] at h
    rw [storeBytes, ih _ (by omega), lookup_store_other _ _ (by omega)]

theorem lookup_storeBytes_inside (m : Memory) (a : Nat) (bs : List Byte) (j : Nat) (h : j < bs.length) :
    (m.storeBytes a bs).lookup (a + j) = some bs[j] := by
  induction bs generalizing m a j with
  | nil => simp at h
  | cons b bs ih =>
    cases j with
    | zero => rw [storeBytes, lookup_storeBytes_outside _ _ (by omega), Nat.add_zero, lookup_store_self]; rfl
    | succ j =>
      have := ih (m.store a b) (a + 1) j (by simpa using h)
      rw [storeBytes, show a + (j + 1) = a + 1 + j by omega, this]; rfl

end Memory

namespace State

variable (s : State)

/-- A byte written reads back. -/
theorem readByte_memWrite_inside (a : Nat) (bs : List Byte) (j : Nat) (h : j < bs.length) :
    (s.memWrite a bs).readByte (a + j) = bs[j] := by
  simp [readByte, Memory.lookup_storeBytes_inside _ _ _ _ h]

/-- A byte outside those written reads as before. -/
theorem readByte_memWrite_outside {a a' : Nat} (bs : List Byte) (h : a' < a ∨ a + bs.length ≤ a') :
    (s.memWrite a bs).readByte a' = s.readByte a' := by
  simp [readByte, Memory.lookup_storeBytes_outside _ _ h]

/-- What was written is what `MemRead` returns. -/
theorem memRead_memWrite (a : Nat) (bs : List Byte) : (s.memWrite a bs).memRead a bs.length = bs := by
  apply List.ext_getElem
  · simp [memRead]
  · intro j h1 h2
    simp [memRead, readByte_memWrite_inside s a bs j h2]

theorem memRead_congr {s t : State} (hm : t.mem = s.mem) (he : t.memEpoch = s.memEpoch) (a n : Nat) :
    t.memRead a n = s.memRead a n :=
  List.map_congr_left fun j _ => readByte_congr hm he (a + j)

end State

end Sys2Proof.Machine
end

