-- ==== Sys2Proof/Laws/Ops.lean ====
section
/-! SUPPORT. What each shared operation can do, once: the draws, the ends of a command, and the registers they write. -/

namespace Sys2Proof.Machine

/-! ## Draws -/

theorem intoRange_bounds {lo hi : Nat} (v : Nat) (h : lo ≤ hi) : lo ≤ intoRange lo hi v ∧ intoRange lo hi v ≤ hi := by
  unfold intoRange
  split
  · assumption
  · have := Nat.mod_lt v (show 0 < hi - lo + 1 by omega)
    omega

theorem intoRange_of_mem {lo hi v : Nat} (h1 : lo ≤ v) (h2 : v ≤ hi) : intoRange lo hi v = v := by
  simp [intoRange, h1, h2]

namespace State

variable (s : State)

/-- A draw is a value of its range (45_number_theory.md R190). -/
theorem draw_bounds {lo hi : Nat} (h : lo ≤ hi) : lo ≤ (s.draw lo hi).1 ∧ (s.draw lo hi).1 ≤ hi :=
  intoRange_bounds _ h

/-- A draw changes the inputs `rand` and `fresh` and nothing else. -/
theorem draw_state (lo hi : Nat) :
    (s.draw lo hi).2 = { s with rand := s.rand.tail, fresh := s.fresh + if s.rand = [] then 1 else 0 } := by
  unfold draw takeRand
  cases s.rand <;> simp

/-- The next value the RAND port lists is the draw, if it is in range. -/
theorem draw_of_rand {lo hi v : Nat} {vs : List Nat} (h : s.rand = v :: vs) (h1 : lo ≤ v) (h2 : v ≤ hi) :
    s.draw lo hi = (v, { s with rand := vs }) := by
  simp [draw, takeRand, h, intoRange_of_mem h1 h2]

theorem takeUnspecified_state : s.takeUnspecified.2 = { s with fresh := s.fresh + 1 } := rfl

/-! ## Registers -/

theorem value_writeValue_self (r : Reg) (v : Nat) : (s.writeValue r v).value r = v := by
  simp [value, val_canon v (digitBits_pos s.par), digitBits, writeValue, setReg]

theorem regs_writeValue_self (r : Reg) (v : Nat) : (s.writeValue r v).regs[r] = canon s.digitBits v :=
  setReg_self s r _

theorem regs_writeValue_other {r q : Reg} (v : Nat) (h : q ≠ r) : (s.writeValue r v).regs[q] = s.regs[q] :=
  setReg_other s r q _ h

theorem value_writeValue_other {r q : Reg} (v : Nat) (h : q ≠ r) : (s.writeValue r v).value q = s.value q := by
  simp only [value, regs_writeValue_other s v h, writeValue_digitBits]

/-- `B[r] <- v` for `v < VMAX`. -/
theorem writeValue_holds (hp : 1 ≤ s.par.cap) {r : Reg} {v : Nat} (hv : v < s.vmax) : (s.writeValue r v).Holds r v := by
  refine ⟨value_writeValue_self s r v, ?_⟩
  rw [regs_writeValue_self]
  exact canon_canonical (p := s.par) hp hv

theorem value_lt_vmax {r : Reg} (h : s.regs[r].Canonical s.par) : s.value r < s.vmax := h.val_lt

theorem canon_value {r : Reg} (h : s.regs[r].Canonical s.par) : canon s.digitBits (s.value r) = s.regs[r] := canon_val h

/-- `B[r] <- unspecified_canonical()` leaves a canonical content. -/
theorem writeUnspecified_canonical (hp : 1 ≤ s.par.cap) (r : Reg) :
    (s.writeUnspecified r).regs[r].Canonical s.par := by
  have : (s.writeUnspecified r).regs[r] = canon s.digitBits (Config.unspecified s.fresh % s.vmax) := by
    simp
  rw [this]
  exact canon_canonical (p := s.par) hp (Nat.mod_lt _ (vmax_pos s.par))

theorem regs_writeUnspecified_other {r q : Reg} (h : q ≠ r) : (s.writeUnspecified r).regs[q] = s.regs[q] :=
  setReg_other _ r q _ h

/-! ## The end of a command -/

theorem retire_succeeded (w : Word) : Succeeded w s (s.retire w) := ⟨rfl, rfl, rfl, rfl, rfl, rfl⟩

theorem raiseError_failed (c : ECode) : Failed c s (s.raiseError c) := ⟨rfl, rfl, rfl, rfl, rfl, rfl⟩

/-- `raise c` alone: RESULT, STATUS and BUSY, nothing else (60_exceptions.md R237 a). -/
theorem raiseError_cleanly (c : ECode) : FailedCleanly c s (s.raiseError c) :=
  ⟨raiseError_failed s c, ⟨fun _ _ => rfl, fun _ => rfl, rfl, ⟨rfl, rfl, rfl⟩⟩, ⟨rfl, rfl⟩⟩

/-- R237 b. -/
theorem failDestination_into (hp : 1 ≤ s.par.cap) (rd : Reg) (c : ECode) : FailedInto rd c s (s.failDestination rd c) :=
  ⟨⟨rfl, rfl, rfl, rfl, rfl, rfl⟩,
    ⟨fun q hq => regs_writeUnspecified_other s (by simpa using hq), fun _ => rfl, rfl, ⟨rfl, rfl, rfl⟩⟩,
    writeUnspecified_canonical s hp rd, rfl⟩

/-- `B[rd] <- v; retire(w)` keeps all but `rd`, RESULT, STATUS and BUSY. -/
theorem writeValue_retire_keeps (rd : Reg) (v : Nat) (w : Word) : Keeps [rd] s ((s.writeValue rd v).retire w) :=
  ⟨fun q hq => regs_writeValue_other s v (by simpa using hq), fun _ => rfl, rfl, ⟨rfl, rfl, rfl⟩⟩

theorem writeValue_retire_succeeded (rd : Reg) (v : Nat) (w : Word) :
    Succeeded w s ((s.writeValue rd v).retire w) := ⟨rfl, rfl, rfl, rfl, rfl, rfl⟩

/-- Everything `finishValue` can do. -/
theorem finishValue_cases (rd : Reg) (v : Nat) :
    (v < s.vmax ∧ s.finishValue rd v = (s.writeValue rd v).retire 0) ∨
      (s.vmax ≤ v ∧ s.finishValue rd v = s.failDestination rd .capacity) := by
  unfold finishValue
  split
  · exact .inr ⟨‹_›, rfl⟩
  · exact .inl ⟨by omega, rfl⟩

end State

end Sys2Proof.Machine
end

