-- ==== Sys2Proof/Laws/Exec.lean ====
section
/-! SUPPORT. What one execution of a command can do, said once for all 21: it retires, it fails, or it runs on. The frame and
invariant statements follow from these three cases. -/

namespace Sys2Proof.Machine

/-- The Fermat loop changes the RAND port's queue and the count of free values, nothing else. -/
theorem fermatLoop_state (p trials : Nat) (s : State) :
    ∃ rand fresh, (fermatLoop p trials s).2 = { s with rand := rand, fresh := fresh } := by
  induction trials generalizing s with
  | zero => exact ⟨_, _, rfl⟩
  | succ k ih =>
    have h := State.draw_state s 2 (p - 2)
    simp only [fermatLoop]
    split
    · obtain ⟨r', f', h'⟩ := ih (s.draw 2 (p - 2)).2
      rw [h', h]
      exact ⟨_, _, rfl⟩
    · exact ⟨_, _, h⟩

theorem largePrimeTest_state (p trials : Nat) (sv : Bool) (s : State) :
    ∃ rand fresh, (largePrimeTest p trials sv s).2 = { s with rand := rand, fresh := fresh } := by
  unfold largePrimeTest
  split
  · exact ⟨_, _, rfl⟩
  · exact fermatLoop_state p trials s

/-- The registers a command that writes `ds` may leave: the others as before, each as before or the canonical content of
some value. -/
structure RegsWritten (ds : List Reg) (s : State) (regs : Vector Bigint 16) : Prop where
  others : ∀ r : Reg, r ∉ ds → regs[r] = s.regs[r]
  canonical : ∀ r : Reg, regs[r] = s.regs[r] ∨ ∃ v, regs[r] = canon s.digitBits v

theorem regsWritten_none (ds : List Reg) (s : State) : RegsWritten ds s s.regs := ⟨fun _ _ => rfl, fun _ => .inl rfl⟩

theorem regsWritten_set {ds : List Reg} {s : State} {regs : Vector Bigint 16} (h : RegsWritten ds s regs) {rd : Reg}
    (hd : rd ∈ ds) (v : Nat) : RegsWritten ds s (regs.set rd (canon s.digitBits v)) := by
  constructor
  · intro r hr
    have : rd.val ≠ r.val := fun e => hr (Fin.ext e ▸ hd)
    simpa [this] using h.others r hr
  · intro r
    by_cases e : rd.val = r.val
    · exact .inr ⟨v, by simp [e]⟩
    · simpa [e] using h.canonical r

/-- The MEM a command may leave: as before, or with SER's bytes stored (20_memory.md R64). -/
def MemWritten (i : Instr) (s : State) (mem : Memory) : Prop :=
  mem = s.mem ∨ ∃ ra addr len, i = .ser ra addr len ∧ addr + len ≤ s.par.memSize ∧
    (wireBytes (s.value ra)).length ≤ len ∧ mem = s.mem.storeBytes addr (wireBytes (s.value ra))

/-- The table and SIEVE_VALID a command may leave (45_number_theory.md R194). -/
def TableWritten (i : Instr) (s : State) (sieve : List Nat) (valid : Bool) : Prop :=
  (sieve = s.sieve ∧ valid = s.status.sieveValid) ∨
    ∃ n, i = .sieve n ∧ 3 ≤ n ∧ n ≤ s.par.sieveNmax ∧ sieve = oddPrimesBelow n ∧ valid = true

/-- What one execution of `i` in `s` can lead to. -/
inductive Ends (i : Instr) (s : State) : State → Prop
  /-- It retires (60_exceptions.md R222). -/
  | retired (regs : Vector Bigint 16) (mem : Memory) (sieve : List Nat) (sticky valid : Bool) (result : Word)
      (rand : List Nat) (fresh : Nat) (hregs : RegsWritten (destinations i) s regs) (hmem : MemWritten i s mem)
      (htable : TableWritten i s sieve valid)
      (hsticky : (i ≠ .clrerr ∧ sticky = s.status.sticky) ∨ (i = .clrerr ∧ sticky = false)) :
      Ends i s { s with regs := regs, mem := mem, sieve := sieve, status := ⟨false, sticky, valid, .ok⟩,
                        result := result, rand := rand, fresh := fresh, running := none }
  /-- It fails (R223, R237). -/
  | failed (code : ECode) (regs : Vector Bigint 16) (fresh : Nat) (hcode : code ∈ reportable i)
      (hregs : regs = s.regs ∨ (code ∈ [ECode.capacity, .notInvertible] ∧ (∀ n, i ≠ .sieve n) ∧
        ∃ rd ∈ destinations i, regs = s.regs.set rd (canon s.digitBits (Config.unspecified s.fresh % s.vmax)))) :
      Ends i s { s with regs := regs, status := ⟨true, true, s.status.sieveValid, code⟩, result := minusOne,
                        fresh := fresh, running := none }
  /-- RNDPRIME runs on (70_reset_and_hazards.md R258). -/
  | goesOn (rd : Reg) (n t : Nat) (sv : Bool) (rand : List Nat) (fresh : Nat) (hi : i = .rndprime rd n t sv) :
      Ends i s { s with rand := rand, fresh := fresh, running := some (encode i) }

section
variable {i : Instr} {s : State}

theorem ends_raise {c : ECode} (hc : c ∈ reportable i) : Ends i s (s.raiseError c) :=
  .failed c s.regs s.fresh hc (.inl rfl)

theorem ends_failDestination {c : ECode} {rd : Reg} (hc : c ∈ reportable i)
    (h : c ∈ [ECode.capacity, .notInvertible]) (hn : ∀ n, i ≠ .sieve n) (hd : rd ∈ destinations i) :
    Ends i s (s.failDestination rd c) :=
  .failed c _ (s.fresh + 1) hc (.inr ⟨h, hn, rd, hd, rfl⟩)

/-- A command that draws, then writes `regs`. -/
theorem ends_write (regs : Vector Bigint 16) (rand : List Nat) (fresh : Nat) (w : Word) (hc : i ≠ .clrerr)
    (hr : RegsWritten (destinations i) s regs) :
    Ends i s (State.retire w { s with regs := regs, rand := rand, fresh := fresh }) :=
  .retired regs s.mem s.sieve s.status.sticky s.status.sieveValid w rand fresh hr (.inl rfl) (.inl ⟨rfl, rfl⟩)
    (.inl ⟨hc, rfl⟩)

theorem ends_writeValue {rd : Reg} (v : Nat) (w : Word) (hc : i ≠ .clrerr) (hd : rd ∈ destinations i) :
    Ends i s ((s.writeValue rd v).retire w) :=
  ends_write _ s.rand s.fresh w hc (regsWritten_set (regsWritten_none _ s) hd v)

theorem ends_finishValue {rd : Reg} (v : Nat) (hc : i ≠ .clrerr) (hn : ∀ n, i ≠ .sieve n)
    (hr : ECode.capacity ∈ reportable i) (hd : rd ∈ destinations i) : Ends i s (s.finishValue rd v) := by
  rcases s.finishValue_cases rd v with ⟨-, h⟩ | ⟨-, h⟩ <;> rw [h]
  · exact ends_writeValue v 0 hc hd
  · exact ends_failDestination hr (by simp) hn hd

end

/-- Every execution of a command ends in one of the three ways. -/
theorem exec_ends {i : Instr} {s t : State} (h : exec i s = .next t) : Ends i s t := by
  cases i <;> simp only [exec, execZero, execCopy, execDeser, execSer, execSigbits, execSersize, execClrerr, execCmp,
    execAdd, execAdds, execSub, execMul, execDiv, execMod, execModpow, execModinv, execRndbits, execRndlim, execSieve,
    execIsprime, execRndprime, Host.Outcome.next.injEq] at h <;> subst h
  case deser =>
    split
    · exact ends_raise (by simp [reportable])
    · exact ends_finishValue _ (by simp) (by simp) (by simp [reportable]) (by simp [destinations])
  case ser ra addr len =>
    split
    · exact ends_raise (by simp [reportable])
    · split
      · exact ends_raise (by simp [reportable])
      · rename_i h1 h2
        exact .retired s.regs _ s.sieve s.status.sticky s.status.sieveValid _ s.rand s.fresh (regsWritten_none _ s)
          (.inr ⟨ra, addr, len, rfl, by simpa [State.outsideMem] using h1, by omega, rfl⟩) (.inl ⟨rfl, rfl⟩)
          (.inl ⟨by simp, rfl⟩)
  case clrerr =>
    exact .retired s.regs s.mem s.sieve false s.status.sieveValid 0 s.rand s.fresh (regsWritten_none _ s) (.inl rfl)
      (.inl ⟨rfl, rfl⟩) (.inr ⟨rfl, rfl⟩)
  case sigbits => exact ends_write s.regs s.rand s.fresh _ (by simp) (regsWritten_none _ s)
  case sersize => exact ends_write s.regs s.rand s.fresh _ (by simp) (regsWritten_none _ s)
  case cmp => exact ends_write s.regs s.rand s.fresh _ (by simp) (regsWritten_none _ s)
  case add => exact ends_finishValue _ (by simp) (by simp) (by simp [reportable]) (by simp [destinations])
  case adds => exact ends_finishValue _ (by simp) (by simp) (by simp [reportable]) (by simp [destinations])
  case mul =>
    split
    · exact ends_writeValue _ _ (by simp) (by simp [destinations])
    · split
      · exact ends_failDestination (by simp [reportable]) (by simp) (by simp) (by simp [destinations])
      · exact ends_writeValue _ _ (by simp) (by simp [destinations])
  case div rd ra rb rc =>
    split
    · exact ends_raise (by simp [reportable])
    · split
      · exact ends_raise (by simp [reportable])
      · exact ends_write _ s.rand s.fresh 0 (by simp)
          (regsWritten_set (regsWritten_set (regsWritten_none _ s) (by simp [destinations]) _) (by simp [destinations]) _)
  case modinv =>
    split
    · exact ends_raise (by simp [reportable])
    · split
      · exact ends_raise (by simp [reportable])
      · split
        · exact ends_failDestination (by simp [reportable]) (by simp) (by simp) (by simp [destinations])
        · exact ends_writeValue _ _ (by simp) (by simp [destinations])
  case rndbits rd n =>
    split
    · exact ends_raise (by simp [reportable])
    · split
      · exact ends_failDestination (by simp [reportable]) (by simp) (by simp) (by simp [destinations])
      · have h := s.draw_state (2 ^ (n - 1)) (2 ^ n - 1)
        rw [h]
        exact ends_write _ _ _ 0 (by simp) (regsWritten_set (regsWritten_none _ s) (by simp [destinations]) _)
  case rndlim rd ra =>
    split
    · exact ends_raise (by simp [reportable])
    · split
      · exact ends_raise (by simp [reportable])
      · have h := s.draw_state 0 (s.value ra - 1)
        rw [h]
        exact ends_write _ _ _ 0 (by simp) (regsWritten_set (regsWritten_none _ s) (by simp [destinations]) _)
  case sieve n =>
    split
    · exact ends_raise (by simp [reportable])
    · split
      · exact ends_raise (by simp [reportable])
      · exact .retired s.regs s.mem _ s.status.sticky true _ s.rand s.fresh (regsWritten_none _ s) (.inl rfl)
          (.inr ⟨n, rfl, by omega, by omega, rfl, rfl⟩) (.inl ⟨by simp, rfl⟩)
  case isprime ra k sv =>
    split
    · exact ends_raise (by simp [reportable])
    · obtain ⟨r, f, h⟩ := largePrimeTest_state (s.value ra) k sv s
      rw [h]
      exact ends_write s.regs r f _ (by simp) (regsWritten_none _ s)
  case rndprime rd n k sv =>
    split
    · exact ends_raise (by simp [reportable])
    · split
      · exact ends_failDestination (by simp [reportable]) (by simp) (by simp) (by simp [destinations])
      · obtain ⟨r, f, h⟩ : ∃ r f, (s.draw (2 ^ (n - 1)) (2 ^ n - 1)).2 = { s with rand := r, fresh := f } :=
          ⟨_, _, s.draw_state _ _⟩
        generalize setLowBit (s.draw (2 ^ (n - 1)) (2 ^ n - 1)).1 = c
        obtain ⟨r', f', h'⟩ := largePrimeTest_state c k sv (s.draw (2 ^ (n - 1)) (2 ^ n - 1)).2
        rw [h', h]
        split
        · exact ends_write _ r' f' 0 (by simp) (regsWritten_set (regsWritten_none _ s) (by simp [destinations]) _)
        · exact .goesOn rd n k sv r' f' rfl
  all_goals
    repeat' split
  all_goals first
    | exact ends_raise (by simp [reportable])
    | exact ends_writeValue _ _ (by simp) (by simp [destinations])

end Sys2Proof.Machine
end

