-- ==== Sys2Proof/Laws/PerInstr.lean ====
section
/-! SUPPORT. Statements about every instruction as syntax, one lemma per constructor. -/

namespace Sys2Proof.Laws

namespace FieldsOfItsRow

/-- The fields an instruction is encoded with are those of its row of R83: the row's opcode, `zero` 0, and every field
the row's format does not use 0 (30_encoding.md R84). -/
def Statement (i : Instr) : Prop :=
  ∃ r ∈ opcodeTable, r.mnemonic = i.mnemonic ∧ r.op = i.fields.op ∧ i.fields.zero = 0 ∧
    r.format.unusedAreZero i.fields = true

theorem zero (rd : Reg) : Statement (.zero rd) :=
  ⟨opcodeTable[0], List.getElem_mem _, rfl, rfl, rfl, rfl⟩

theorem copy (rd ra : Reg) : Statement (.copy rd ra) :=
  ⟨opcodeTable[1], List.getElem_mem _, rfl, rfl, rfl, rfl⟩

theorem deser (rd : Reg) (addr len : Nat) : Statement (.deser rd addr len) :=
  ⟨opcodeTable[2], List.getElem_mem _, rfl, rfl, rfl, rfl⟩

theorem ser (ra : Reg) (addr len : Nat) : Statement (.ser ra addr len) :=
  ⟨opcodeTable[3], List.getElem_mem _, rfl, rfl, rfl, rfl⟩

theorem sigbits (ra : Reg) : Statement (.sigbits ra) :=
  ⟨opcodeTable[4], List.getElem_mem _, rfl, rfl, rfl, rfl⟩

theorem sersize (ra : Reg) : Statement (.sersize ra) :=
  ⟨opcodeTable[5], List.getElem_mem _, rfl, rfl, rfl, rfl⟩

theorem clrerr : Statement .clrerr :=
  ⟨opcodeTable[6], List.getElem_mem _, rfl, rfl, rfl, rfl⟩

theorem cmp (ra rb : Reg) : Statement (.cmp ra rb) :=
  ⟨opcodeTable[7], List.getElem_mem _, rfl, rfl, rfl, rfl⟩

theorem add (rd ra rb : Reg) : Statement (.add rd ra rb) :=
  ⟨opcodeTable[8], List.getElem_mem _, rfl, rfl, rfl, rfl⟩

theorem adds (rd ra : Reg) (u : Nat) : Statement (.adds rd ra u) :=
  ⟨opcodeTable[9], List.getElem_mem _, rfl, rfl, rfl, rfl⟩

theorem sub (rd ra rb : Reg) : Statement (.sub rd ra rb) :=
  ⟨opcodeTable[10], List.getElem_mem _, rfl, rfl, rfl, rfl⟩

theorem mul (rd ra rb : Reg) : Statement (.mul rd ra rb) :=
  ⟨opcodeTable[11], List.getElem_mem _, rfl, rfl, rfl, rfl⟩

theorem div (rd ra rb rc : Reg) : Statement (.div rd ra rb rc) :=
  ⟨opcodeTable[12], List.getElem_mem _, rfl, rfl, rfl, rfl⟩

theorem mod (rd ra rb : Reg) : Statement (.mod rd ra rb) :=
  ⟨opcodeTable[13], List.getElem_mem _, rfl, rfl, rfl, rfl⟩

theorem modpow (rd ra rb rc : Reg) : Statement (.modpow rd ra rb rc) :=
  ⟨opcodeTable[14], List.getElem_mem _, rfl, rfl, rfl, rfl⟩

theorem modinv (rd ra rb : Reg) : Statement (.modinv rd ra rb) :=
  ⟨opcodeTable[15], List.getElem_mem _, rfl, rfl, rfl, rfl⟩

theorem rndbits (rd : Reg) (n : Nat) : Statement (.rndbits rd n) :=
  ⟨opcodeTable[16], List.getElem_mem _, rfl, rfl, rfl, rfl⟩

theorem rndlim (rd ra : Reg) : Statement (.rndlim rd ra) :=
  ⟨opcodeTable[17], List.getElem_mem _, rfl, rfl, rfl, rfl⟩

theorem sieve (n : Nat) : Statement (.sieve n) :=
  ⟨opcodeTable[18], List.getElem_mem _, rfl, rfl, rfl, rfl⟩

theorem isprime (ra : Reg) (t : Nat) (sv : Bool) : Statement (.isprime ra t sv) :=
  ⟨opcodeTable[19], List.getElem_mem _, rfl, rfl, rfl, rfl⟩

theorem rndprime (rd : Reg) (n t : Nat) (sv : Bool) : Statement (.rndprime rd n t sv) :=
  ⟨opcodeTable[20], List.getElem_mem _, rfl, rfl, rfl, rfl⟩

end FieldsOfItsRow

end Sys2Proof.Laws
end

