-- ==== Sys2Proof/Tests/Slice0.lean ====
section
/-! SUPPORT. Tests: ill-formed terms, words written out from spec/30_encoding.md, vectors of spec/95_test_vectors.md (V.. and
P.. below name them), and for every obligation with hypotheses a theorem `witness_<its name>` that something meets them. -/

namespace Sys2Proof.Tests.Slice0

open Sys2Proof Sys2Proof.Machine

/-! ## Small states -/

/-- `D = 29`, `CAP = 3`. -/
def tiny : Params := ⟨.d29, 3, 64, 100⟩

/-- The machine `tiny` with these register values from `B0` up, the others 0. -/
def holding (vs : List Nat) : State :=
  { State.resetFor tiny with regs := Vector.ofFn fun r => canon 29 (vs.getD r.val 0) }

/-- The next state of an outcome. -/
def after : Host.Outcome State Fault Refusal → State
  | .next t => t
  | .fault f => nomatch f
  | .refused _ => State.reset

/-- `s` after the command with the word `w`. -/
def ran (s : State) (w : Nat) : State := after (step (s.withFetchWord 64 w))

/-- What a test looks at: STATUS, RESULT and the digits of one register. -/
def report (r : Reg) (t : State) : Word × Word × List Nat := (t.statusWord, t.result, t.regs[r].digits)

theorem holding_canonical (vs : List Nat) (h : ∀ r : Reg, vs.getD r.val 0 < tiny.vmax) : (holding vs).RegsCanonical := by
  intro r
  have : (holding vs).regs[r] = canon 29 (vs.getD r.val 0) := by simp [holding]
  rw [this]
  exact canon_canonical (p := tiny) (by decide) (h r)

/-! ## WellFormed: an ill-formed term for each check -/

theorem test_wf_deser_addr : (Instr.deser 1 65536 1).wf = false := by decide
theorem test_wf_deser_len : (Instr.deser 1 1 65536).wf = false := by decide
theorem test_wf_ser_addr : (Instr.ser 1 65536 1).wf = false := by decide
theorem test_wf_ser_len : (Instr.ser 1 1 65536).wf = false := by decide
theorem test_wf_adds : (Instr.adds 1 1 4294967296).wf = false := by decide
theorem test_wf_rndbits : (Instr.rndbits 1 4294967296).wf = false := by decide
theorem test_wf_sieve : (Instr.sieve 4294967296).wf = false := by decide
theorem test_wf_isprime : (Instr.isprime 1 4294967296 true).wf = false := by decide
theorem test_wf_rndprime_n : (Instr.rndprime 1 65536 1 true).wf = false := by decide
theorem test_wf_rndprime_t : (Instr.rndprime 1 1 65536 true).wf = false := by decide
theorem test_wf_largest : (Instr.rndprime 15 65535 65535 true).wf = true ∧ (Instr.adds 15 15 4294967295).wf = true := by decide

/-! ## Decoding -/

/-- match and mask of every row as spec/opcode_table.json gives them. -/
theorem test_table_rows : opcodeTable.map (fun r => (r.mnemonic, r.matchWord, r.mask)) =
      [("ZERO", 0x0100000000000000, 0xFF0FFFFFFFFFFFFF),
       ("COPY", 0x0200000000000000, 0xFF00FFFFFFFFFFFF),
       ("DESER", 0x0300000000000000, 0xFF0FFFFF00000000),
       ("SER", 0x0400000000000000, 0xFFF0FFFF00000000),
       ("SIGBITS", 0x0500000000000000, 0xFFF0FFFFFFFFFFFF),
       ("SERSIZE", 0x0600000000000000, 0xFFF0FFFFFFFFFFFF),
       ("CLRERR", 0x0700000000000000, 0xFFFFFFFFFFFFFFFF)] ++
      [("CMP", 0x1000000000000000, 0xFFF00FFFFFFFFFFF),
       ("ADD", 0x1100000000000000, 0xFF000FFFFFFFFFFF),
       ("ADDS", 0x1200000000000000, 0xFF00FFFF00000000),
       ("SUB", 0x1300000000000000, 0xFF000FFFFFFFFFFF),
       ("MUL", 0x2000000000000000, 0xFF000FFFFFFFFFFF),
       ("DIV", 0x3000000000000000, 0xFF0000FFFFFFFFFF),
       ("MOD", 0x3100000000000000, 0xFF000FFFFFFFFFFF)] ++
      [("MODPOW", 0x4000000000000000, 0xFF0000FFFFFFFFFF),
       ("MODINV", 0x4100000000000000, 0xFF000FFFFFFFFFFF),
       ("RNDBITS", 0x5000000000000000, 0xFF0FFFFF00000000),
       ("RNDLIM", 0x5100000000000000, 0xFF00FFFFFFFFFFFF),
       ("SIEVE", 0x5200000000000000, 0xFFFFFFFF00000000),
       ("ISPRIME", 0x5300000000000000, 0xFFF0FFFE00000000),
       ("RNDPRIME", 0x5400000000000000, 0xFF0FFFFE00000000)] := by
  decide

/-- P1 line 6. -/
theorem test_decode_zero : decode 0x01F0000000000000 = .ok (.zero 15) := by decide
/-- R80's layout: op 02, rd 4, ra 3. -/
theorem test_decode_copy : decode 0x0243000000000000 = .ok (.copy 4 3) := by decide
/-- P2 line 2. -/
theorem test_decode_deser : decode 0x0310000000100005 = .ok (.deser 1 16 5) := by decide
/-- P1 line 15. -/
theorem test_decode_ser : decode 0x0409000000100004 = .ok (.ser 9 16 4) := by decide
/-- P3 line 4. -/
theorem test_decode_sigbits : decode 0x0502000000000000 = .ok (.sigbits 2) := by decide
/-- R80's layout: op 06, ra 14. -/
theorem test_decode_sersize : decode 0x060E000000000000 = .ok (.sersize 14) := by decide
/-- P3 line 9. -/
theorem test_decode_clrerr : decode 0x0700000000000000 = .ok (.clrerr) := by decide
/-- P1 line 14. -/
theorem test_decode_cmp : decode 0x100A300000000000 = .ok (.cmp 10 3) := by decide
/-- P2 line 5. -/
theorem test_decode_add : decode 0x1144300000000000 = .ok (.add 4 4 3) := by decide
/-- P3 line 8. -/
theorem test_decode_adds : decode 0x1255000000000007 = .ok (.adds 5 5 7) := by decide
/-- P1 line 9. -/
theorem test_decode_sub : decode 0x1361F00000000000 = .ok (.sub 6 1 15) := by decide
/-- P1 line 10. -/
theorem test_decode_mul : decode 0x2075600000000000 = .ok (.mul 7 5 6) := by decide
/-- P2 line 3. -/
theorem test_decode_div : decode 0x3020130000000000 = .ok (.div 2 0 1 3) := by decide
/-- P2 line 10. -/
theorem test_decode_mod : decode 0x3150100000000000 = .ok (.mod 5 0 1) := by decide
/-- P1 line 13. -/
theorem test_decode_modpow : decode 0x40A9840000000000 = .ok (.modpow 10 9 8 4) := by decide
/-- P1 line 11. -/
theorem test_decode_modinv : decode 0x4182700000000000 = .ok (.modinv 8 2 7) := by decide
/-- V45.1. -/
theorem test_decode_rndbits : decode 0x5010000000000057 = .ok (.rndbits 1 87) := by decide
/-- V45.2. -/
theorem test_decode_rndlim : decode 0x5123000000000000 = .ok (.rndlim 2 3) := by decide
/-- V45.3. -/
theorem test_decode_sieve : decode 0x52000000000186A0 = .ok (.sieve 100000) := by decide
/-- P4 line 11. -/
theorem test_decode_isprime : decode 0x5302000100000003 = .ok (.isprime 2 3 true) := by decide
/-- V45.6. -/
theorem test_decode_rndprime : decode 0x54500000001D0002 = .ok (.rndprime 5 29 2 false) := by decide

/-- V30.2. -/
theorem test_illegal_words :
    [0x0000000000000000, 0xFF00000000000000, 0x0800000000000000, 0x1400000000000000, 0x0131000000000000,
      0x1120100000000001, 0x1000100100000000, 0x1120100200000000, 0x0700000000000001, 0x5200000100000064].all
      (fun w => (decodeTableWord 64 w).isNone && (ran (holding []) w).statusWord == 0x86) = true := by
  decide

/-- R86, P1 line 7 and V30.1. -/
theorem test_assemble :
    assemble "ADDS B15, B15, #1".toList = some 0x12FF000000000001 ∧
    assemble "RNDPRIME B0, #512, #0x14, SV ; search".toList = some 0x5400000102000014 ∧
    assemble "ZERO B16".toList = none := by
  decide +kernel

/-! ## The commands -/

/-- V40.1. -/
theorem test_zero : report 3 (ran (holding [0, 0, 0, 12345]) 0x0130000000000000) = (0, 0, [0]) := by decide
/-- V40.1. -/
theorem test_copy : report 4 (ran (holding [0, 0, 0, 12345]) 0x0243000000000000) = (0, 0, [12345]) := by decide

/-- `tiny` with `FF` ten times and `7F` in MEM from address 0 (V40.3). -/
def filled : State := (holding []).memWrite 0 (List.replicate 10 0xFF ++ [0x7F])

/-- V40.3. -/
theorem test_deser : report 0 (ran filled 0x030000000000000B) = (0, 0, [0x1FFFFFFF, 0x1FFFFFFF, 0x1FFFFFFF]) := by
  decide +kernel
/-- V40.3, with `MEMSIZE = 64`. -/
theorem test_deser_bad_address : report 1 (ran filled 0x03100000003F0002) = (0x96, 0xFFFFFFFF, [0]) := by decide
/-- S2: the wire bytes of 9876543210. -/
theorem test_ser : (ran (holding [9876543210]) 0x0400000000100005).mem =
    [(16, 0xEA), (17, 0x16), (18, 0xB0), (19, 0x4C), (20, 0x02)] := by decide
/-- R104: five bytes do not fit in four. -/
theorem test_ser_too_small : (ran (holding [9876543210]) 0x0400000000100004).statusWord = 0x36 := by decide
/-- P3 line 4. -/
theorem test_sigbits : (ran (holding [0, 0, 2 ^ 58]) 0x0502000000000000).result = 59 := by decide
/-- V40.2. -/
theorem test_sersize : (ran (holding [2 ^ 29]) 0x0600000000000000).result = 4 := by decide
/-- P3 lines 7 and 9. -/
theorem test_clrerr : (ran (ran (holding [5, 7]) 0x1340100000000000) 0x0700000000000000).statusWord = 0 := by decide
/-- P2 line 7: RESULT is −1 and no error is reported. -/
theorem test_cmp : report 0 (ran (holding [5, 7]) 0x1000100000000000) = (0, 0xFFFFFFFF, [5]) := by decide
/-- S1. -/
theorem test_add : report 2 (ran (holding [2 ^ 58 - 1, 1]) 0x1120100000000000) = (0, 0, [0, 0, 1]) := by decide
/-- R121: the sum `2^87` does not fit. -/
theorem test_add_capacity : (ran (holding [2 ^ 87 - 1, 1]) 0x1120100000000000).statusWord = 0x16 := by decide
/-- By hand: `2^32 = 8·2^29`. -/
theorem test_adds : report 5 (ran (holding [0, 1]) 0x12510000FFFFFFFF) = (0, 0, [0, 8]) := by decide
/-- V41.6. -/
theorem test_sub : report 2 (ran (holding [2 ^ 58, 1]) 0x1320100000000000) = (0, 0, [0x1FFFFFFF, 0x1FFFFFFF]) := by decide
/-- V41.6. -/
theorem test_sub_underflow : report 2 (ran (holding [5, 7]) 0x1320100000000000) = (0x56, 0xFFFFFFFF, [0]) := by decide
/-- V42.3. -/
theorem test_mul : report 2 (ran (holding [2 ^ 58 - 1, 2 ^ 29 - 1]) 0x2020100000000000) =
    (0, 0, [0x1, 0x1FFFFFFF, 0x1FFFFFFE]) := by decide
/-- V42.3: CAPACITY although the product has three digits. -/
theorem test_mul_capacity : (ran (holding [2 ^ 29, 2 ^ 29]) 0x2020100000000000).statusWord = 0x16 := by decide
/-- V43.4. -/
theorem test_div : let t := ran (holding [2 ^ 58, 2 ^ 29 + 2]) 0x3020130000000000
    report 2 t = (0, 0, [0x1FFFFFFE]) ∧ t.regs[3].digits = [4] := by decide
/-- V43.7: the alias is found before the zero divisor. -/
theorem test_div_alias : (ran (holding [9, 5]) 0x3010210000000000).statusWord = 0x46 := by decide
/-- V43.2. -/
theorem test_mod : report 5 (ran (holding [7 + 10 * 2 ^ 29, 5]) 0x3150100000000000) = (0, 0, [2]) := by decide
/-- V43.7. -/
theorem test_mod_by_zero : (ran (holding [9]) 0x3120100000000000).statusWord = 0x66 := by decide
/-- V44.1. -/
theorem test_modpow : report 3 (ran (holding [4, 13, 497]) 0x4030120000000000) = (0, 0, [445]) := by decide
/-- V44.2. -/
theorem test_modpow_alias : (ran (holding [9]) 0x4020020000000000).statusWord = 0x46 := by decide
/-- V44.3. -/
theorem test_modinv : report 2 (ran (holding [7, 40]) 0x4120100000000000) = (0, 0, [23]) := by decide
/-- V44.3. -/
theorem test_modinv_none : (ran (holding [6, 9]) 0x4120100000000000).statusWord = 0x76 := by decide
/-- V45.1. -/
theorem test_rndbits : report 1 (ran { holding [] with rand := [2 ^ 86 + 5] } 0x5010000000000057) =
    (0, 0, [5, 0, 0x10000000]) := by decide
/-- V45.1. -/
theorem test_rndbits_too_few : report 1 (ran (holding [1, 2]) 0x501000000000001C) = (0x26, 0xFFFFFFFF, [2]) := by decide
/-- V45.2. -/
theorem test_rndlim : report 1 (ran { holding [10] with rand := [9] } 0x5110000000000000) = (0, 0, [9]) := by decide
/-- V45.2. -/
theorem test_rndlim_zero : (ran (holding [1]) 0x5123000000000000).statusWord = 0x26 := by decide
/-- V45.3. -/
theorem test_sieve : let t := ran (holding []) 0x520000000000001E
    t.statusWord = 0x08 ∧ t.result = 9 ∧ t.sieve = [3, 5, 7, 11, 13, 17, 19, 23, 29] := by decide
/-- V45.3: the bound is exclusive. -/
theorem test_sieve_exclusive : (ran (holding []) 0x5200000000000005).sieve = [3] := by decide
/-- V45.4: a false accept is legal. -/
theorem test_isprime_false_accept :
    (ran { holding [0, 0, 25] with rand := [7, 18, 7] } 0x5302000000000003).result = 1 := by decide
/-- V45.4: rejected by the first draw, the second is left. -/
theorem test_isprime_reject : let t := ran { holding [0, 0, 25] with rand := [2, 7] } 0x5302000000000003
    t.result = 0 ∧ t.statusWord = 0 ∧ t.rand = [7] := by decide
/-- V45.6: the candidate is rejected and BUSY stays 1. -/
theorem test_rndprime_reject : let t := ran { holding [] with rand := [2 ^ 28, 3] } 0x54500000001D0002
    t.statusWord = 0x01 ∧ t.running = some 0x54500000001D0002 ∧ t.rand = [] := by decide +kernel
/-- V45.6: the next candidate is accepted. -/
theorem test_rndprime_accept : report 5 (ran { holding [] with rand := [2 ^ 28 + 2, 2, 3] } 0x54500000001D0002) =
    (0, 0, [268435459]) := by decide +kernel

/-! ## Reset and the host -/

/-- V70.1. -/
theorem test_reset : State.reset.statusWord = 0 ∧ State.reset.result = 0 ∧ State.reset.paramWord = 0x00A0101D := by decide
/-- V70.2: a command issued while BUSY is 1 is dropped. -/
theorem test_issue_busy : (after (step { holding [] with running := some 7, host := [⟨.afterSteps 0, .issue 9⟩] })).running =
    some 7 := by decide
/-- R43: a read of STATUS while BUSY is 1. -/
theorem test_read_status_busy :
    (after (step { holding [] with running := some 7, host := [⟨.afterSteps 0, .readStatus⟩] })).replies = [.status 1] := by
  decide
/-- R250: Reset ends the running command; the registers become 0. -/
theorem test_host_reset : let t := after (step { holding [4] with running := some 7, host := [⟨.afterSteps 0, .reset⟩] })
    t.busy = false ∧ t.regs[0].digits = [0] := by decide
/-- R74: the host writes and reads a byte of MEM. -/
theorem test_host_mem : (after (step { filled with host := [⟨.whenIdle, .memRead 10⟩] })).replies = [.memByte 0x7F] ∧
    (after (step { filled with host := [⟨.whenIdle, .memWrite 63 5⟩] })).readByte 63 = 5 := by decide

/-! ## The digit level -/

/-- S2, `D = 29`. -/
theorem test_div_digits :
    divDigits 29 [0xE3F0AD2, 0x1B9F0772, 0x1A43FDB0, 0x31D] [0xCB016EA, 0x12] =
      ([0x118C0B66, 0xBC75D5B, 0x2B], [0x1D21DB96, 0x2]) := by decide +kernel
/-- V40.2: the value `0x123456789ABCDEF` in bytes. -/
theorem test_convert : convert [0x9ABCDEF, 0x91A2B3C] 29 57 8 = [0xEF, 0xCD, 0xAB, 0x89, 0x67, 0x45, 0x23, 0x01] := by
  decide +kernel
/-- S1, V41.6, V42.1. -/
theorem test_add_sub_mul_digits : addDigits 29 3 [0x1FFFFFFF, 0x1FFFFFFF] [1] = some [0, 0, 1] ∧
    subDigits 29 [3, 0, 0, 1] [4] = [0x1FFFFFFF, 0x1FFFFFFF, 0x1FFFFFFF] ∧
    mulDigits 29 6 [0x1FFFFFFF, 0x1FFFFFFF] [0x1FFFFFFF, 0x1FFFFFFF] = some [1, 0, 0x1FFFFFFE, 0x1FFFFFFF] := by
  decide +kernel
/-- V45.3. -/
theorem test_eratosthenes : eratosthenes 30 = [3, 5, 7, 11, 13, 17, 19, 23, 29] := by decide +kernel

/-! ## Witnesses: something meets the hypotheses of each obligation, for each of its clauses -/

theorem witness_DecodeOfEncode : (Instr.rndprime 15 65535 65535 true).wf = true ∧ (Instr.sieve 4294967295).wf = true := by
  decide
theorem witness_EncodeOfDecode : ∃ w i, decode w = .ok i := ⟨0x54500001001D0002, .rndprime 5 29 2 true, by decide⟩
theorem witness_WordIsOfRowIffMaskMatches :
    (∃ r ∈ opcodeTable, (0x1120100000000000 : CmdWord) &&& r.mask = r.matchWord) ∧
    ∀ r ∈ opcodeTable, (0x1120100000000001 : CmdWord) &&& r.mask ≠ r.matchWord := by decide
theorem witness_IllegalWordRetiresAlone : ∃ (s : State) (w : CmdWord) (e : IllegalWord),
    s.running = some w ∧ s.dueAction = none ∧ decode w = .error e :=
  ⟨(holding [1]).issued 0x1120100200000000, 0x1120100200000000, .reservedBitSet, by decide⟩
/-- The hypothesis of `EncodedAs`, and both kinds of illegal word beside a legal one. -/
theorem witness_EncodedAs :
    [0x1120100000000000, 0x1120100200000000, 0x1120100000000001].all
      (fun w : CmdWord => (Fields.ofWord w).op == 0x11) = true ∧
    (Fields.ofWord 0x1120100200000000).zero ≠ 0 ∧ Format.DAB.unusedAreZero (Fields.ofWord 0x1120100000000001) = false := by
  decide
theorem witness_AssemblerLineStandsForInstr : ∃ (l : AsmLine) (i : Instr), l.toInstr = some i ∧ Machine.Instr.toLine i = l :=
  ⟨⟨['I', 'S', 'P', 'R', 'I', 'M', 'E'], [.reg 0, .imm 20, .sv]⟩, .isprime 0 20 true, by decide⟩
theorem witness_StepRunsDecodedInstr : ∃ (s : State) (w : CmdWord) (i : Instr),
    s.running = some w ∧ s.dueAction = none ∧ decode w = .ok i ∧ s.host ≠ [] :=
  ⟨{ holding [1] with running := some 0x1120100000000000, host := [⟨.whenIdle, .readResult⟩] }, 0x1120100000000000,
    .add 2 0 1, by decide⟩
theorem witness_FetchedWordRunsNext : ∃ nbits w i, decodeTableWord nbits w = some i :=
  ⟨64, 0x1120100000000000, .add 2 0 1, by decide⟩

/-- A running command and the host acting now. -/
def interrupted (a : HostAction) : State := { filled with running := some 0x54500000001D0002, host := [⟨.afterSteps 0, a⟩] }

/-- The block idle and the host to act. -/
def asked (a : HostAction) : State := { filled with host := [⟨.whenIdle, a⟩] }

theorem witness_IssueTakenIdleDroppedBusy :
    (∃ s w time es, State.host s = ⟨time, .issue w⟩ :: es ∧ s.busy = false ∧
      State.dueAction { s with running := some w, host := es } = none) ∧
    ∃ s w es, State.host s = ⟨.afterSteps 0, .issue w⟩ :: es ∧ s.busy = true :=
  ⟨⟨asked (.issue 5), 5, .whenIdle, [], by decide⟩, interrupted (.issue 5), 5, [], by decide⟩
theorem witness_HostActionsTakeEffect :
    (∀ a : HostAction, (asked a).host = ⟨.whenIdle, a⟩ :: [] ∧ (asked a).busy = false) ∧
    (∀ a : HostAction, (interrupted a).host = ⟨.afterSteps 0, a⟩ :: [] ∧ (interrupted a).busy = true) ∧
    63 < filled.par.memSize ∧ filled.par.memSize ≤ 64 := by
  refine ⟨fun _ => ⟨rfl, rfl⟩, fun _ => ⟨rfl, rfl⟩, ?_⟩
  decide
theorem witness_OnlyResetDisturbsACommand : ∃ (s : State) (e : HostEvent) (es : List HostEvent),
    s.host = e :: es ∧ s.busy = true ∧ e.time = .afterSteps 0 ∧ e.act ≠ .reset :=
  ⟨interrupted (.memWrite 3 7), ⟨.afterSteps 0, .memWrite 3 7⟩, [], by decide⟩
theorem witness_ResetAtAnyTime :
    (∃ s time es, State.host s = ⟨time, .reset⟩ :: es ∧ s.busy = false) ∧
    ∃ s es, State.host s = ⟨.afterSteps 0, .reset⟩ :: es ∧ s.busy = true :=
  ⟨⟨asked .reset, .whenIdle, [], by decide⟩, interrupted .reset, [], by decide⟩
theorem witness_ParamIsConstant : (holding []).par.Legal ∧ ∃ t, step (asked .readParam) = .next t := ⟨by decide, _, rfl⟩
theorem witness_EveryRetireReports :
    (∃ i s t, exec i s = .next t ∧ t.running = none ∧ t.status.err = true ∧ i ≠ .clrerr) ∧
    (∃ i s t, exec i s = .next t ∧ t.running = none ∧ t.status.err = false ∧ i ≠ .clrerr) ∧
    ∃ i s t, exec i s = .next t ∧ t.running = none ∧ i = .clrerr :=
  ⟨⟨.sub 2 0 1, holding [5, 7], _, rfl, by decide⟩, ⟨.sub 2 1 0, holding [5, 7], _, rfl, by decide⟩,
    .clrerr, holding [], _, rfl, by decide⟩
theorem witness_ErrorMatrix :
    (∃ i s t, exec i s = .next t ∧ t.running = none ∧ t.status.err = true) ∧
    ∃ i c, c ∈ reportable i := ⟨⟨.sub 2 0 1, holding [5, 7], _, rfl, by decide⟩, .ser 0 0 0, .badAddress, by decide⟩
theorem witness_StateAfterAnError :
    (∃ w e, decode w = .error e) ∧
    (∃ i s t, s.par.Legal ∧ s.RegsCanonical ∧ exec i s = .next t ∧ t.running = none ∧ t.status.err = true ∧
      t.status.ecode = .divByZero) ∧
    (∃ n s t, s.par.Legal ∧ s.RegsCanonical ∧ exec (.sieve n) s = .next t ∧ t.running = none ∧ t.status.err = true ∧
      t.status.ecode = .capacity) ∧
    ∃ i s t, s.par.Legal ∧ s.RegsCanonical ∧ exec i s = .next t ∧ t.running = none ∧ t.status.err = true ∧
      t.status.ecode = .notInvertible :=
  ⟨⟨0x1120100000000001, .unusedFieldSet, by decide⟩, ⟨.mod 2 0 1, holding [9], _, by decide, holding_canonical _ (by decide), rfl, by decide⟩,
    ⟨101, holding [], _, by decide, holding_canonical _ (by decide), rfl, by decide⟩,
    .modinv 2 0 1, holding [6, 9], _, by decide, holding_canonical _ (by decide), rfl, by decide⟩
theorem witness_OnlyDestinationsChange : ∃ i s t, exec i s = .next t := ⟨.div 2 0 1 3, holding [9, 5], _, rfl⟩
theorem witness_OnlySerStores :
    (∃ s t, exec (.ser 0 16 5) s = .next t ∧ t.status.err = false ∧ storedBytes (.ser 0 16 5) s = (16, 5)) ∧
    ∃ s t, exec (.ser 0 16 4) s = .next t ∧ t.status.err = true ∧ t.running = none :=
  ⟨⟨holding [9876543210], _, rfl, by decide⟩, holding [9876543210], _, rfl, by decide⟩
theorem witness_OnlySieveWritesTheTable :
    (∃ i s t, exec i s = .next t ∧ ∀ n, i ≠ .sieve n) ∧ ∃ n s t, exec (.sieve n) s = .next t :=
  ⟨⟨.rndlim 1 0, holding [9], _, rfl, by simp⟩, 30, holding [], _, rfl⟩
theorem witness_OnlyRndprimeMayNotRetire : ∃ i : Instr, i.mnemonic ≠ "RNDPRIME" := ⟨.isprime 0 3 false, by decide⟩
theorem witness_ResetMeetsInv : tiny.Legal := by decide

/-- A state of the invariant with a table, MEM contents and an error on record. -/
def lived : State :=
  { filled with sieve := [3, 5, 7], status := ⟨true, true, true, .divByZero⟩, result := 0xFFFFFFFF,
                running := some 0x1120100000000000 }

theorem lived_inv : lived.Inv where
  legal := by decide
  regs := holding_canonical [] (by decide)
  memForm := by decide
  memRange := by decide
  sieveSorted := by decide
  sievePrimes := by decide
  sieveEmpty := by decide
  errCode := by decide
  errSticky := by decide
  errResult := by decide

theorem witness_StepKeepsInv : ∃ s t, State.Inv s ∧ step s = .next t := ⟨lived, _, lived_inv, rfl⟩
theorem witness_RegisterIsItsValue : (tiny.Legal ∧ 2 ^ 87 - 1 < tiny.vmax) ∧
    ∃ b c : Bigint, b.Canonical tiny ∧ c.Canonical tiny ∧ b ≠ c :=
  ⟨by decide, canon 29 (2 ^ 87 - 1), canon 29 0, canon_canonical (p := tiny) (by decide) (by decide),
    canon_canonical (p := tiny) (by decide) (by decide), by decide⟩
theorem witness_CopyCopiesTheDigits :
    (∃ (s : State) (rd ra : Reg), s.regs[ra].Canonical s.par ∧ rd ≠ ra) ∧
    ∃ (s : State) (rd ra : Reg), s.regs[ra].Canonical s.par ∧ rd = ra :=
  ⟨⟨holding [2 ^ 87 - 1], 1, 0, holding_canonical _ (by decide) 0, by decide⟩,
    holding [2 ^ 87 - 1], 0, 0, holding_canonical _ (by decide) 0, rfl⟩
theorem witness_DeserLoadsTheBytes :
    (∃ s addr len, (State.par s).Legal ∧ s.par.memSize < addr + len) ∧
    (∃ s addr len, (State.par s).Legal ∧ addr + len ≤ s.par.memSize ∧
      s.vmax ≤ ∑ j ∈ Finset.range len, (s.readByte (addr + j)).toNat * 2 ^ (8 * j)) ∧
    ∃ s addr len, (State.par s).Legal ∧ addr + len ≤ s.par.memSize ∧
      ∑ j ∈ Finset.range len, (s.readByte (addr + j)).toNat * 2 ^ (8 * j) < s.vmax :=
  ⟨⟨filled, 63, 2, by decide⟩, ⟨filled.memWrite 53 (List.replicate 11 0xFF), 53, 11, by decide +kernel⟩,
    filled, 0, 11, by decide +kernel⟩
theorem witness_SerStoresTheBytes :
    (∃ s addr len, (State.par s).Legal ∧ s.par.memSize < addr + len) ∧
    (∃ s ra addr len, (State.par s).Legal ∧ addr + len ≤ s.par.memSize ∧ len < ceilDiv (bitlen (s.value ra)) 8) ∧
    ∃ s ra addr len, (State.par s).Legal ∧ addr + len ≤ s.par.memSize ∧ ceilDiv (bitlen (s.value ra)) 8 ≤ len :=
  ⟨⟨filled, 60, 5, by decide⟩, ⟨holding [9876543210], 0, 60, 4, by decide⟩, holding [9876543210], 0, 59, 5, by decide⟩
theorem witness_SigbitsCountsTheBits :
    (∃ s ra, (State.par s).Legal ∧ s.regs[(ra : Reg)].Canonical s.par ∧ s.value ra = 0) ∧
    ∃ s ra, (State.par s).Legal ∧ s.regs[(ra : Reg)].Canonical s.par ∧ s.value ra ≠ 0 :=
  ⟨⟨holding [5], 1, by decide, holding_canonical _ (by decide) 1, by decide⟩,
    holding [2 ^ 87 - 1], 0, by decide, holding_canonical _ (by decide) 0, by decide⟩
theorem witness_SersizeCountsTheBytes :
    (∃ s ra, (State.par s).Legal ∧ s.regs[(ra : Reg)].Canonical s.par ∧ s.value ra = 0) ∧
    ∃ s ra, (State.par s).Legal ∧ s.regs[(ra : Reg)].Canonical s.par ∧ s.value ra ≠ 0 :=
  witness_SigbitsCountsTheBits
theorem witness_SerializationRoundTrips :
    (∃ s ra addr len, (State.par s).Legal ∧ s.regs[(ra : Reg)].Canonical s.par ∧
      ceilDiv (bitlen (s.value ra)) 8 ≤ len ∧ addr + len ≤ s.par.memSize) ∧
    (∃ s addr len, (State.par s).Legal ∧ addr + len ≤ s.par.memSize ∧ wireValue (s.memRead addr len) < s.vmax ∧
      s.readByte (addr + len - 1) ≠ 0) ∧
    ∃ s addr len, (State.par s).Legal ∧ addr + len ≤ s.par.memSize ∧ wireValue (s.memRead addr len) < s.vmax ∧
      len ≠ 0 ∧ s.readByte (addr + len - 1) = 0 :=
  ⟨⟨holding [9876543210], 0, 59, 5, by decide, holding_canonical _ (by decide) 0, by decide⟩,
    ⟨filled, 0, 11, by decide +kernel⟩, filled.memWrite 10 [0], 0, 11, by decide +kernel⟩
theorem witness_ConvertGivesTheDigits : ∃ (src : List Nat) (S R : Nat), 0 < S ∧ 0 < R ∧ ∀ d ∈ src, d < 2 ^ S :=
  ⟨[0x9ABCDEF, 0x91A2B3C], 29, 8, by decide⟩
theorem witness_CmpComparesValues : (holding [5, 7]).RegsCanonical ∧ (holding [5, 7]).value 0 < (holding [5, 7]).value 1 :=
  ⟨holding_canonical _ (by decide), by decide⟩
theorem witness_AddGivesTheSum :
    (∃ s ra rb, (State.par s).Legal ∧ s.value ra + s.value rb < s.vmax) ∧
    ∃ s ra rb, (State.par s).Legal ∧ s.RegsCanonical ∧ s.vmax ≤ s.value ra + s.value rb :=
  ⟨⟨holding [2 ^ 87 - 2, 1], 0, 1, by decide⟩, holding [2 ^ 87 - 1, 1], 0, 1, by decide, holding_canonical _ (by decide),
    by decide⟩
theorem witness_AddsAddsTheScalar :
    (∃ s ra u, (State.par s).Legal ∧ s.value ra + u < s.vmax ∧ u < 2 ^ 32 ∧ s.regs[(ra : Reg)].Canonical s.par) ∧
    ∃ s ra u, (State.par s).Legal ∧ s.vmax ≤ s.value ra + u :=
  ⟨⟨holding [2 ^ 87 - 2 ^ 32], 0, 2 ^ 32 - 1, by decide, by decide, by decide,
      holding_canonical _ (by decide) 0⟩, holding [2 ^ 87 - 1], 0, 1, by decide⟩
theorem witness_SubGivesTheDifference :
    (∃ s ra rb, (State.par s).Legal ∧ s.regs[(ra : Reg)].Canonical s.par ∧ s.value ra < s.value rb) ∧
    ∃ s ra rb, (State.par s).Legal ∧ s.regs[(ra : Reg)].Canonical s.par ∧ s.value rb ≤ s.value ra :=
  ⟨⟨holding [6, 7], 0, 1, by decide, holding_canonical _ (by decide) 0, by decide⟩,
    holding [7, 7], 0, 1, by decide, holding_canonical _ (by decide) 0, by decide⟩

/-- Two canonical values of `tiny`. -/
theorem tiny_pair (v w : Nat) (hv : v < tiny.vmax) (hw : w < tiny.vmax) :
    (canon 29 v).Canonical tiny ∧ (canon 29 w).Canonical tiny :=
  ⟨canon_canonical (p := tiny) (by decide) hv, canon_canonical (p := tiny) (by decide) hw⟩

theorem witness_AddDigitsAgree : ∃ p a b, Params.Legal p ∧ Bigint.Canonical p a ∧ Bigint.Canonical p b :=
  ⟨tiny, _, _, by decide, tiny_pair (2 ^ 87 - 1) 1 (by decide) (by decide)⟩
theorem witness_SubDigitsAgree : ∃ p a b, Bigint.Canonical p a ∧ Bigint.Canonical p b ∧
    b.val p.digitBits ≤ a.val p.digitBits :=
  ⟨tiny, canon 29 (2 ^ 58), canon 29 1, (tiny_pair (2 ^ 58) 1 (by decide) (by decide)).1,
    (tiny_pair (2 ^ 58) 1 (by decide) (by decide)).2, by decide⟩
theorem witness_MulGivesTheProduct :
    (∃ s ra rb, (State.par s).Legal ∧ s.regs[(ra : Reg)].Canonical s.par ∧ s.regs[(rb : Reg)].Canonical s.par ∧
      (s.value ra = 0 ∨ s.value rb = 0)) ∧
    (∃ s ra rb, (State.par s).Legal ∧ s.regs[(ra : Reg)].Canonical s.par ∧ s.regs[(rb : Reg)].Canonical s.par ∧
      s.value ra ≠ 0 ∧ s.value rb ≠ 0 ∧ s.par.cap < s.regs[ra].length + s.regs[rb].length) ∧
    ∃ s ra rb, (State.par s).Legal ∧ s.regs[(ra : Reg)].Canonical s.par ∧ s.regs[(rb : Reg)].Canonical s.par ∧
      s.value ra ≠ 0 ∧ s.value rb ≠ 0 ∧ s.regs[ra].length + s.regs[rb].length ≤ s.par.cap :=
  ⟨⟨holding [2 ^ 87 - 1], 0, 1, by decide, holding_canonical _ (by decide) 0, holding_canonical _ (by decide) 1, by decide⟩,
    ⟨holding [2 ^ 29, 2 ^ 29], 0, 1, by decide, holding_canonical _ (by decide) 0, holding_canonical _ (by decide) 1,
      by decide⟩,
    holding [2 ^ 58 - 1, 2 ^ 29 - 1], 0, 1, by decide, holding_canonical _ (by decide) 0,
      holding_canonical _ (by decide) 1, by decide⟩
theorem witness_MulDigitsAgree : ∃ p a b, Bigint.Canonical p a ∧ Bigint.Canonical p b :=
  ⟨tiny, _, _, tiny_pair (2 ^ 58 - 1) (2 ^ 29 - 1) (by decide) (by decide)⟩
theorem witness_MulColumnsFit : ∃ p a b, Bigint.Canonical p a ∧ Bigint.Canonical p b ∧
    ∃ x, x ∈ mulColumns a.digits b.digits :=
  ⟨tiny, canon 29 (2 ^ 58 - 1), canon 29 7, (tiny_pair (2 ^ 58 - 1) 7 (by decide) (by decide)).1,
    (tiny_pair (2 ^ 58 - 1) 7 (by decide) (by decide)).2, 7 * (2 ^ 29 - 1), by decide +kernel⟩
theorem witness_DivGivesQuotientAndRemainder :
    let clash (rd ra rb rc : Reg) := rd = ra ∨ rd = rb ∨ rd = rc ∨ rc = ra ∨ rc = rb
    (holding [9, 5]).par.Legal ∧ (holding [9, 5]).RegsCanonical ∧ clash 2 0 1 1 ∧ ¬ clash 2 0 1 3 ∧
      (holding [9, 5]).value 1 ≠ 0 ∧ ¬ clash 3 1 2 4 ∧ (holding [9, 5]).value 2 = 0 :=
  ⟨by decide, holding_canonical _ (by decide), by decide⟩
theorem witness_ModGivesTheRemainder :
    (holding [9, 5]).par.Legal ∧ (holding [9, 5]).RegsCanonical ∧ (0 : Reg) ≠ 1 ∧ (2 : Reg) ≠ 0 ∧ (2 : Reg) ≠ 1 ∧
      (holding [9, 5]).value 1 ≠ 0 ∧ (holding [9, 5]).value 3 = 0 :=
  ⟨by decide, holding_canonical _ (by decide), by decide⟩
theorem witness_DivDigitsAgree : ∃ a b : Nat, b ≠ 0 ∧ b < a := ⟨2 ^ 200, 2 ^ 29 + 2, by decide⟩
theorem witness_EstimateIsClose : ∃ (w : DigitWidth) (r b : Nat), b ≠ 0 ∧ b < r ∧ r < b * 2 ^ w.bits ∧
    4 < digitLen w.bits r :=
  ⟨.d29, 2 ^ 175, 2 ^ 150 - 1, by decide +kernel⟩
theorem witness_ModpowGivesThePower :
    let clash (rd ra rb rc : Reg) := rd = ra ∨ rd = rb ∨ rd = rc
    (holding [4, 13, 497]).par.Legal ∧ (holding [4, 13, 497]).RegsCanonical ∧ clash 2 0 1 2 ∧ ¬ clash 3 0 1 2 ∧
      (holding [4, 13, 497]).value 2 ≠ 0 ∧ ¬ clash 3 0 1 4 ∧ (holding [4, 13, 497]).value 4 = 0 :=
  ⟨by decide, holding_canonical _ (by decide), by decide⟩
theorem witness_ModinvGivesTheInverse :
    let s := holding [7, 40, 1, 6, 9]
    s.par.Legal ∧ s.RegsCanonical ∧ s.value 15 = 0 ∧ s.value 2 = 1 ∧
      (2 ≤ s.value 1 ∧ Nat.gcd (s.value 0) (s.value 1) = 1) ∧ 2 ≤ s.value 4 ∧ Nat.gcd (s.value 3) (s.value 4) ≠ 1 :=
  ⟨by decide, holding_canonical _ (by decide), by decide⟩
theorem witness_RndbitsDrawsExactlyNBits :
    (holding []).par.Legal ∧ 28 < (holding []).digitBits ∧ (holding []).digitBits * (holding []).par.cap < 88 ∧
      (holding []).digitBits ≤ 87 ∧ 87 ≤ (holding []).digitBits * (holding []).par.cap ∧ 2 ^ (87 - 1) ≤ 2 ^ 87 - 1 := by
  decide
theorem witness_RndlimDrawsBelowTheLimit :
    (holding [10]).par.Legal ∧ (holding [10]).RegsCanonical ∧ (1 : Reg) ≠ 0 ∧ (holding [10]).value 2 = 0 ∧
      9 < (holding [10]).value 0 :=
  ⟨by decide, holding_canonical _ (by decide), by decide⟩
theorem witness_SieveBuildsTheTable :
    (holding []).par.Legal ∧ 2 < 3 ∧ (holding []).par.sieveNmax < 101 ∧ 3 ≤ 100 ∧ 100 ≤ (holding []).par.sieveNmax := by
  decide
theorem witness_IsprimeRunsTheFermatTest :
    let s := { holding [25, 3] with sieve := [3, 5, 7], status := ⟨false, false, true, .ok⟩ }
    s.value 1 < 4 ∧ ¬ ((3 : Nat) < 1 ∨ (true = true ∧ s.status.sieveValid = false) ∨ s.value 0 < 4) ∧
      SieveHit s.sieve true (s.value 0) ∧ ¬ SieveHit s.sieve false (s.value 0) ∧
      [7, 18, 7].length = 3 ∧ (∀ w ∈ [7, 18, 7], 2 ≤ w ∧ w ≤ s.value 0 - 2) ∧
      (∀ w ∈ [7, 18, 7], w ^ (s.value 0 - 1) % s.value 0 = 1) ∧
      ¬ (∀ w ∈ [7, 2, 7], w ^ (s.value 0 - 1) % s.value 0 = 1) := by
  refine ⟨by decide, by decide, ⟨rfl, 5, by decide⟩, fun h => absurd h.1 (by decide), ?_⟩
  decide +kernel
theorem witness_PrimesAreAlwaysAccepted :
    let s := { holding [7] with sieve := [3, 5, 7], status := ⟨false, false, true, .ok⟩ }
    (s.value 0).Prime ∧ 5 ≤ s.value 0 ∧ s.status.sieveValid = true ∧ ∀ q ∈ s.sieve, q.Prime := by
  refine ⟨?_, by decide⟩
  show (7 : Nat).Prime
  decide
theorem witness_PossibleVerdicts :
    4 ≤ (holding [25]).value 0 ∧ (false = true → (holding [25]).status.sieveValid = true) ∧
      Passes ((holding [25]).value 0) 7 ∧ (2 ≤ 2 ∧ 2 ≤ (holding [25]).value 0 - 2) ∧
      2 ^ ((holding [25]).value 0 - 1) % (holding [25]).value 0 ≠ 1 :=
  ⟨by decide, by decide, ⟨by decide, by decide +kernel⟩, by decide, by decide +kernel⟩
theorem witness_RndprimeRunsOneRound :
    let s := holding []
    s.par.Legal ∧ 28 < s.digitBits ∧ ¬ (29 < s.digitBits ∨ 2 < 1 ∨ (false = true ∧ s.status.sieveValid = false)) ∧
      s.digitBits * s.par.cap < 88 ∧ 29 ≤ s.digitBits * s.par.cap ∧
      2 ^ 28 ≤ 2 ^ 28 + 2 ∧ 2 ^ 28 + 2 ≤ 2 ^ 29 - 1 ∧ (∀ w ∈ [2, 3], 2 ≤ w ∧ w ≤ ((2 ^ 28 + 2) ||| 1) - 2) ∧
      ∀ w ∈ [3, 3], 2 ≤ w ∧ w ≤ (2 ^ 28 ||| 1) - 2 := by
  decide +kernel
theorem witness_RndprimePossibleResults :
    let s := holding []
    s.par.Legal ∧ s.digitBits ≤ 31 ∧ 31 ≤ s.digitBits * s.par.cap ∧ (∀ q ∈ s.sieve, q.Prime) ∧
      Nat.Prime (2 ^ 31 - 1) ∧ bitlen (2 ^ 31 - 1) = 31 ∧ (2 ^ 31 - 1) % 2 = 1 ∧ ¬ SieveHit s.sieve false (2 ^ 31 - 1) :=
  ⟨by decide, by decide, by decide, by decide, lucas_lehmer_sufficiency 31 (by decide) (by norm_num), by decide, by decide,
    fun h => absurd h.1 (by decide)⟩

end Sys2Proof.Tests.Slice0
end

section
/-! PROOFS. The family of 10_state.md: what each action of the host does (R43), the fields of PARAM and that no step
changes it (R30), and a register's content as the number it holds (R23). -/

namespace Sys2Proof.Machine

/-! ## The digits of a number as a sum (R23) -/

theorem digitsVal_eq_sum (S : Nat) (ds : List Nat) :
    digitsVal S ds = ∑ k ∈ Finset.range ds.length, ds.getD k 0 * 2 ^ (S * k) := by
  induction ds with
  | nil => rfl
  | cons d ds ih =>
    rw [digitsVal_cons, List.length_cons, Finset.sum_range_succ', ih, Finset.mul_sum, Nat.add_comm]
    congr 1
    · refine Finset.sum_congr rfl fun k _ => ?_
      rw [List.getD_cons_succ, Nat.mul_succ, Nat.pow_add]
      ring
    · simp

/-- A canonical content is determined by the number it holds. -/
theorem Bigint.Canonical.val_inj {p : Params} {b c : Bigint} (hb : b.Canonical p) (hc : c.Canonical p) :
    b.val p.digitBits = c.val p.digitBits ↔ b = c :=
  ⟨fun h => by rw [← canon_val hb, h, canon_val hc], fun h => h ▸ rfl⟩

/-! ## The fields of PARAM (R30) -/

@[simp] theorem toNat_fieldAt_zero {n w : Nat} (b : BitVec n) (h : n ≤ w) : (fieldAt w 0 b).toNat = b.toNat := by
  simpa [fieldAt] using Nat.mod_eq_of_lt (b.isLt.trans_le (Nat.pow_le_pow_right (by decide) h))

/-- A field above the bits of a word is a summand. -/
theorem toNat_fieldAt_or {n w lo : Nat} (b : BitVec n) {x : BitVec w} (hw : lo + n ≤ w) (hx : x.toNat < 2 ^ lo) :
    (fieldAt w lo b ||| x).toNat = b.toNat * 2 ^ lo + x.toNat := by
  have hb : b.toNat * 2 ^ lo < 2 ^ w :=
    calc b.toNat * 2 ^ lo < 2 ^ n * 2 ^ lo := Nat.mul_lt_mul_of_pos_right b.isLt (Nat.two_pow_pos lo)
      _ = 2 ^ (lo + n) := by rw [← Nat.pow_add, Nat.add_comm]
      _ ≤ 2 ^ w := Nat.pow_le_pow_right (by decide) hw
  have hn : b.toNat < 2 ^ w := b.isLt.trans_le (Nat.pow_le_pow_right (by decide) (by omega))
  rw [BitVec.toNat_or, fieldAt, BitVec.toNat_shiftLeft, BitVec.toNat_setWidth, Nat.mod_eq_of_lt hn, Nat.shiftLeft_eq,
    Nat.mod_eq_of_lt hb, ← Nat.shiftLeft_eq, Nat.shiftLeft_add_eq_or_of_lt hx]

theorem digitBits_cases (p : Params) : p.digitBits = 29 ∨ p.digitBits = 61 := by
  unfold Params.digitBits
  cases p.digit
  · exact .inl rfl
  · exact .inr rfl

theorem State.paramWord_toNat {s : State} (h : s.par.Legal) :
    s.paramWord.toNat = s.par.cap * 2 ^ 16 + (Config.nreg * 2 ^ 8 + s.digitBits) := by
  obtain ⟨⟨-, hcap⟩, -, -⟩ := h
  have hD : s.par.digitBits < 2 ^ 8 := by rcases digitBits_cases s.par with h | h <;> omega
  have hlow : (fieldAt 32 8 (BitVec.ofNat 8 Config.nreg) ||| fieldAt 32 0 (BitVec.ofNat 8 s.par.digitBits)).toNat =
      Config.nreg * 2 ^ 8 + s.par.digitBits := by
    rw [toNat_fieldAt_or _ (by decide) (by simpa using Nat.mod_lt _ (by decide)), toNat_fieldAt_zero _ (by decide),
      BitVec.toNat_ofNat, BitVec.toNat_ofNat, Nat.mod_eq_of_lt hD]
    rfl
  have hnreg : Config.nreg = 16 := rfl
  rw [State.paramWord, BitVec.or_assoc, toNat_fieldAt_or _ (by decide) (by omega), hlow, BitVec.toNat_ofNat,
    Nat.mod_eq_of_lt (by omega)]
  rfl

/-! ## The actions of the host (R43) -/

namespace State

theorem dueAction_of_due {s : State} {e : HostEvent} {es : List HostEvent} (hh : s.host = e :: es)
    (hd : s.busy = false ∨ e.time = .afterSteps 0) : s.dueAction = some (e.act, { s with host := es }) := by
  have : e.due s.busy = true := by rcases hd with h | h <;> simp [HostEvent.due, h]
  simp [dueAction, hh, this]

/-- An action that is due is what the step does. -/
theorem step_of_due {s : State} {e : HostEvent} {es : List HostEvent} (hh : s.host = e :: es)
    (hd : s.busy = false ∨ e.time = .afterSteps 0) {a : HostAction} (ha : e.act = a) :
    step s = .next ({ s with host := es }.hostAct a) := by
  simp [step, dueAction_of_due hh hd, ha]

theorem statusWord_of_clear {s : State} (hst : s.status = Status.clear) (hr : s.running = none) :
    s.statusWord = 0 := by
  simp only [statusWord, busy, hst, hr]
  decide

variable (s : State)

theorem hostReset_afterReset : AfterReset s.hostReset where
  regs r := by simp
  status := statusWord_of_clear rfl rfl
  result := rfl
  sieve := rfl
  memUnwritten _ := rfl

theorem hostIssue_eq (w : CmdWord) : s.hostIssue w = { s with running := if s.busy then s.running else some w } := by
  unfold hostIssue
  split <;> rfl

theorem hostReadResult_idle (h : s.busy = false) : s.hostReadResult = s.reply (.result s.result) := by
  simp [hostReadResult, h]

theorem hostReadResult_busy (h : s.busy = true) : s.hostReadResult =
    { s with replies := .result (BitVec.ofNat 32 (Config.unspecified s.fresh)) :: s.replies, fresh := s.fresh + 1 } := by
  simp [hostReadResult, h, takeUnspecified, reply]

theorem memAccess_cases (a : Nat) :
    (s.busy = false ∧ a < s.par.memSize) ∨ (s.busy = true ∨ s.par.memSize ≤ a) := by
  cases s.busy <;> simp [Nat.lt_or_ge]

/-- A host access to MEM is served: the block is idle and the address is in MEM (R43, 20_memory.md R74). -/
theorem memAccess_served {a : Nat} (hb : s.busy = false) (ha : a < s.par.memSize) :
    (s.busy || s.outsideMem a 1) = false := by
  simp [outsideMem, hb, ha]

theorem memAccess_dropped {a : Nat} (h : s.busy = true ∨ s.par.memSize ≤ a) : (s.busy || s.outsideMem a 1) = true := by
  simpa [outsideMem, Nat.lt_succ_iff] using h

theorem hostMemWrite_served {a : Nat} (b : Byte) (hb : s.busy = false) (ha : a < s.par.memSize) :
    s.hostMemWrite a b = s.memWrite a [b] := by
  simp [hostMemWrite, memAccess_served s hb ha]

theorem hostMemWrite_dropped {a : Nat} (b : Byte) (h : s.busy = true ∨ s.par.memSize ≤ a) : s.hostMemWrite a b = s := by
  simp [hostMemWrite, memAccess_dropped s h]

theorem hostMemRead_served {a : Nat} (hb : s.busy = false) (ha : a < s.par.memSize) :
    s.hostMemRead a = s.reply (.memByte (s.readByte a)) := by
  simp [hostMemRead, memAccess_served s hb ha]

theorem hostMemRead_dropped {a : Nat} (h : s.busy = true ∨ s.par.memSize ≤ a) : s.hostMemRead a =
    { s with replies := .memByte (BitVec.ofNat 8 (Config.unspecified s.fresh)) :: s.replies, fresh := s.fresh + 1 } := by
  simp [hostMemRead, memAccess_dropped s h, takeUnspecified, reply]

theorem hostAct_par (a : HostAction) : (s.hostAct a).par = s.par := by
  cases a with
  | reset | readStatus | readParam => rfl
  | issue w => rw [hostAct, hostIssue_eq s w]
  | readResult =>
    cases hb : s.busy
    · rw [hostAct, hostReadResult_idle s hb, reply_par]
    · rw [hostAct, hostReadResult_busy s hb]
  | memWrite a b =>
    obtain ⟨hb, ha⟩ | h := s.memAccess_cases a
    · rw [hostAct, hostMemWrite_served s b hb ha, memWrite_par]
    · rw [hostAct, hostMemWrite_dropped s b h]
  | memRead a =>
    obtain ⟨hb, ha⟩ | h := s.memAccess_cases a
    · rw [hostAct, hostMemRead_served s hb ha, reply_par]
    · rw [hostAct, hostMemRead_dropped s h]

end State

/-! ## No step changes the parameters (R30) -/

theorem State.paramWord_congr {s t : State} (h : t.par = s.par) : t.paramWord = s.paramWord := by
  simp only [State.paramWord, h]

theorem Ends.par_eq {i : Instr} {s t : State} (h : Ends i s t) : t.par = s.par := by
  cases h <;> rfl

@[simp] theorem State.tickHost_par (s : State) : s.tickHost.par = s.par := by
  unfold State.tickHost
  split <;> rfl

theorem runCommand_par {w : CmdWord} {s t : State} (h : runCommand w s = .next t) : t.par = s.par := by
  unfold runCommand at h
  split at h
  · exact (exec_ends h).par_eq
  · cases h
    rfl

theorem sequencer_par {s t : State} (h : sequencer s = .next t) : t.par = s.par := by
  unfold sequencer at h
  split at h
  · cases h
    rfl
  · rw [runCommand_par h, State.tickHost_par]

theorem State.dueAction_par {s t : State} {a : HostAction} (h : s.dueAction = some (a, t)) : t.par = s.par := by
  unfold State.dueAction at h
  split at h
  · cases h
  · split at h
    · cases h
      rfl
    · cases h

theorem step_par {s t : State} (h : step s = .next t) : t.par = s.par := by
  unfold step at h
  split at h
  · rename_i hdue
    cases h
    rw [State.hostAct_par, State.dueAction_par hdue]
  · exact sequencer_par h

end Sys2Proof.Machine

/-! ## The obligations -/

namespace Sys2Proof.Proofs

open Sys2Proof Sys2Proof.Machine

/-- Settles O25: `val` and `canon` are inverse to each other between the canonical contents and the numbers below VMAX. -/
theorem registerIsItsValue : Obligations.RegisterIsItsValue := by
  refine ⟨fun p b c hb hc => ⟨digitsVal_eq_sum _ _, hb.val_inj hc, hb.val_lt, (canon_val hb).symm⟩, ?_⟩
  rintro p v ⟨⟨hcap, -⟩, -⟩ hv
  have hcap : 1 ≤ p.cap := le_trans (by decide) hcap
  refine ⟨canon_canonical hcap hv, val_canon v (digitBits_pos p), ?_⟩
  rintro rfl
  exact canonicalZero_eq_canon _

/-- Settles O15: PARAM is read field by field from its value, and depends on the parameters alone, which no step
changes. -/
theorem paramIsConstant : Obligations.ParamIsConstant := by
  refine ⟨fun s hp => ?_, fun s t h => State.paramWord_congr (step_par h)⟩
  have hw := State.paramWord_toNat hp
  have hnreg : Config.nreg = 16 := rfl
  have hD : s.digitBits = 29 ∨ s.digitBits = 61 := digitBits_cases s.par
  refine ⟨?_, ?_, ?_, hD⟩ <;> omega

/-- Settles O11: an action that is due is the step (`step_of_due`), and each action has one equation per case of R43. -/
theorem hostActionsTakeEffect : Obligations.HostActionsTakeEffect := by
  intro s e es hh hd
  let u : State := { s with host := es }
  have hstep {a : HostAction} (ha : e.act = a) : step s = .next (u.hostAct a) := State.step_of_due hh hd ha
  refine ⟨?reset, ?issue, ?readStatus, ?resultIdle, ?resultBusy, ?readParam, ?writeServed, ?writeDropped, ?readServed,
    ?readDropped⟩
  case reset => exact fun ha => ⟨_, hstep ha, u.hostReset_afterReset, rfl, rfl, rfl⟩
  case issue => exact fun w ha => (hstep ha).trans (congrArg _ (u.hostIssue_eq w))
  case readStatus => exact fun ha => hstep ha
  case resultIdle => exact fun ha hb => (hstep ha).trans (congrArg _ (u.hostReadResult_idle hb))
  case resultBusy => exact fun ha hb => ⟨_, _, (hstep ha).trans (congrArg _ (u.hostReadResult_busy hb))⟩
  case readParam => exact fun ha => hstep ha
  case writeServed =>
    intro a b ha hb hin
    refine ⟨_, (hstep ha).trans (congrArg _ (u.hostMemWrite_served b hb hin)), ?_, ?_, rfl⟩
    · exact u.readByte_memWrite_inside a [b] 0 Nat.zero_lt_one
    · exact fun a' h => u.readByte_memWrite_outside [b] h
  case writeDropped => exact fun a b ha h => (hstep ha).trans (congrArg _ (u.hostMemWrite_dropped b h))
  case readServed => exact fun a ha hb hin => (hstep ha).trans (congrArg _ (u.hostMemRead_served hb hin))
  case readDropped => exact fun a ha h => ⟨_, _, (hstep ha).trans (congrArg _ (u.hostMemRead_dropped h))⟩

end Sys2Proof.Proofs
end

section
/-! PROOFS. The family of 30_encoding.md: which row of the opcode table a word belongs to, by its fields and by the row's
mask (R88), which words are illegal (R84), and what the sequencer does with a word. -/

namespace Sys2Proof

/-! ## The fields of a word as numbers and under a mask (R80, R88) -/

theorem toNat_extractLsb'_eq_bitsOf (w : CmdWord) (lo n : Nat) :
    (w.extractLsb' lo n).toNat = Machine.bitsOf w.toNat lo n := by
  rw [BitVec.extractLsb'_toNat, Nat.shiftRight_eq_div_pow, Machine.bitsOf]

theorem Fields.eq_toWord_iff {w : CmdWord} {f : Fields} : w = f.toWord ↔ Fields.ofWord w = f :=
  ⟨fun h => by rw [h, Fields.ofWord_toWord], fun h => by rw [← h, Fields.toWord_ofWord]⟩

/-- The fields of a word of which only the bits of `m` are kept. -/
theorem Fields.ofWord_and_toWord (w : CmdWord) (m : Fields) :
    Fields.ofWord (w &&& m.toWord) =
      let f := Fields.ofWord w
      { op := f.op &&& m.op, rd := f.rd &&& m.rd, ra := f.ra &&& m.ra, rb := f.rb &&& m.rb, rc := f.rc &&& m.rc,
        zero := f.zero &&& m.zero, s := f.s &&& m.s, imm := f.imm &&& m.imm } := by
  conv_rhs => rw [← Fields.ofWord_toWord m]
  simp only [Fields.ofWord, BitVec.extractLsb'_and]

/-- A field's part of a mask leaves a field the format uses out, and holds one it does not use to 0. -/
theorem and_unusedMask_eq_zero {n : Nat} (used : Bool) (b : BitVec n) :
    b &&& (if used then 0 else BitVec.allOnes n) = 0 ↔ (used || b == 0) = true := by
  cases used <;> simp

/-! ## The rows of the opcode table (R83) -/

/-- A word with these fields is the command of this row (R84): its opcode, `zero` 0, and every unused field 0. -/
def Row.Accepts (r : Row) (f : Fields) : Prop := r.op = f.op ∧ f.zero = 0 ∧ r.format.unusedAreZero f = true

/-- R88: the mask keeps `op`, `zero` and the unused fields. -/
theorem Row.and_mask_eq_matchWord_iff (r : Row) (w : CmdWord) :
    w &&& r.mask = r.matchWord ↔ r.Accepts (Fields.ofWord w) := by
  rw [Row.matchWord, Fields.eq_toWord_iff, Row.mask, Fields.ofWord_and_toWord]
  simp only [Fields.mk.injEq, and_unusedMask_eq_zero, BitVec.and_allOnes, Row.Accepts, Format.unusedAreZero,
    Bool.and_eq_true]
  tauto

theorem build_mnemonic {r : Row} (h : r ∈ opcodeTable) (f : Fields) : (r.build f).mnemonic = r.mnemonic := by
  unfold opcodeTable at h
  fin_cases h <;> rfl

theorem row_eq_of_op {r q : Row} (hr : r ∈ opcodeTable) (hq : q ∈ opcodeTable) (h : r.op = q.op) : r = q :=
  List.inj_on_of_nodup_map (show (opcodeTable.map Row.op).Nodup by decide) hr hq h

theorem row_eq_of_mnemonic {r q : Row} (hr : r ∈ opcodeTable) (hq : q ∈ opcodeTable) (h : r.mnemonic = q.mnemonic) :
    r = q :=
  List.inj_on_of_nodup_map (show (opcodeTable.map Row.mnemonic).Nodup by decide) hr hq h

/-- No two rows accept the same word. -/
theorem Row.Accepts.row_eq {r q : Row} {f : Fields} (hr : r ∈ opcodeTable) (hq : q ∈ opcodeTable) (h : r.Accepts f)
    (h' : q.Accepts f) : r = q :=
  row_eq_of_op hr hq (h.1.trans h'.1.symm)

/-! ## The decoder (R84, R88) -/

theorem decode_of_accepts {r : Row} (hr : r ∈ opcodeTable) {w : CmdWord} (h : r.Accepts (Fields.ofWord w)) :
    decode w = .ok (r.build (Fields.ofWord w)) := by
  obtain ⟨hop, hzero, hunused⟩ := h
  rw [Machine.encodedAs_of_mem hr w hop.symm, if_neg (not_not.mpr hzero), if_pos hunused]

theorem exists_accepts_of_decode {w : CmdWord} {i : Instr} (h : decode w = .ok i) :
    ∃ r ∈ opcodeTable, r.Accepts (Fields.ofWord w) ∧ i = r.build (Fields.ofWord w) := by
  cases hf : opcodeTable.find? (fun r => r.op == (Fields.ofWord w).op) with
  | none => simp [decode, hf] at h
  | some r =>
    have hr : r ∈ opcodeTable := List.mem_of_find?_eq_some hf
    have hop : r.op = (Fields.ofWord w).op := by simpa using List.find?_some hf
    rw [Machine.encodedAs_of_mem hr w hop.symm] at h
    split_ifs at h with hzero hunused
    cases h
    exact ⟨r, hr, ⟨hop, not_not.mp hzero, hunused⟩, rfl⟩

/-- R84: a word is illegal when no row accepts it. -/
theorem exists_decode_eq_error_iff {w : CmdWord} :
    (∃ e, decode w = .error e) ↔ ¬ ∃ r ∈ opcodeTable, r.Accepts (Fields.ofWord w) := by
  have hnot : (∃ e, decode w = .error e) ↔ ¬ ∃ i, decode w = .ok i := by cases decode w <;> simp
  rw [hnot, not_iff_not]
  constructor
  · rintro ⟨i, hd⟩
    obtain ⟨r, hr, hacc, -⟩ := exists_accepts_of_decode hd
    exact ⟨r, hr, hacc⟩
  · rintro ⟨r, hr, hacc⟩
    exact ⟨_, decode_of_accepts hr hacc⟩

/-- A row that accepts a word is the row of the command the word decodes to. -/
theorem Row.accepts_iff_decode {r : Row} (hr : r ∈ opcodeTable) {w : CmdWord} :
    r.Accepts (Fields.ofWord w) ↔ ∃ i, decode w = .ok i ∧ i.mnemonic = r.mnemonic := by
  constructor
  · exact fun h => ⟨_, decode_of_accepts hr h, build_mnemonic hr _⟩
  · rintro ⟨i, hd, hname⟩
    obtain ⟨q, hq, hacc, rfl⟩ := exists_accepts_of_decode hd
    rw [build_mnemonic hq] at hname
    exact row_eq_of_mnemonic hq hr hname ▸ hacc

end Sys2Proof

namespace Sys2Proof.Machine

/-! ## What the sequencer does with a word (R84, R88) -/

theorem runCommand_of_ok {w : CmdWord} {i : Instr} (h : decode w = .ok i) (s : State) : runCommand w s = exec i s := by
  simp only [runCommand, h]

theorem runCommand_of_error {w : CmdWord} {e : IllegalWord} (h : decode w = .error e) (s : State) :
    runCommand w s = .next (s.raiseError .illegalCmd) := by
  simp only [runCommand, h]

theorem step_of_running {s : State} {w : CmdWord} (hrun : s.running = some w) (hdue : s.dueAction = none) :
    step s = runCommand w s.tickHost := by
  simp only [step, hdue, sequencer, hrun]

end Sys2Proof.Machine

/-! ## The obligations -/

namespace Sys2Proof.Proofs

open Sys2Proof Sys2Proof.Machine

/-- Settles O3: masking a word with a row's mask asks what `Row.Accepts` asks of its fields, and a row that accepts a word
is the one the decoder finds. -/
theorem wordIsOfRowIffMaskMatches : Obligations.WordIsOfRowIffMaskMatches := by
  intro w
  simp only [Row.and_mask_eq_matchWord_iff, ne_eq]
  refine ⟨?fields, ?row, ?noOverlap, ?illegal, ?run⟩
  case fields => and_intros <;> exact toNat_extractLsb'_eq_bitsOf w _ _
  case row => exact fun r hr => Row.accepts_iff_decode hr
  case noOverlap => exact fun r hr q hq h h' => congrArg Row.mnemonic (h.row_eq hr hq h')
  case illegal => exact fun h => exists_decode_eq_error_iff.mpr fun ⟨r, hr, hacc⟩ => h r hr hacc
  case run =>
    intro s
    refine ⟨fun e he => ?_, fun i hi => runCommand_of_ok hi s⟩
    exact ⟨_, runCommand_of_error he s, s.raiseError_failed _⟩

/-- Settles O4: a word is illegal when no row accepts its fields, and the step on one is `raise` alone, which fails
cleanly. -/
theorem illegalWordRetiresAlone : Obligations.IllegalWordRetiresAlone := by
  refine ⟨fun w => exists_decode_eq_error_iff, fun s w e hrun hdue he => ?_⟩
  refine ⟨_, ?_, s.tickHost.raiseError_cleanly .illegalCmd⟩
  rw [step_of_running hrun hdue, runCommand_of_error he]

end Sys2Proof.Proofs
end

section
/-! PROOFS. The family of 40_storage_transfer.md: the bit-granular conversion (R100), and what ZERO, COPY, DESER, SER,
SIGBITS, SERSIZE and CLRERR do (R101 to R108). -/

namespace Sys2Proof.Machine

/-! ## Bits of a number (00_scope.md R8) -/

@[simp] theorem bitsOf_width_zero (v lo : Nat) : bitsOf v lo 0 = 0 := Nat.mod_one _

theorem testBit_bitsOf (v lo n i : Nat) : (bitsOf v lo n).testBit i = (decide (i < n) && v.testBit (lo + i)) := by
  simp [bitsOf, Nat.testBit_mod_two_pow, Nat.testBit_div_two_pow, Nat.add_comm]

theorem bitsOf_shiftRight (v lo n k : Nat) : bitsOf v lo n >>> k = bitsOf v (lo + k) (n - k) := by
  refine Nat.eq_of_testBit_eq fun i => ?_
  simp [testBit_bitsOf, Nat.lt_sub_iff_add_lt', Nat.add_assoc]

theorem bitsOf_mod_two_pow (v lo n m : Nat) : bitsOf v lo n % 2 ^ m = bitsOf v lo (min m n) := by
  refine Nat.eq_of_testBit_eq fun i => ?_
  simp [testBit_bitsOf, Nat.testBit_mod_two_pow, Bool.and_assoc]

theorem bitsOf_bitsOf (v lo n lo' m : Nat) : bitsOf (bitsOf v lo n) lo' m = bitsOf v (lo + lo') (min m (n - lo')) := by
  rw [← bitsOf_mod_two_pow, ← bitsOf_shiftRight, Nat.shiftRight_eq_div_pow]
  rfl

/-- The lower `n` of `n + m` bits, and above them the other `m`. -/
theorem bitsOf_or_shiftLeft (v lo n m : Nat) :
    bitsOf v lo n ||| bitsOf v (lo + n) m <<< n = bitsOf v lo (n + m) := by
  refine Nat.eq_of_testBit_eq fun i => ?_
  simp only [Nat.testBit_or, Nat.testBit_shiftLeft, testBit_bitsOf]
  by_cases h : i < n
  · simp [h, Nat.not_le.mpr h, Nat.lt_add_right m h]
  · have h' : n ≤ i := by omega
    simp [h, h', Nat.sub_lt_iff_lt_add h', Nat.add_comm m n]

/-- A digit of an array, the slots above it read as 0, is the bits of the array's value at its place. -/
theorem getD_eq_bitsOf {S : Nat} {ds : List Nat} (h : ∀ d ∈ ds, d < 2 ^ S) (k : Nat) :
    ds.getD k 0 = bitsOf (digitsVal S ds) (S * k) S := by
  rcases Nat.lt_or_ge k ds.length with hk | hk
  · have := congrArg (fun l => l.getD k 0) (bitsOf_digitsVal h)
    simpa [hk] using this.symm
  · have hv : digitsVal S ds < 2 ^ (S * k) :=
      (digitsVal_lt S ds h).trans_le (Nat.pow_le_pow_right (by decide) (Nat.mul_le_mul_left S hk))
    simp [bitsOf, Nat.div_eq_of_lt hv, hk]

/-! ## Base conversion (R100) -/

theorem cursor_div_mod {S : Nat} (i : Nat) {b : Nat} (hb : b < S) : (S * i + b) / S = i ∧ (S * i + b) % S = b := by
  rw [Nat.mul_add_div (by omega), Nat.mul_add_mod, Nat.div_eq_of_lt hb, Nat.mod_eq_of_lt hb]
  exact ⟨rfl, rfl⟩

/-- The inner loop puts the `need` bits from the cursor on above the `got` bits there are, and the cursor after them. -/
theorem fillDigit_eq {S : Nat} {src : List Nat} (h : ∀ d ∈ src, d < 2 ^ S) {fuel need : Nat} (hfuel : need ≤ fuel)
    (got acc si : Nat) {sb : Nat} (hsb : sb < S) :
    fillDigit S src fuel need got acc si sb =
      (acc ||| bitsOf (digitsVal S src) (S * si + sb) need <<< got, (S * si + sb + need) / S,
        (S * si + sb + need) % S) := by
  induction fuel generalizing need got acc si sb with
  | zero =>
    obtain rfl : need = 0 := by omega
    simp [fillDigit, cursor_div_mod si hsb]
  | succ fuel ih =>
    have hdigit : src.getD si 0 >>> sb = bitsOf (digitsVal S src) (S * si + sb) (S - sb) := by
      rw [getD_eq_bitsOf h, bitsOf_shiftRight]
    simp only [fillDigit, hdigit]
    split_ifs with hneed hpull
    · simp [hneed, cursor_div_mod si hsb]
    · have hpos : S * (si + 1) + 0 = S * si + sb + (S - sb) := by rw [Nat.mul_succ]; omega
      rw [ih (by omega) _ _ _ (by omega), hpos, Nat.or_assoc, Nat.add_comm got, Nat.shiftLeft_add,
        ← Nat.shiftLeft_or_distrib, bitsOf_or_shiftLeft, Nat.add_assoc (S * si + sb), Nat.add_sub_cancel' hpull]
    · have hcursor := cursor_div_mod si (b := sb + need) (S := S) (by omega)
      rw [bitsOf_mod_two_pow, Nat.min_eq_left (by omega), Nat.add_assoc, hcursor.1, hcursor.2]

/-- The outer loop, from bit `pos` on with `T` bits left. -/
theorem convertLoop_eq {S R : Nat} {src : List Nat} (hS : 0 < S) (h : ∀ d ∈ src, d < 2 ^ S) (n T pos : Nat) :
    convertLoop S R src n T (pos / S) (pos % S) =
      (List.range n).map fun j => bitsOf (bitsOf (digitsVal S src) pos T) (R * j) R := by
  induction n generalizing T pos with
  | zero => rfl
  | succ n ih =>
    rw [List.range_succ_eq_map, List.map_cons, List.map_map]
    simp only [convertLoop, fillDigit_eq h le_rfl 0 0 _ (Nat.mod_lt pos hS), Nat.div_add_mod, ih, bitsOf_bitsOf]
    congr 1
    · simp
    · refine List.map_congr_left fun j _ => ?_
      simp only [Function.comp_apply, Nat.mul_succ]
      rcases Nat.le_total T R with hle | hle
      · simp [Nat.min_eq_right hle, show T - (R * j + R) = 0 by omega]
      · rw [Nat.min_eq_left hle, Nat.add_assoc, Nat.sub_sub, Nat.add_comm R]

theorem convert_eq {S : Nat} {src : List Nat} (hS : 0 < S) (h : ∀ d ∈ src, d < 2 ^ S) (T R : Nat) :
    convert src S T R = (List.range (ceilDiv T R)).map fun j => bitsOf (digitsVal S src % 2 ^ T) (R * j) R := by
  have := convertLoop_eq (R := R) hS h (ceilDiv T R) T 0
  rwa [Nat.zero_div, Nat.zero_mod, show bitsOf (digitsVal S src) 0 T = digitsVal S src % 2 ^ T by simp [bitsOf]] at this

theorem digitsVal_convert {S R : Nat} {src : List Nat} (hS : 0 < S) (hR : 0 < R) (h : ∀ d ∈ src, d < 2 ^ S) (T : Nat) :
    digitsVal R (convert src S T R) = digitsVal S src % 2 ^ T := by
  rw [convert_eq hS h, digitsVal_bitsOf]
  exact Nat.mod_eq_of_lt
    ((Nat.mod_lt _ (Nat.two_pow_pos T)).trans_le (Nat.pow_le_pow_right (by decide) (le_mul_ceilDiv T hR)))

theorem lt_of_mem_convert {S R T : Nat} {src : List Nat} (hS : 0 < S) (h : ∀ d ∈ src, d < 2 ^ S) {d : Nat}
    (hd : d ∈ convert src S T R) : d < 2 ^ R := by
  rw [convert_eq hS h] at hd
  obtain ⟨j, -, rfl⟩ := List.mem_map.mp hd
  exact Nat.mod_lt _ (Nat.two_pow_pos R)

/-! ## Leading zero digits (10_state.md R22 b) -/

@[simp] theorem trimDigits_nil : trimDigits [] = [0] := rfl

theorem trimDigits_concat_zero (ds : List Nat) : trimDigits (ds ++ [0]) = trimDigits ds := by simp [trimDigits]

theorem trimDigits_concat_of_ne (ds : List Nat) {d : Nat} (hd : d ≠ 0) : trimDigits (ds ++ [d]) = ds ++ [d] := by
  have : ((ds ++ [d]).reverse.dropWhile (· == 0)).reverse = ds ++ [d] := by simp [hd]
  rw [trimDigits, this]
  cases ds <;> rfl

/-- Digits with no leading zero are those of `canon` of their value. -/
theorem canonDigits_digitsVal {D : Nat} {ds : List Nat} (hD : 0 < D) (hne : 1 ≤ ds.length) (hlt : ∀ d ∈ ds, d < 2 ^ D)
    (htop : ds.length = 1 ∨ ds.getLast? ≠ some 0) : canonDigits D (digitsVal D ds) = ds := by
  rw [canonDigits, digitLen_digitsVal hD hne hlt htop, bitsOf_digitsVal hlt]

theorem trimDigits_eq_canonDigits {D : Nat} {ds : List Nat} (hD : 0 < D) (hlt : ∀ d ∈ ds, d < 2 ^ D) :
    trimDigits ds = canonDigits D (digitsVal D ds) := by
  induction ds using List.reverseRecOn with
  | nil => simp [canonDigits_zero]
  | append_singleton ds d ih =>
    by_cases hd : d = 0
    · subst hd
      rw [trimDigits_concat_zero, ih fun x hx => hlt x (List.mem_append_left _ hx)]
      simp [digitsVal_append]
    · rw [trimDigits_concat_of_ne ds hd, canonDigits_digitsVal hD (by simp) hlt (.inr (by simp [hd]))]

/-! ## Bit lengths -/

theorem bitlen_digitsVal_concat {D : Nat} {ds : List Nat} {top : Nat} (hlt : ∀ d ∈ ds, d < 2 ^ D) (htop : top ≠ 0) :
    bitlen (digitsVal D (ds ++ [top])) = D * ds.length + bitlen top := by
  have hpos := bitlen_pos htop
  have hlo := two_pow_bitlen_pred_le htop
  have hhi := lt_two_pow_bitlen top
  have hv := digitsVal_lt D ds hlt
  rw [bitlen_eq_iff (by omega), digitsVal_append, Nat.add_sub_assoc hpos, Nat.pow_add, Nat.pow_add]
  simp only [digitsVal_cons, digitsVal_nil, Nat.mul_zero, Nat.add_zero]
  constructor
  · exact (Nat.mul_le_mul_left _ hlo).trans (Nat.le_add_left _ _)
  · calc digitsVal D ds + 2 ^ (D * ds.length) * top < 2 ^ (D * ds.length) * (top + 1) := by rw [Nat.mul_succ]; omega
      _ ≤ 2 ^ (D * ds.length) * 2 ^ bitlen top := Nat.mul_le_mul_left _ hhi

/-- The bit length of a canonical content, from its top digit (R105). -/
theorem Bigint.Canonical.bitlen_val {p : Params} {b : Bigint} (h : b.Canonical p) (hv : b.val p.digitBits ≠ 0)
    {top : Nat} (htop : b.digits.getLast? = some top) :
    bitlen (b.val p.digitBits) = p.digitBits * (b.length - 1) + bitlen top := by
  obtain ⟨-, hlead, hlt⟩ := h
  obtain ⟨ds, hds⟩ := List.getLast?_eq_some_iff.mp htop
  have htop0 : top ≠ 0 := by
    rintro rfl
    refine hlead.elim (fun h1 => hv ?_) (fun h2 => h2 htop)
    obtain rfl : ds = [] := by simpa [Bigint.length, hds] using h1
    simp [Bigint.val, hds]
  rw [hds] at hlt
  rw [Bigint.val, Bigint.length, hds, bitlen_digitsVal_concat (fun d hd => hlt d (List.mem_append_left _ hd)) htop0]
  simp

theorem Bigint.Canonical.bitlen_le {p : Params} {b : Bigint} (h : b.Canonical p) :
    bitlen (b.val p.digitBits) ≤ p.digitBits * p.cap := (bitlen_le_iff _ _).mpr h.val_lt

/-- A count of bits of a register fits RESULT (log entry 17). -/
theorem digitBits_mul_cap_lt {p : Params} (h : p.Legal) : p.digitBits * p.cap < 2 ^ 32 := by
  obtain ⟨⟨-, hcap⟩, -, -⟩ := h
  rcases digitBits_cases p with hD | hD <;> rw [hD] <;> omega

/-! ## Wire bytes (20_memory.md R62) -/

theorem ceilDiv_bitlen_le_iff {v n : Nat} : ceilDiv (bitlen v) 8 ≤ n ↔ v < 2 ^ (8 * n) := by
  rw [ceilDiv_le_iff (by decide), bitlen_le_iff]

theorem map_toNat_wireBytes (v : Nat) :
    (wireBytes v).map BitVec.toNat = (List.range (ceilDiv (bitlen v) 8)).map fun j => bitsOf v (8 * j) 8 := by
  simp [wireBytes, bitsOf]

theorem map_toNat_lt (bs : List Byte) : ∀ d ∈ bs.map BitVec.toNat, d < 2 ^ 8 := by
  intro d hd
  obtain ⟨b, -, rfl⟩ := List.mem_map.mp hd
  exact b.isLt

theorem wireValue_lt (bs : List Byte) : wireValue bs < 2 ^ (8 * bs.length) := by
  simpa [wireValue] using digitsVal_lt 8 _ (map_toNat_lt bs)

theorem wireBytes_wireValue_length_le (bs : List Byte) : (wireBytes (wireValue bs)).length ≤ bs.length := by
  rw [wireBytes_length, ceilDiv_bitlen_le_iff]
  exact wireValue_lt bs

/-- The bytes of a block's value are the bytes of the block, as far as they go. -/
theorem getElem_wireBytes_wireValue (bs : List Byte) {j : Nat} (h : j < (wireBytes (wireValue bs)).length)
    (hj : j < bs.length) : (wireBytes (wireValue bs))[j] = bs[j] := by
  have hbyte := getD_eq_bitsOf (map_toNat_lt bs) j
  simp only [wireBytes, List.getElem_map, List.getElem_range, wireValue, ← hbyte]
  simp [hj]

/-- The top byte of a block adds to the length of its value exactly if it is not 0 (R108). -/
theorem wireValue_concat_lt_iff (bs : List Byte) (b : Byte) : wireValue (bs ++ [b]) < 2 ^ (8 * bs.length) ↔ b = 0 := by
  have hlow := wireValue_lt bs
  have hval : wireValue (bs ++ [b]) = wireValue bs + 2 ^ (8 * bs.length) * b.toNat := by
    simp [wireValue, digitsVal_append]
  rw [hval]
  constructor
  · intro h
    by_contra hb
    have : 0 < b.toNat := Nat.pos_of_ne_zero fun h0 => hb (BitVec.eq_of_toNat_eq h0)
    have := Nat.le_mul_of_pos_right (2 ^ (8 * bs.length)) this
    omega
  · rintro rfl
    simpa using hlow

namespace State

variable (s : State)

@[simp] theorem memRead_length (addr n : Nat) : (s.memRead addr n).length = n := by simp [memRead]

theorem memRead_succ (addr n : Nat) : s.memRead addr (n + 1) = s.memRead addr n ++ [s.readByte (addr + n)] := by
  simp [memRead, List.range_succ]

theorem wireValue_memRead (addr n : Nat) :
    wireValue (s.memRead addr n) = ∑ j ∈ Finset.range n, (s.readByte (addr + j)).toNat * 2 ^ (8 * j) := by
  rw [wireValue, digitsVal_eq_sum, List.length_map, memRead_length]
  refine Finset.sum_congr rfl fun j hj => ?_
  simp [memRead, Finset.mem_range.mp hj]

/-- R108: SER of a block's value needs the whole block unless it ends in a zero byte. -/
theorem ceilDiv_bitlen_memRead_succ_le_iff (addr n : Nat) :
    ceilDiv (bitlen (wireValue (s.memRead addr (n + 1)))) 8 ≤ n ↔ s.readByte (addr + n) = 0 := by
  rw [ceilDiv_bitlen_le_iff, memRead_succ, ← wireValue_concat_lt_iff (s.memRead addr n), memRead_length]

theorem ceilDiv_bitlen_memRead_le (addr n : Nat) : ceilDiv (bitlen (wireValue (s.memRead addr n))) 8 ≤ n := by
  simpa using wireBytes_wireValue_length_le (s.memRead addr n)

/-- Writing the bytes of a block's value back over the block leaves MEM as it was (R108). -/
theorem readByte_memWrite_wireBytes (addr n a : Nat) :
    (s.memWrite addr (wireBytes (wireValue (s.memRead addr n)))).readByte a = s.readByte a := by
  have hlen := wireBytes_wireValue_length_le (s.memRead addr n)
  by_cases ha : addr ≤ a ∧ a < addr + (wireBytes (wireValue (s.memRead addr n))).length
  · obtain ⟨j, rfl⟩ := Nat.exists_eq_add_of_le ha.1
    have hj : j < (wireBytes (wireValue (s.memRead addr n))).length := by omega
    rw [readByte_memWrite_inside s addr _ j hj, getElem_wireBytes_wireValue _ hj (by omega)]
    simp [memRead]
  · exact readByte_memWrite_outside s _ (by omega)

/-! ## The end of a command -/

theorem retire_keeps (w : Word) : Keeps [] s (s.retire w) := ⟨fun _ _ => rfl, fun _ => rfl, rfl, ⟨rfl, rfl, rfl⟩⟩

theorem retire_noDraw (w : Word) : NoDraw s (s.retire w) := ⟨rfl, rfl⟩

theorem writeValue_retire_noDraw (rd : Reg) (v : Nat) (w : Word) : NoDraw s ((s.writeValue rd v).retire w) := ⟨rfl, rfl⟩

/-- Writing a canonical register its own value leaves the state as it is. -/
theorem writeValue_value_self {r : Reg} (h : s.regs[r].Canonical s.par) : s.writeValue r (s.value r) = s := by
  rw [writeValue, canon_value s h, setReg]
  simp

end State

/-! ## The commands, one equation a case (R101 to R107) -/

theorem encodedAs_getElem (n : Nat) (h : n < opcodeTable.length) :
    EncodedAs opcodeTable[n].op opcodeTable[n].format opcodeTable[n].build :=
  encodedAs_of_mem (List.getElem_mem h)

section

variable {s : State} {addr len : Nat}

theorem exec_deser_badAddress (rd : Reg) (h : s.par.memSize < addr + len) :
    exec (.deser rd addr len) s = .next (s.raiseError .badAddress) := by
  simp [exec, execDeser, State.outsideMem, h]

theorem exec_deser_inside (rd : Reg) (h : addr + len ≤ s.par.memSize) :
    exec (.deser rd addr len) s = .next (s.finishValue rd (wireValue (s.memRead addr len))) := by
  simp [exec, execDeser, State.outsideMem, Nat.not_lt.mpr h]

theorem exec_deser_capacity (rd : Reg) (h : addr + len ≤ s.par.memSize) (hv : s.vmax ≤ wireValue (s.memRead addr len)) :
    exec (.deser rd addr len) s = .next (s.failDestination rd .capacity) := by
  rw [exec_deser_inside rd h, State.finishValue, if_pos hv]

theorem exec_deser_loaded (rd : Reg) (h : addr + len ≤ s.par.memSize) (hv : wireValue (s.memRead addr len) < s.vmax) :
    exec (.deser rd addr len) s = .next ((s.writeValue rd (wireValue (s.memRead addr len))).retire 0) := by
  rw [exec_deser_inside rd h, State.finishValue, if_neg (Nat.not_le.mpr hv)]

/-- R108: a block that holds the bytes of a value is loaded as that value. -/
theorem exec_deser_wireBytes (rd : Reg) {v : Nat} (h : addr + ceilDiv (bitlen v) 8 ≤ s.par.memSize)
    (hmem : s.memRead addr (ceilDiv (bitlen v) 8) = wireBytes v) (hv : v < s.vmax) :
    exec (.deser rd addr (ceilDiv (bitlen v) 8)) s = .next ((s.writeValue rd v).retire 0) := by
  have hval : wireValue (s.memRead addr (ceilDiv (bitlen v) 8)) = v := by rw [hmem, wireValue_wireBytes]
  rw [exec_deser_loaded rd h (hval.symm ▸ hv), hval]

theorem exec_ser_badAddress (ra : Reg) (h : s.par.memSize < addr + len) :
    exec (.ser ra addr len) s = .next (s.raiseError .badAddress) := by
  simp [exec, execSer, State.outsideMem, h]

theorem exec_ser_bufTooSmall {ra : Reg} (h : addr + len ≤ s.par.memSize)
    (hlen : len < ceilDiv (bitlen (s.value ra)) 8) :
    exec (.ser ra addr len) s = .next (s.raiseError .bufTooSmall) := by
  simp [exec, execSer, State.outsideMem, Nat.not_lt.mpr h, hlen]

theorem exec_ser_stored {ra : Reg} (h : addr + len ≤ s.par.memSize) (hlen : ceilDiv (bitlen (s.value ra)) 8 ≤ len) :
    exec (.ser ra addr len) s = .next ((s.memWrite addr (wireBytes (s.value ra))).retire
      (BitVec.ofNat 32 (ceilDiv (bitlen (s.value ra)) 8))) := by
  simp [exec, execSer, State.outsideMem, Nat.not_lt.mpr h, Nat.not_lt.mpr hlen]

/-- The count SER returns fits RESULT: it is at most the size of MEM (log entry 17). -/
theorem toNat_ofNat_of_fits {n : Nat} (hp : s.par.Legal) (h : addr + len ≤ s.par.memSize) (hn : n ≤ len) :
    (BitVec.ofNat 32 n).toNat = n := by
  obtain ⟨-, ⟨-, hmem⟩, -⟩ := hp
  rw [BitVec.toNat_ofNat]
  omega

/-- A count of at most `bitlen` of a canonical register fits RESULT (log entry 17). -/
theorem toNat_ofNat_of_le_bitlen {ra : Reg} {n : Nat} (hp : s.par.Legal) (h : s.regs[ra].Canonical s.par)
    (hn : n ≤ bitlen (s.value ra)) : (BitVec.ofNat 32 n).toNat = n := by
  rw [BitVec.toNat_ofNat]
  exact Nat.mod_eq_of_lt (hn.trans_lt (h.bitlen_le.trans_lt (digitBits_mul_cap_lt hp)))

end

end Sys2Proof.Machine

/-! ## The obligations -/

namespace Sys2Proof.Proofs

open Sys2Proof Sys2Proof.Machine

/-- Settles O34: each destination digit takes the bits at its place (`convertLoop_eq`). -/
theorem convertGivesTheDigits : Obligations.ConvertGivesTheDigits :=
  fun _ _ T R hS _ h => convert_eq hS h T R

/-- Settles O26. -/
theorem zeroGivesCanonicalZero : Obligations.ZeroGivesCanonicalZero := by
  refine ⟨encodedAs_getElem 0 (by decide), fun s rd => ?_⟩
  refine ⟨_, rfl, ?_, s.value_writeValue_self rd 0, s.writeValue_retire_succeeded rd 0 0,
    s.writeValue_retire_keeps rd 0 0, s.writeValue_retire_noDraw rd 0 0⟩
  exact (s.regs_writeValue_self rd 0).trans (canonicalZero_eq_canon _)

/-- Settles O27: the canonical digits of a canonical register's value are its digits. -/
theorem copyCopiesTheDigits : Obligations.CopyCopiesTheDigits := by
  refine ⟨encodedAs_getElem 1 (by decide), fun s rd ra hcanon => ?_⟩
  refine ⟨_, rfl, ?_, s.writeValue_retire_succeeded rd _ 0, s.writeValue_retire_keeps rd _ 0,
    s.writeValue_retire_noDraw rd _ 0, ?_⟩
  · exact (s.regs_writeValue_self rd _).trans (s.canon_value hcanon)
  · rintro rfl
    rw [s.writeValue_value_self hcanon]
    exact s.retire_keeps 0

/-- Settles O28: the block's value is the sum of its bytes, and its converted digits trimmed are those of `canon`. -/
theorem deserLoadsTheBytes : Obligations.DeserLoadsTheBytes := by
  refine ⟨encodedAs_getElem 2 (by decide), fun s rd addr len hp => ?_⟩
  have hcap : 1 ≤ s.par.cap := le_trans (by decide) hp.1.1
  simp only [← s.wireValue_memRead]
  refine ⟨?badAddress, ?capacity, ?loaded⟩
  case badAddress => exact fun h => ⟨_, exec_deser_badAddress rd h, s.raiseError_cleanly _⟩
  case capacity => exact fun h hv => ⟨_, exec_deser_capacity rd h hv, s.failDestination_into hcap rd _⟩
  case loaded =>
    intro h hv
    refine ⟨_, exec_deser_loaded rd h hv, ?_, s.writeValue_holds hcap hv, s.writeValue_retire_succeeded rd _ 0,
      s.writeValue_retire_keeps rd _ 0, s.writeValue_retire_noDraw rd _ 0⟩
    have hD : 0 < s.digitBits := digitBits_pos s.par
    have hval : wireValue (s.memRead addr len) % 2 ^ (8 * len) = wireValue (s.memRead addr len) :=
      Nat.mod_eq_of_lt (by simpa using wireValue_lt (s.memRead addr len))
    rw [trimDigits_eq_canonDigits hD fun d hd => lt_of_mem_convert (by decide) (map_toNat_lt _) hd,
      digitsVal_convert (by decide) hD (map_toNat_lt _), ← wireValue, hval]
    exact congrArg Bigint.digits (s.regs_writeValue_self rd _)

/-- Settles O29: the stored bytes are `wireBytes` of the value, read back by `readByte_memWrite_inside`. -/
theorem serStoresTheBytes : Obligations.SerStoresTheBytes := by
  refine ⟨encodedAs_getElem 3 (by decide), fun s ra addr len hp => ?_⟩
  refine ⟨?badAddress, ?bufTooSmall, ?stored, ?digits⟩
  case badAddress => exact fun h => ⟨_, exec_ser_badAddress ra h, s.raiseError_cleanly _⟩
  case bufTooSmall => exact fun h hlen => ⟨_, exec_ser_bufTooSmall h hlen, s.raiseError_cleanly _⟩
  case stored =>
    intro h hlen
    refine ⟨_, exec_ser_stored h hlen, fun j hj => ?_, fun a ha => ?_, toNat_ofNat_of_fits hp h hlen,
      ⟨rfl, rfl, rfl, rfl, rfl, rfl⟩, fun _ _ => rfl, rfl, ⟨rfl, rfl, rfl⟩, ⟨rfl, rfl⟩⟩
    · have hbyte := s.readByte_memWrite_inside addr (wireBytes (s.value ra)) j (by simpa using hj)
      refine (congrArg BitVec.toNat hbyte).trans ?_
      simp [wireBytes, bitsOf]
    · exact s.readByte_memWrite_outside _ (by simpa using ha)
  case digits =>
    intro hcanon
    rw [convert_eq (S := s.digitBits) (digitBits_pos s.par) hcanon.2.2, map_toNat_wireBytes, ← s.value_def,
      Nat.mod_eq_of_lt (lt_two_pow_bitlen _)]

/-- Settles O30: RESULT is `bitlen` of the value, which a canonical register's top digit gives. -/
theorem sigbitsCountsTheBits : Obligations.SigbitsCountsTheBits := by
  refine ⟨encodedAs_getElem 4 (by decide), fun s ra hp hcanon => ?_⟩
  have hres := toNat_ofNat_of_le_bitlen hp hcanon le_rfl
  refine ⟨_, rfl, fun h0 => by simp [h0], fun hv => ?_, ?_, s.retire_succeeded _, s.retire_keeps _, s.retire_noDraw _⟩
  · rw [State.retire_result, hres]
    exact ⟨two_pow_bitlen_pred_le hv, lt_two_pow_bitlen _, fun top htop => hcanon.bitlen_val hv htop⟩
  · rw [State.retire_result, hres]
    exact hcanon.bitlen_le

/-- Settles O31: `ceilDiv_bitlen_le_iff` says which numbers of bytes hold the value. -/
theorem sersizeCountsTheBytes : Obligations.SersizeCountsTheBytes := by
  refine ⟨encodedAs_getElem 5 (by decide), fun s ra hp hcanon => ?_⟩
  have hres := toNat_ofNat_of_le_bitlen hp hcanon (n := ceilDiv (bitlen (s.value ra)) 8)
    ((ceilDiv_le_iff (by decide)).mpr (by omega))
  refine ⟨_, rfl, hres, ?_, fun hv => ?_, fun h0 => by simp [h0, ceilDiv], s.retire_succeeded _, s.retire_keeps _,
    s.retire_noDraw _⟩
  · rw [State.retire_result, hres, ← ceilDiv_bitlen_le_iff]
  · rw [State.retire_result, hres, ← Nat.not_lt, ← ceilDiv_bitlen_le_iff]
    have hpos : ¬ ceilDiv (bitlen (s.value ra)) 8 ≤ 0 := by
      rw [ceilDiv_bitlen_le_iff]
      simpa using hv
    omega

/-- Settles O32. -/
theorem clrerrClearsSticky : Obligations.ClrerrClearsSticky := by
  refine ⟨encodedAs_getElem 6 (by decide), fun s => ?_⟩
  exact ⟨_, rfl, rfl, rfl, rfl, ⟨fun _ _ => rfl, fun _ => rfl, rfl, ⟨rfl, rfl, rfl⟩⟩, ⟨rfl, rfl⟩⟩

/-- Settles O33: SER's bytes stand for the value (`exec_deser_wireBytes`), and the bytes of a block's value are those of
the block (`readByte_memWrite_wireBytes`). -/
theorem serializationRoundTrips : Obligations.SerializationRoundTrips := by
  refine ⟨?serDeser, ?deserSer⟩
  case serDeser =>
    intro s rd ra addr len hp hcanon hlen h
    let t := (s.memWrite addr (wireBytes (s.value ra))).retire (BitVec.ofNat 32 (ceilDiv (bitlen (s.value ra)) 8))
    have hres : t.result.toNat = ceilDiv (bitlen (s.value ra)) 8 := toNat_ofNat_of_fits hp h hlen
    have hmem : t.memRead addr (ceilDiv (bitlen (s.value ra)) 8) = wireBytes (s.value ra) :=
      wireBytes_length (s.value ra) ▸ s.memRead_memWrite addr (wireBytes (s.value ra))
    have hload := exec_deser_wireBytes (s := t) rd ((Nat.add_le_add_left hlen addr).trans h) hmem
      (s.value_lt_vmax hcanon)
    have hu : ((t.writeValue rd (s.value ra)).retire 0).value rd = s.value ra := t.value_writeValue_self rd _
    refine ⟨t, _, exec_ser_stored h hlen, hres ▸ hload, ?_, hu, _, _, rfl, rfl, ?_⟩
    · exact (t.regs_writeValue_self rd _).trans (s.canon_value hcanon)
    · exact congrArg (fun v => BitVec.ofNat 32 (bitlen v)) hu.symm
  case deserSer =>
    intro s rd addr len hp h hv
    let v := wireValue (s.memRead addr len)
    let t := (s.writeValue rd v).retire 0
    have hval : t.value rd = v := s.value_writeValue_self rd v
    have hneed : ceilDiv (bitlen v) 8 ≤ len := s.ceilDiv_bitlen_memRead_le addr len
    have hstore := exec_ser_stored (s := t) (ra := rd) h (hval ▸ hneed)
    rw [hval] at hstore
    have hres : (BitVec.ofNat 32 (ceilDiv (bitlen v) 8)).toNat = ceilDiv (bitlen v) 8 := toNat_ofNat_of_fits hp h hneed
    refine ⟨t, _, exec_deser_loaded rd h hv, hstore, fun a => s.readByte_memWrite_wireBytes addr len a, ?_⟩
    rw [State.retire_result, hres]
    cases len with
    | zero => exact ⟨fun _ => by omega, fun hne => absurd rfl hne⟩
    | succ n =>
      have hlast := s.ceilDiv_bitlen_memRead_succ_le_iff addr n
      refine ⟨fun hne => ?_, fun _ h0 => Nat.lt_succ_of_le (hlast.mpr h0)⟩
      have : ¬ ceilDiv (bitlen v) 8 ≤ n := hlast.not.mpr (hne.resolve_left n.succ_ne_zero)
      omega

end Sys2Proof.Proofs
end

section
/-! PROOFS. The family of 41_compare_add_sub.md: the comparison and the addition of canonical digits agree with the order
and the sum of the values (R120, R122), and what CMP, ADD, ADDS and SUB do (R120 to R124). -/

namespace Sys2Proof.Machine

/-! ## How many digits a value has (00_scope.md R9) -/

theorem digitLen_mono {D v w : Nat} (hD : 0 < D) (h : v ≤ w) : digitLen D v ≤ digitLen D w :=
  (digitLen_le_iff hD (digitLen_pos w hD)).mpr (h.trans_lt (lt_two_pow_digitLen w hD))

/-- Digits as many as their value needs are those of `canon` of it. -/
theorem canonDigits_digitsVal_of_digitLen {D : Nat} {ds : List Nat} (hlt : ∀ d ∈ ds, d < 2 ^ D)
    (hlen : digitLen D (digitsVal D ds) = ds.length) : canonDigits D (digitsVal D ds) = ds := by
  rw [canonDigits, hlen, bitsOf_digitsVal hlt]

theorem canonDigits_of_lt {D v : Nat} (hD : 0 < D) (hv : v < 2 ^ D) : canonDigits D v = [v] := by
  simpa using canonDigits_digitsVal (ds := [v]) hD le_rfl (by simpa using hv) (.inl rfl)

theorem canonDigits_two_digits {D v : Nat} (hD : 0 < D) (hlo : 2 ^ D ≤ v) (hhi : v / 2 ^ D < 2 ^ D) :
    canonDigits D v = [v % 2 ^ D, v / 2 ^ D] := by
  have hmod : v % 2 ^ D < 2 ^ D := Nat.mod_lt _ (Nat.two_pow_pos D)
  have htop : v / 2 ^ D ≠ 0 := (Nat.div_pos hlo (Nat.two_pow_pos D)).ne'
  have := canonDigits_digitsVal (ds := [v % 2 ^ D, v / 2 ^ D]) hD (by simp) (by simp [hmod, hhi]) (.inr (by simp [htop]))
  simpa [Nat.mod_add_div] using this

theorem digitsVal_lt_vmax {p : Params} {ds : List Nat} (hlt : ∀ d ∈ ds, d < 2 ^ p.digitBits)
    (hlen : ds.length ≤ p.cap) : digitsVal p.digitBits ds < p.vmax :=
  (digitsVal_lt _ _ hlt).trans_le (Nat.pow_le_pow_right (by decide) (Nat.mul_le_mul_left _ hlen))

namespace Bigint.Canonical

variable {p : Params} {a b : Bigint}

theorem digitLen_val (h : a.Canonical p) : digitLen p.digitBits (a.val p.digitBits) = a.length :=
  digitLen_digitsVal (digitBits_pos p) h.1.1 h.2.2 h.2.1

theorem val_lt_two_pow_of_length_le (h : a.Canonical p) {n : Nat} (hn : a.length ≤ n) :
    a.val p.digitBits < 2 ^ (p.digitBits * n) :=
  (digitsVal_lt _ _ h.2.2).trans_le (Nat.pow_le_pow_right (by decide) (Nat.mul_le_mul_left _ hn))

/-- Of two canonical contents the longer is the larger (R120). -/
theorem val_lt_val_of_length_lt (ha : a.Canonical p) (hb : b.Canonical p) (h : a.length < b.length) :
    a.val p.digitBits < b.val p.digitBits := by
  by_contra hle
  have := digitLen_mono (digitBits_pos p) (Nat.not_lt.mp hle)
  rw [ha.digitLen_val, hb.digitLen_val] at this
  omega

/-- A sum is no shorter than its operands. -/
theorem max_length_le_digitLen_add (ha : a.Canonical p) (hb : b.Canonical p) :
    max a.length b.length ≤ digitLen p.digitBits (a.val p.digitBits + b.val p.digitBits) := by
  rw [← ha.digitLen_val, ← hb.digitLen_val]
  exact max_le (digitLen_mono (digitBits_pos p) (Nat.le_add_right _ _))
    (digitLen_mono (digitBits_pos p) (Nat.le_add_left _ _))

/-- A sum that does not fit a register has an operand of full length (R121). -/
theorem max_length_eq_cap (ha : a.Canonical p) (hb : b.Canonical p)
    (h : p.vmax ≤ a.val p.digitBits + b.val p.digitBits) : max a.length b.length = p.cap := by
  refine Nat.le_antisymm (max_le ha.1.2 hb.1.2) (Nat.not_lt.mp fun hlt => ?_)
  have hD := digitBits_pos p
  have hva := ha.val_lt_two_pow_of_length_le (le_max_left a.length b.length)
  have hvb := hb.val_lt_two_pow_of_length_le (le_max_right a.length b.length)
  have hexp : p.digitBits * max a.length b.length + 1 ≤ p.digitBits * p.cap :=
    calc p.digitBits * max a.length b.length + 1 ≤ p.digitBits * (max a.length b.length + 1) := by
          rw [Nat.mul_succ]; omega
      _ ≤ p.digitBits * p.cap := Nat.mul_le_mul_left _ hlt
  have hpow : 2 ^ (p.digitBits * max a.length b.length) * 2 ≤ p.vmax := by
    rw [← Nat.pow_succ]
    exact Nat.pow_le_pow_right (by decide) hexp
  omega

end Bigint.Canonical

/-! ## Compare (R120) -/

/-- Two numbers of one more digit each are ordered by these digits, and by the rest if they are equal. -/
theorem compare_add_mul {B v w x y : Nat} (hv : v < B) (hw : w < B) :
    compare (v + B * x) (w + B * y) = if x = y then compare v w else if x < y then .lt else .gt := by
  have below {v w x y : Nat} (hv : v < B) (h : x < y) : v + B * x < w + B * y :=
    calc v + B * x < B * (x + 1) := by rw [Nat.mul_succ]; omega
      _ ≤ B * y := Nat.mul_le_mul_left B h
      _ ≤ w + B * y := Nat.le_add_left _ _
  rcases lt_trichotomy x y with h | rfl | h
  · rw [if_neg h.ne, if_pos h, Nat.compare_eq_lt]
    exact below hv h
  · simp [Nat.compare_eq_ite_lt]
  · rw [if_neg h.ne', if_neg h.le.not_gt, Nat.compare_eq_gt]
    exact below hw h

/-- The walk from the top orders digits of equal number as their values are ordered. -/
theorem cmpFromTop_eq_compare {D : Nat} {xs ys : List Nat} (hlen : xs.length = ys.length) (hx : ∀ d ∈ xs, d < 2 ^ D)
    (hy : ∀ d ∈ ys, d < 2 ^ D) : cmpFromTop xs ys = compare (digitsVal D xs.reverse) (digitsVal D ys.reverse) := by
  induction xs generalizing ys with
  | nil =>
    obtain rfl : ys = [] := List.length_eq_zero_iff.mp hlen.symm
    rfl
  | cons x xs ih =>
    obtain _ | ⟨y, ys⟩ := ys
    · cases hlen
    have hlen : xs.length = ys.length := by simpa using hlen
    have hx : ∀ d ∈ xs, d < 2 ^ D := fun d hd => hx d (List.mem_cons_of_mem _ hd)
    have hy : ∀ d ∈ ys, d < 2 ^ D := fun d hd => hy d (List.mem_cons_of_mem _ hd)
    have hvx := digitsVal_lt D xs.reverse (by simpa using hx)
    have hvy := digitsVal_lt D ys.reverse (by simpa using hy)
    rw [List.length_reverse] at hvx hvy
    rw [← hlen] at hvy
    simp only [cmpFromTop, ih hlen hx hy, List.reverse_cons, digitsVal_append, digitsVal_cons, digitsVal_nil,
      List.length_reverse, ← hlen, Nat.mul_zero, Nat.add_zero, compare_add_mul hvx hvy]

theorem cmpDigits_eq_compare {p : Params} {a b : Bigint} (ha : a.Canonical p) (hb : b.Canonical p) :
    cmpDigits a.digits b.digits = compare (a.val p.digitBits) (b.val p.digitBits) := by
  unfold cmpDigits
  rcases lt_trichotomy a.digits.length b.digits.length with h | h | h
  · rw [if_neg h.ne, if_pos h, eq_comm, Nat.compare_eq_lt]
    exact ha.val_lt_val_of_length_lt hb h
  · have := cmpFromTop_eq_compare (D := p.digitBits) (xs := a.digits.reverse) (ys := b.digits.reverse) (by simpa using h)
      (by simpa using ha.2.2) (by simpa using hb.2.2)
    rw [if_pos h, this, List.reverse_reverse, List.reverse_reverse]
    rfl
  · rw [if_neg h.ne', if_neg h.le.not_gt, eq_comm, Nat.compare_eq_gt]
    exact hb.val_lt_val_of_length_lt ha h

theorem toInt_cmpResult (a b : Nat) : (cmpResult a b).toInt = if a < b then -1 else if a = b then 0 else 1 := by
  unfold cmpResult
  split_ifs <;> decide

/-! ## Add (R122) -/

@[simp] theorem pairDigits_length (a b : List Nat) : (pairDigits a b).length = max a.length b.length := by
  simp [pairDigits]

/-- Reading the shorter operand as 0 above its own digits does not change its value. -/
theorem digitsVal_map_fst_pairDigits (D : Nat) (a b : List Nat) :
    digitsVal D ((pairDigits a b).map Prod.fst) = digitsVal D a := by
  rw [pairDigits, List.map_fst_zip (by simp), digitsVal_append, digitsVal_replicate_zero, Nat.mul_zero, Nat.add_zero]

theorem digitsVal_map_snd_pairDigits (D : Nat) (a b : List Nat) :
    digitsVal D ((pairDigits a b).map Prod.snd) = digitsVal D b := by
  rw [pairDigits, List.map_snd_zip (by simp), digitsVal_append, digitsVal_replicate_zero, Nat.mul_zero, Nat.add_zero]

@[simp] theorem addLoop_length (D : Nat) (ps : List (Nat × Nat)) (carry : Nat) :
    (addLoop D ps carry).1.length = ps.length := by
  induction ps generalizing carry with
  | nil => rfl
  | cons q ps ih => simp [addLoop, ih]

theorem lt_of_mem_addLoop {D : Nat} {ps : List (Nat × Nat)} {carry d : Nat} (h : d ∈ (addLoop D ps carry).1) :
    d < 2 ^ D := by
  induction ps generalizing carry with
  | nil => simp [addLoop] at h
  | cons q ps ih =>
    rcases List.mem_cons.mp h with rfl | h
    · exact Nat.mod_lt _ (Nat.two_pow_pos D)
    · exact ih h

/-- The masked digits and the carry out of the last one stand for the sum of the two numbers and the carry in. -/
theorem digitsVal_addLoop (D : Nat) (ps : List (Nat × Nat)) (carry : Nat) :
    digitsVal D (addLoop D ps carry).1 + 2 ^ (D * ps.length) * (addLoop D ps carry).2 =
      digitsVal D (ps.map Prod.fst) + digitsVal D (ps.map Prod.snd) + carry := by
  induction ps generalizing carry with
  | nil => simp [addLoop]
  | cons q ps ih =>
    obtain ⟨x, y⟩ := q
    have hraw := Nat.mod_add_div (addRaw x y carry) (2 ^ D)
    have hrest := ih (addRaw x y carry / 2 ^ D)
    simp only [addLoop, List.map_cons, digitsVal_cons, List.length_cons, Nat.mul_succ, Nat.pow_add]
    rw [addRaw] at hraw hrest ⊢
    linear_combination hraw + 2 ^ D * hrest

/-- R122's loop on canonical operands: as many digits as the longer one has, and a carry of 0 or 1 that decides what
`add` returns. -/
theorem exists_addDigits_eq {p : Params} {a b : Bigint} (ha : a.Canonical p) (hb : b.Canonical p) :
    ∃ ds c, ds.length = max a.length b.length ∧ (∀ d ∈ ds, d < 2 ^ p.digitBits) ∧ c < 2 ∧
      digitsVal p.digitBits ds + 2 ^ (p.digitBits * ds.length) * c = a.val p.digitBits + b.val p.digitBits ∧
      addDigits p.digitBits p.cap a.digits b.digits =
        if c = 0 then some ds else if ds.length = p.cap then none else some (ds ++ [1]) := by
  let r := addLoop p.digitBits (pairDigits a.digits b.digits) 0
  have hlen : r.1.length = max a.length b.length := by simp [r, Bigint.length]
  have hval : digitsVal p.digitBits r.1 + 2 ^ (p.digitBits * r.1.length) * r.2 =
      a.val p.digitBits + b.val p.digitBits := by
    have h := digitsVal_addLoop p.digitBits (pairDigits a.digits b.digits) 0
    rwa [digitsVal_map_fst_pairDigits, digitsVal_map_snd_pairDigits, ← addLoop_length p.digitBits _ 0] at h
  have hcarry : r.2 < 2 := by
    have hva := ha.val_lt_two_pow_of_length_le (hlen ▸ le_max_left a.length b.length)
    have hvb := hb.val_lt_two_pow_of_length_le (hlen ▸ le_max_right a.length b.length)
    exact Nat.lt_of_mul_lt_mul_left (a := 2 ^ (p.digitBits * r.1.length)) (by omega)
  exact ⟨r.1, r.2, hlen, fun _ => lt_of_mem_addLoop, hcarry, hval, hlen ▸ rfl⟩

/-- R122: the digits of the sum, or none exactly when it does not fit a register. -/
theorem addDigits_eq {p : Params} {a b : Bigint} (ha : a.Canonical p) (hb : b.Canonical p) :
    addDigits p.digitBits p.cap a.digits b.digits =
      if a.val p.digitBits + b.val p.digitBits < p.vmax then
        some (canonDigits p.digitBits (a.val p.digitBits + b.val p.digitBits)) else none := by
  have hD := digitBits_pos p
  obtain ⟨ds, c, hlen, hlt, hc, hval, hadd⟩ := exists_addDigits_eq ha hb
  have hcap : ds.length ≤ p.cap := hlen ▸ max_le ha.1.2 hb.1.2
  rw [hadd]
  rcases (show c = 0 ∨ c = 1 by omega) with rfl | rfl
  · rw [Nat.mul_zero, Nat.add_zero] at hval
    have hfit := digitsVal_lt_vmax hlt hcap
    have hle : digitLen p.digitBits (digitsVal p.digitBits ds) ≤ ds.length :=
      (digitLen_le_iff hD (hlen ▸ le_max_of_le_left ha.1.1)).mpr (digitsVal_lt _ _ hlt)
    have hge : ds.length ≤ digitLen p.digitBits (digitsVal p.digitBits ds) :=
      hlen ▸ hval ▸ ha.max_length_le_digitLen_add hb
    rw [if_pos rfl, ← hval, if_pos hfit, canonDigits_digitsVal_of_digitLen hlt (le_antisymm hle hge)]
  · rw [if_neg Nat.one_ne_zero]
    by_cases hfull : ds.length = p.cap
    · have hover : p.vmax ≤ a.val p.digitBits + b.val p.digitBits := by
        rw [Params.vmax, ← hfull]
        omega
      rw [if_pos hfull, if_neg (Nat.not_lt.mpr hover)]
    · have htop : digitsVal p.digitBits (ds ++ [1]) = a.val p.digitBits + b.val p.digitBits := by
        simpa [digitsVal_append] using hval
      have hlt1 : ∀ d ∈ ds ++ [1], d < 2 ^ p.digitBits := by
        simpa [or_imp, forall_and] using ⟨hlt, hD.ne'⟩
      have hfit := digitsVal_lt_vmax hlt1 (by rw [List.length_append, List.length_singleton]; omega)
      rw [if_neg hfull, ← htop, if_pos hfit, canonDigits_digitsVal hD (by simp) hlt1 (.inr (by simp))]

/-! ## The digits of a 32-bit scalar (R123) -/

theorem canonDigits_scalar {p : Params} {u : Nat} (hu : u < 2 ^ 32) : canonDigits p.digitBits u =
    if p.digitBits = 29 ∧ 2 ^ 29 ≤ u then [u % 2 ^ 29, u / 2 ^ 29] else [u] := by
  rcases digitBits_cases p with hD | hD <;> rw [hD]
  · split_ifs with h
    · exact canonDigits_two_digits (by decide) h.2 (by omega)
    · exact canonDigits_of_lt (by decide) (by omega)
  · exact canonDigits_of_lt (by decide) (hu.trans (by decide))

/-- A 32-bit scalar fits every register. -/
theorem scalar_lt_vmax {p : Params} (hp : p.Legal) {u : Nat} (hu : u < 2 ^ 32) : u < p.vmax := by
  have hcap : 3 ≤ p.cap := hp.1.1
  have hbits : 32 ≤ p.digitBits * p.cap := by rcases digitBits_cases p with hD | hD <;> rw [hD] <;> omega
  exact hu.trans_le (Nat.pow_le_pow_right (by decide) hbits)

/-- R123: adding the digits of the scalar gives the digits of the sum. -/
theorem addDigits_scalar {p : Params} {a : Bigint} (hp : p.Legal) (ha : a.Canonical p) {u : Nat} (hu : u < 2 ^ 32) :
    addDigits p.digitBits p.cap a.digits (canonDigits p.digitBits u) =
      if a.val p.digitBits + u < p.vmax then some (canonDigits p.digitBits (a.val p.digitBits + u)) else none := by
  have hcanon := canon_canonical (le_trans (by decide) hp.1.1) (scalar_lt_vmax hp hu)
  have h := addDigits_eq ha hcanon
  rwa [val_canon u (digitBits_pos p)] at h

/-! ## The commands, case by case (R121 to R124) -/

namespace State

variable (s : State)

theorem finishValue_of_lt {rd : Reg} {v : Nat} (hv : v < s.vmax) :
    s.finishValue rd v = (s.writeValue rd v).retire 0 := if_neg (Nat.not_le.mpr hv)

theorem finishValue_of_le {rd : Reg} {v : Nat} (hv : s.vmax ≤ v) :
    s.finishValue rd v = s.failDestination rd .capacity := if_pos hv

/-- What `B[rd] <- v; retire(0)` leaves, for `v < VMAX`. -/
theorem writeValue_retire_effect (hp : s.par.Legal) (rd : Reg) {v : Nat} (hv : v < s.vmax) :
    ((s.writeValue rd v).retire 0).Holds rd v ∧ Succeeded 0 s ((s.writeValue rd v).retire 0) ∧
      Keeps [rd] s ((s.writeValue rd v).retire 0) ∧ NoDraw s ((s.writeValue rd v).retire 0) :=
  ⟨writeValue_holds s (le_trans (by decide) hp.1.1) hv, s.writeValue_retire_succeeded rd v 0,
    s.writeValue_retire_keeps rd v 0, s.writeValue_retire_noDraw rd v 0⟩

/-- A command that ends in `finishValue` writes a result that fits. -/
theorem finishValue_fits (hp : s.par.Legal) (rd : Reg) {v : Nat} (hv : v < s.vmax) :
    (s.finishValue rd v).Holds rd v ∧ Succeeded 0 s (s.finishValue rd v) ∧ Keeps [rd] s (s.finishValue rd v) ∧
      NoDraw s (s.finishValue rd v) := by
  rw [finishValue_of_lt s hv]
  exact writeValue_retire_effect s hp rd hv

/-- A command that ends in `finishValue` fails with CAPACITY on a result that does not fit. -/
theorem finishValue_overflows (hp : s.par.Legal) (rd : Reg) {v : Nat} (hv : s.vmax ≤ v) :
    FailedInto rd .capacity s (s.finishValue rd v) := by
  rw [finishValue_of_le s hv]
  exact failDestination_into s (le_trans (by decide) hp.1.1) rd .capacity

end State

theorem exec_sub_underflow {s : State} (rd : Reg) {ra rb : Reg} (h : s.value ra < s.value rb) :
    exec (.sub rd ra rb) s = .next (s.raiseError .subUnderflow) := by
  rw [exec, execSub, if_pos h]

theorem exec_sub_difference {s : State} (rd : Reg) {ra rb : Reg} (h : s.value rb ≤ s.value ra) :
    exec (.sub rd ra rb) s = .next ((s.writeValue rd (s.value ra - s.value rb)).retire 0) := by
  rw [exec, execSub, if_neg (Nat.not_lt.mpr h)]

end Sys2Proof.Machine

/-! ## The obligations -/

namespace Sys2Proof.Proofs

open Sys2Proof Sys2Proof.Machine

/-- Settles O35: RESULT is the order of the values, and so is the walk over canonical digits (`cmpDigits_eq_compare`). -/
theorem cmpComparesValues : Obligations.CmpComparesValues := by
  refine ⟨encodedAs_getElem 7 (by decide), fun s ra rb hregs => ⟨?_, cmpDigits_eq_compare (hregs ra) (hregs rb)⟩⟩
  exact ⟨_, rfl, toInt_cmpResult _ _, s.retire_succeeded _, s.retire_keeps _, s.retire_noDraw _⟩

/-- Settles O36: ADD ends in `finishValue` of the sum. -/
theorem addGivesTheSum : Obligations.AddGivesTheSum := by
  refine ⟨encodedAs_getElem 8 (by decide), fun s rd ra rb hp => ⟨fun hv => ?fits, fun hv => ⟨?capacity, ?full⟩⟩⟩
  case fits => exact ⟨_, rfl, s.finishValue_fits hp rd hv⟩
  case capacity => exact ⟨_, rfl, s.finishValue_overflows hp rd hv⟩
  case full => exact fun ha hb => ha.max_length_eq_cap hb hv

/-- Settles O37: ADDS ends in `finishValue` of the sum, and its digit procedure is that of ADD (`addDigits_eq`) with the
digits of the scalar. -/
theorem addsAddsTheScalar : Obligations.AddsAddsTheScalar := by
  refine ⟨encodedAs_getElem 9 (by decide), fun s rd ra u hp => ⟨fun hv => ?fits, fun hv => ?capacity, ?digits⟩⟩
  case fits => exact ⟨_, rfl, s.finishValue_fits hp rd hv⟩
  case capacity => exact ⟨_, rfl, s.finishValue_overflows hp rd hv⟩
  case digits => exact fun hu ha => ⟨canonDigits_scalar hu, addDigits_scalar hp ha hu⟩

/-- Settles O38: a difference is at most the first operand, so it fits. -/
theorem subGivesTheDifference : Obligations.SubGivesTheDifference := by
  refine ⟨encodedAs_getElem 10 (by decide), fun s rd ra rb hp hcanon => ⟨fun hlt => ?underflow, fun hle => ?difference⟩⟩
  case underflow => exact ⟨_, exec_sub_underflow rd hlt, s.raiseError_cleanly _⟩
  case difference =>
    have hfit : s.value ra - s.value rb < s.vmax := (Nat.sub_le _ _).trans_lt (s.value_lt_vmax hcanon)
    obtain ⟨⟨hval, hrd⟩, hend⟩ := s.writeValue_retire_effect hp rd hfit
    exact ⟨_, exec_sub_difference rd hle, by omega, hrd, hend⟩

end Sys2Proof.Proofs
end

section
/-! PROOFS. The family of 42_multiply.md: how large a product of canonical contents is, and what MUL does (R140). -/

namespace Sys2Proof.Machine

/-! ## The size of a product (R140) -/

/-- The product has at most as many digits as its factors have together. -/
theorem Bigint.Canonical.val_mul_val_lt {p : Params} {a b : Bigint} (ha : a.Canonical p) (hb : b.Canonical p) :
    a.val p.digitBits * b.val p.digitBits < 2 ^ (p.digitBits * (a.length + b.length)) := by
  rw [Nat.mul_add, Nat.pow_add]
  exact Nat.mul_lt_mul'' (ha.val_lt_two_pow_of_length_le le_rfl) (hb.val_lt_two_pow_of_length_le le_rfl)

/-- A product for which MUL's capacity test finds room fits a register. -/
theorem Bigint.Canonical.val_mul_val_lt_vmax {p : Params} {a b : Bigint} (ha : a.Canonical p) (hb : b.Canonical p)
    (hcap : a.length + b.length ≤ p.cap) : a.val p.digitBits * b.val p.digitBits < p.vmax :=
  (ha.val_mul_val_lt hb).trans_le (Nat.pow_le_pow_right (by decide) (Nat.mul_le_mul_left _ hcap))

/-! ## The command, case by case (R140) -/

section

variable {s : State} {ra rb : Reg} (rd : Reg)

theorem exec_mul_zero (h : s.value ra = 0 ∨ s.value rb = 0) :
    exec (.mul rd ra rb) s = .next ((s.writeValue rd 0).retire 0) := by
  rw [exec, execMul, if_pos h]

/-- Operands that are not 0 are multiplied if their lengths together are at most `CAP`. -/
theorem exec_mul_nonzero (ha : s.regs[ra].Canonical s.par) (hb : s.regs[rb].Canonical s.par) (hva : s.value ra ≠ 0)
    (hvb : s.value rb ≠ 0) : exec (.mul rd ra rb) s =
      .next (if s.par.cap < s.regs[ra].length + s.regs[rb].length then s.failDestination rd .capacity
        else (s.writeValue rd (s.value ra * s.value rb)).retire 0) := by
  have hla : digitLen s.digitBits (s.value ra) = s.regs[ra].length := ha.digitLen_val
  have hlb : digitLen s.digitBits (s.value rb) = s.regs[rb].length := hb.digitLen_val
  rw [exec, execMul, if_neg (not_or.mpr ⟨hva, hvb⟩), hla, hlb]

end

end Sys2Proof.Machine

/-! ## The obligations -/

namespace Sys2Proof.Proofs

open Sys2Proof Sys2Proof.Machine

/-- Settles O41: past the zero operands MUL tests the sum of the lengths, and a product that passes the test fits
(`val_mul_val_lt_vmax`). -/
theorem mulGivesTheProduct : Obligations.MulGivesTheProduct := by
  refine ⟨encodedAs_getElem 11 (by decide), fun s rd ra rb hp ha hb => ⟨fun hzero => ?zero, fun hva hvb hlong => ?capacity,
    fun hva hvb hfit => ?product⟩⟩
  case zero => exact ⟨_, exec_mul_zero rd hzero, s.writeValue_retire_effect hp rd (vmax_pos s.par)⟩
  case capacity =>
    rw [exec_mul_nonzero rd ha hb hva hvb, if_pos hlong]
    exact ⟨_, rfl, s.failDestination_into (le_trans (by decide) hp.1.1) rd .capacity⟩
  case product =>
    rw [exec_mul_nonzero rd ha hb hva hvb, if_neg (Nat.not_lt.mpr hfit)]
    exact ⟨_, rfl, s.writeValue_retire_effect hp rd (ha.val_mul_val_lt_vmax hb hfit)⟩

end Sys2Proof.Proofs
end

section
/-! PROOFS. The family of 43_divide.md: what DIV and MOD do, with their checks of the register numbers and
of the divisor (R150, R159). -/

namespace Sys2Proof.Machine

/-! ## The check of the register numbers (R150, R159) -/

@[simp] theorem aliases_iff_mem {rd : Reg} {sources : List Reg} : aliases rd sources = true ↔ rd ∈ sources :=
  List.contains_iff_mem

theorem divAliases_iff {rd ra rb rc : Reg} :
    divAliases rd ra rb rc = true ↔ rd = ra ∨ rd = rb ∨ rd = rc ∨ rc = ra ∨ rc = rb := by
  simp [divAliases, or_assoc]

/-! ## Two destinations (R150) -/

namespace State

variable {s : State}

/-- A write to one register leaves what another one holds. -/
theorem Holds.writeValue_other {r q : Reg} {v : Nat} (h : s.Holds r v) (w : Nat) (hne : r ≠ q) :
    (s.writeValue q w).Holds r v := by
  obtain ⟨hval, hcanon⟩ := h
  refine ⟨(s.value_writeValue_other w hne).trans hval, ?_⟩
  rw [s.regs_writeValue_other w hne]
  exact hcanon

/-- What `B[rd] <- q; B[rc] <- r; retire(0)` leaves, for two registers and `q, r < VMAX`. -/
theorem writeValue_writeValue_retire_effect (hp : s.par.Legal) {rd rc : Reg} (hne : rd ≠ rc) {q r : Nat}
    (hq : q < s.vmax) (hr : r < s.vmax) {t : State} (ht : ((s.writeValue rd q).writeValue rc r).retire 0 = t) :
    t.Holds rd q ∧ t.Holds rc r ∧ Succeeded 0 s t ∧ Keeps [rd, rc] s t ∧ NoDraw s t := by
  subst ht
  have hcap : 1 ≤ s.par.cap := le_trans (by decide) hp.1.1
  have hothers : SameRegsBut [rd, rc] s ((s.writeValue rd q).writeValue rc r) := by
    intro x hx
    obtain ⟨hxd, hxc⟩ : x ≠ rd ∧ x ≠ rc := by simpa using hx
    rw [(s.writeValue rd q).regs_writeValue_other r hxc, s.regs_writeValue_other q hxd]
  exact ⟨(s.writeValue_holds hcap hq).writeValue_other r hne, (s.writeValue rd q).writeValue_holds hcap hr,
    ⟨rfl, rfl, rfl, rfl, rfl, rfl⟩, ⟨hothers, fun _ => rfl, rfl, ⟨rfl, rfl, rfl⟩⟩, ⟨rfl, rfl⟩⟩

/-- A quotient by a register fits where the dividend does. -/
theorem value_div_lt_vmax {ra : Reg} (h : s.regs[ra].Canonical s.par) (rb : Reg) : s.value ra / s.value rb < s.vmax :=
  (Nat.div_le_self _ _).trans_lt (s.value_lt_vmax h)

/-- A remainder fits where the divisor does, whatever the dividend. -/
theorem mod_value_lt_vmax {rb : Reg} (h : s.regs[rb].Canonical s.par) (hb : s.value rb ≠ 0) (a : Nat) :
    a % s.value rb < s.vmax :=
  (Nat.mod_lt a (Nat.pos_of_ne_zero hb)).trans (s.value_lt_vmax h)

end State

/-! ## The commands, case by case (R150, R159) -/

section

variable {s : State} {rd ra rb rc : Reg}

theorem exec_div_clash (h : divAliases rd ra rb rc = true) :
    exec (.div rd ra rb rc) s = .next (s.raiseError .illegalAlias) := by
  rw [exec, execDiv, if_pos h]

theorem exec_div_zero (h : ¬ divAliases rd ra rb rc = true) (hb : s.value rb = 0) :
    exec (.div rd ra rb rc) s = .next (s.raiseError .divByZero) := by
  rw [exec, execDiv, if_neg h, if_pos hb]

theorem exec_div_nonzero (h : ¬ divAliases rd ra rb rc = true) (hb : s.value rb ≠ 0) :
    exec (.div rd ra rb rc) s =
      .next (((s.writeValue rd (s.value ra / s.value rb)).writeValue rc (s.value ra % s.value rb)).retire 0) := by
  rw [exec, execDiv, if_neg h, if_neg hb]

theorem exec_mod_clash (h : aliases rd [ra, rb] = true) :
    exec (.mod rd ra rb) s = .next (s.raiseError .illegalAlias) := by
  rw [exec, execMod, if_pos h]

theorem exec_mod_zero (h : ¬ aliases rd [ra, rb] = true) (hb : s.value rb = 0) :
    exec (.mod rd ra rb) s = .next (s.raiseError .divByZero) := by
  rw [exec, execMod, if_neg h, if_pos hb]

theorem exec_mod_nonzero (h : ¬ aliases rd [ra, rb] = true) (hb : s.value rb ≠ 0) :
    exec (.mod rd ra rb) s = .next ((s.writeValue rd (s.value ra % s.value rb)).retire 0) := by
  rw [exec, execMod, if_neg h, if_neg hb]

end

end Sys2Proof.Machine

/-! ## The obligations -/

namespace Sys2Proof.Proofs

open Sys2Proof Sys2Proof.Machine

/-- Settles O44: past the checks DIV writes the quotient and the remainder of the values to two registers that differ,
and both fit (`value_div_lt_vmax`, `mod_value_lt_vmax`). -/
theorem divGivesQuotientAndRemainder : Obligations.DivGivesQuotientAndRemainder := by
  refine ⟨encodedAs_getElem 12 (by decide), fun s rd ra rb rc hp ha hb => ?_⟩
  refine ⟨fun hclash => ?clash, fun hclash hzero => ?zero, fun hclash hne => ?quotient⟩
  case clash => exact ⟨_, exec_div_clash (divAliases_iff.mpr hclash), s.raiseError_cleanly _⟩
  case zero => exact ⟨_, exec_div_zero (divAliases_iff.not.mpr hclash) hzero, s.raiseError_cleanly _⟩
  case quotient =>
    have hrd : rd ≠ rc := fun h => hclash (.inr (.inr (.inl h)))
    obtain ⟨⟨hq, hrdCanon⟩, ⟨hr, hrcCanon⟩, hend⟩ := State.writeValue_writeValue_retire_effect hp hrd
      (State.value_div_lt_vmax ha rb) (State.mod_value_lt_vmax hb hne (s.value ra)) rfl
    refine ⟨_, exec_div_nonzero (divAliases_iff.not.mpr hclash) hne, ?_, ?_, hrdCanon, hrcCanon, hend⟩
    · rw [hq, hr, Nat.div_add_mod']
    · rw [hr]
      exact Nat.mod_lt _ (Nat.pos_of_ne_zero hne)

/-- Settles O45: past the checks MOD writes the remainder, which fits since the divisor does (`mod_value_lt_vmax`). -/
theorem modGivesTheRemainder : Obligations.ModGivesTheRemainder := by
  refine ⟨encodedAs_getElem 13 (by decide), fun s rd ra rb hp hb => ?_⟩
  refine ⟨fun hclash => ?clash, fun hra hrb hzero => ?zero, fun hra hrb hne => ?remainder⟩
  case clash => exact ⟨_, exec_mod_clash (by simpa using hclash), s.raiseError_cleanly _⟩
  case zero => exact ⟨_, exec_mod_zero (by simp [hra, hrb]) hzero, s.raiseError_cleanly _⟩
  case remainder =>
    exact ⟨_, exec_mod_nonzero (by simp [hra, hrb]) hne,
      s.writeValue_retire_effect hp rd (State.mod_value_lt_vmax hb hne _)⟩

end Sys2Proof.Proofs
end

section
/-! PROOFS. The family of 44_modular.md: the loop of square and multiply gives the power (R171), the Euclidean loop with
signs gives the inverse (R174, R175), and what MODPOW and MODINV do with their checks (R170, R173). -/

namespace Sys2Proof.Machine

/-! ## Square and multiply (R171) -/

/-- The power at the halved exponent, as one round of R171 makes it. -/
theorem mul_pow_eq_halved (r a e : Nat) :
    r * a ^ e = (if e % 2 = 1 then r * a else r) * (a * a) ^ (e / 2) := by
  have ha : a ^ e = a ^ (e % 2) * (a * a) ^ (e / 2) := by
    rw [← Nat.pow_two, ← Nat.pow_mul, ← Nat.pow_add, Nat.mod_add_div]
  rw [ha]
  rcases Nat.mod_two_eq_zero_or_one e with h | h <;> simp [h, Nat.mul_assoc]

/-- The invariant of R171: `result · a^exp` keeps its residue. -/
theorem modPowLoop_eq {m fuel r a e : Nat} (hr : r < m) (he : e < 2 ^ fuel) :
    modPowLoop m fuel r a e = r * a ^ e % m := by
  induction fuel generalizing r a e with
  | zero =>
    obtain rfl : e = 0 := by simpa using he
    simp [modPowLoop, Nat.mod_eq_of_lt hr]
  | succ fuel ih =>
    rw [modPowLoop]
    split_ifs with h0 h1
    · simp [h0, Nat.mod_eq_of_lt hr]
    · rw [ih (Nat.mod_lt _ (by omega)) (by omega), mul_pow_eq_halved r a e, if_pos h1]
      exact (Nat.mod_modEq _ _).mul ((Nat.mod_modEq _ _).pow _)
    · rw [ih hr (by omega), mul_pow_eq_halved r a e, if_neg h1]
      exact ((Nat.mod_modEq _ _).pow _).mul_left _

/-- `mod_pow` is the naive power modulo `m` (R170). -/
theorem modPow_eq {m : Nat} (hm : m ≠ 0) (n e : Nat) : modPow n e m = n ^ e % m := by
  unfold modPow
  split_ifs with h1
  · rw [h1, Nat.mod_one]
  · rw [modPowLoop_eq (by omega) (lt_two_pow_bitlen e), Nat.one_mul]

/-! ## Signed numbers (R175) -/

/-- The number a magnitude and a sign bit stand for. -/
def Signed.toInt (x : Signed) : Int := if x.neg then -x.mag else x.mag

@[simp] theorem Signed.toInt_mk_true (k : Nat) : (⟨k, true⟩ : Signed).toInt = -k := rfl

@[simp] theorem Signed.toInt_mk_false (k : Nat) : (⟨k, false⟩ : Signed).toInt = k := rfl

theorem Signed.toInt_scale (q : Nat) (y : Signed) : (⟨q * y.mag, y.neg⟩ : Signed).toInt = q * y.toInt := by
  obtain ⟨k, neg⟩ := y
  cases neg <;> simp

/-- The table of R175 is the subtraction of signed numbers. -/
theorem Signed.toInt_signedSub (x p : Signed) : (signedSub x p).toInt = x.toInt - p.toInt := by
  obtain ⟨j, xneg⟩ := x
  obtain ⟨k, pneg⟩ := p
  match xneg, pneg with
  | false, false =>
    simp only [signedSub]
    split_ifs <;> simp <;> omega
  | false, true => simp [signedSub]
  | true, false =>
    simp [signedSub]
    omega
  | true, true =>
    simp only [signedSub]
    split_ifs <;> simp <;> omega

theorem Signed.abs_toInt (x : Signed) : |x.toInt| = x.mag := by
  obtain ⟨k, neg⟩ := x
  cases neg <;> simp

/-! ## The Euclidean loop (R174) -/

/-- What R174's loop for `a` and `m` keeps: `x` and `y` are the coefficients of `a` in `a_cur` and `m_cur` modulo `m`,
their product is never positive, their magnitudes weighted with `m_cur` and `a_cur` add up to `m`, and that of `x`, which
is the result in the end, is at most `m`. -/
structure EuclidInv (a m aCur mCur : Nat) (x y : Int) : Prop where
  xCoeff : a * x ≡ aCur [ZMOD m]
  yCoeff : a * y ≡ mCur [ZMOD m]
  signs : x * y ≤ 0
  weights : |y| * aCur + |x| * mCur = m
  bound : |x| ≤ m

theorem EuclidInv.start (a : Nat) {m : Nat} (hm : 1 ≤ m) : EuclidInv a m a m 1 0 where
  xCoeff := by rw [mul_one]
  yCoeff := by simpa using (Int.modEq_zero_iff_dvd.mpr dvd_rfl).symm
  signs := by simp
  weights := by simp
  bound := by simpa using hm

/-- A multiple of the number of the other sign is subtracted: the magnitudes add up. -/
theorem abs_sub_mul_of_mul_nonpos {x y q : Int} (hq : 0 ≤ q) (h : x * y ≤ 0) : |x - q * y| = |x| + q * |y| := by
  have hsame : 0 ≤ x ∧ 0 ≤ -(q * y) ∨ x ≤ 0 ∧ -(q * y) ≤ 0 := by
    rcases mul_nonpos_iff.mp h with ⟨hx, hy⟩ | ⟨hx, hy⟩
    · exact .inl ⟨hx, neg_nonneg.mpr (mul_nonpos_of_nonneg_of_nonpos hq hy)⟩
    · exact .inr ⟨hx, neg_nonpos.mpr (mul_nonneg hq hy)⟩
  rw [sub_eq_add_neg, (abs_add_eq_add_abs_iff _ _).mpr hsame, abs_neg, abs_mul, abs_of_nonneg hq]

/-- One round of R174. -/
theorem EuclidInv.round {a m aCur mCur : Nat} {x y : Int} (h : EuclidInv a m aCur mCur x y) (ha : 1 < aCur) :
    EuclidInv a m mCur (aCur % mCur) y (x - (aCur / mCur : Nat) * y) := by
  obtain ⟨hx, hy, hsigns, hweights, -⟩ := h
  have hrem : ((aCur % mCur : Nat) : Int) = aCur - (aCur / mCur : Nat) * mCur :=
    eq_sub_of_add_eq (by exact_mod_cast Nat.mod_add_div' aCur mCur)
  refine ⟨hy, ?yCoeff, ?signs, ?weights, ?bound⟩
  case yCoeff =>
    rw [hrem, mul_sub, mul_left_comm]
    exact hx.sub (hy.mul_left _)
  case signs => nlinarith [mul_nonneg (Int.natCast_nonneg (aCur / mCur)) (mul_self_nonneg y)]
  case weights =>
    rw [abs_sub_mul_of_mul_nonpos (Int.natCast_nonneg _) hsigns, hrem, ← hweights]
    ring
  case bound =>
    calc |y| ≤ |y| * aCur := le_mul_of_one_le_right (abs_nonneg y) (by exact_mod_cast ha.le)
      _ ≤ m := hweights ▸ le_add_of_nonneg_right (by positivity)

/-- A number the loop of R174 ends with is an inverse, of magnitude at most `m`. -/
theorem modInvLoop_some {a m fuel aCur mCur : Nat} {x y z : Signed} (h : EuclidInv a m aCur mCur x.toInt y.toInt)
    (hz : modInvLoop fuel aCur mCur x y = some z) : a * z.toInt ≡ 1 [ZMOD m] ∧ |z.toInt| ≤ m := by
  induction fuel generalizing aCur mCur x y with
  | zero => cases hz
  | succ fuel ih =>
    rw [modInvLoop] at hz
    split_ifs at hz with hgt hzero hone
    · refine ih ?_ hz
      rw [Signed.toInt_signedSub, Signed.toInt_scale]
      exact h.round hgt
    · obtain rfl : aCur = 1 := by omega
      obtain rfl : x = z := by simpa using hz
      exact ⟨h.xCoeff, h.bound⟩

/-- The loop of R174 finds no inverse exactly when the greatest common divisor is not 1: a round keeps it, and makes
`m_cur` smaller. -/
theorem modInvLoop_eq_none_iff {fuel aCur mCur : Nat} {x y : Signed} (hfuel : mCur < fuel)
    (hstart : aCur = 0 → mCur ≠ 1) : modInvLoop fuel aCur mCur x y = none ↔ Nat.gcd aCur mCur ≠ 1 := by
  induction fuel generalizing aCur mCur x y with
  | zero => omega
  | succ fuel ih =>
    rw [modInvLoop]
    split_ifs with hgt hzero hone
    · simp [hzero, hgt.ne']
    · have hlt : aCur % mCur < mCur := Nat.mod_lt _ (Nat.pos_of_ne_zero hzero)
      rw [ih (by omega) (fun h => absurd h hzero), Nat.gcd_comm, ← Nat.gcd_rec, Nat.gcd_comm]
    · simpa [hone] using hstart hone
    · obtain rfl : aCur = 1 := by omega
      simp

/-- `mod_inv` fails exactly where there is no inverse (R173). -/
theorem modInv_eq_none_iff {a m : Nat} (hm : 2 ≤ m) : modInv a m = none ↔ Nat.gcd a m ≠ 1 := by
  rw [modInv, if_neg (by omega), Option.map_eq_none_iff, modInvLoop_eq_none_iff (by omega) (by omega)]

theorem modInv_one (a : Nat) : modInv a 1 = some 0 := rfl

theorem Signed.residue_le {m : Nat} {z : Signed} (h : |z.toInt| ≤ m) :
    (if z.neg then m - z.mag else z.mag) ≤ m := by
  have hmag : z.mag ≤ m := by exact_mod_cast z.abs_toInt ▸ h
  split_ifs
  · exact Nat.sub_le _ _
  · exact hmag

/-- The end of R174, "if negative, add `m`", keeps the residue. -/
theorem Signed.residue_modEq {m : Nat} {z : Signed} (h : |z.toInt| ≤ m) :
    ((if z.neg then m - z.mag else z.mag : Nat) : Int) ≡ z.toInt [ZMOD m] := by
  have hmag : z.mag ≤ m := by exact_mod_cast z.abs_toInt ▸ h
  obtain ⟨k, neg⟩ := z
  cases neg
  · rfl
  · simp [Nat.cast_sub hmag, sub_eq_add_neg]

/-- `mod_inv` gives an inverse below `m` (R173). -/
theorem modInv_some {a m v : Nat} (hm : 2 ≤ m) (h : modInv a m = some v) : v < m ∧ a * v % m = 1 := by
  rw [modInv, if_neg (by omega), Option.map_eq_some_iff] at h
  obtain ⟨z, hz, hv⟩ := h
  obtain ⟨hinv, hbound⟩ := modInvLoop_some (EuclidInv.start a (by omega)) hz
  have hle : v ≤ m := hv ▸ Signed.residue_le hbound
  have hmod : a * v % m = 1 := by
    have hint : ((a * v : Nat) : Int) ≡ (1 : Nat) [ZMOD m] := by
      rw [← hv]
      push_cast [-Nat.cast_ite]
      exact ((Signed.residue_modEq hbound).mul_left _).trans hinv
    rw [Int.natCast_modEq_iff.mp hint, Nat.mod_eq_of_lt hm]
  refine ⟨hle.lt_of_ne ?_, hmod⟩
  rintro rfl
  simp at hmod

/-- There is one inverse below `m`. -/
theorem inverse_unique {a m v w : Nat} (hgcd : Nat.gcd a m = 1) (hv : v < m) (hw : w < m) (hav : a * v % m = 1)
    (haw : a * w % m = 1) : v = w :=
  (Nat.ModEq.cancel_left_of_coprime (Nat.gcd_comm a m ▸ hgcd) (hav.trans haw.symm)).eq_of_lt_of_lt hv hw

/-! ## The commands, case by case (R170, R173) -/

section

variable {s : State} {rd ra rb rc : Reg}

theorem exec_modpow_clash (h : aliases rd [ra, rb, rc] = true) :
    exec (.modpow rd ra rb rc) s = .next (s.raiseError .illegalAlias) := by
  rw [exec, execModpow, if_pos h]

theorem exec_modpow_zero (h : ¬ aliases rd [ra, rb, rc] = true) (hc : s.value rc = 0) :
    exec (.modpow rd ra rb rc) s = .next (s.raiseError .divByZero) := by
  rw [exec, execModpow, if_neg h, if_pos hc]

theorem exec_modpow_nonzero (h : ¬ aliases rd [ra, rb, rc] = true) (hc : s.value rc ≠ 0) :
    exec (.modpow rd ra rb rc) s =
      .next ((s.writeValue rd (s.value ra ^ s.value rb % s.value rc)).retire 0) := by
  rw [exec, execModpow, if_neg h, if_neg hc, modPow_eq hc]

theorem exec_modinv_clash (h : aliases rd [ra, rb] = true) :
    exec (.modinv rd ra rb) s = .next (s.raiseError .illegalAlias) := by
  rw [exec, execModinv, if_pos h]

theorem exec_modinv_zero (h : ¬ aliases rd [ra, rb] = true) (hb : s.value rb = 0) :
    exec (.modinv rd ra rb) s = .next (s.raiseError .divByZero) := by
  rw [exec, execModinv, if_neg h, if_pos hb]

theorem exec_modinv_none (h : ¬ aliases rd [ra, rb] = true) (hb : s.value rb ≠ 0)
    (hinv : modInv (s.value ra) (s.value rb) = none) :
    exec (.modinv rd ra rb) s = .next (s.failDestination rd .notInvertible) := by
  rw [exec, execModinv, if_neg h, if_neg hb, hinv]

theorem exec_modinv_some (h : ¬ aliases rd [ra, rb] = true) (hb : s.value rb ≠ 0) {v : Nat}
    (hinv : modInv (s.value ra) (s.value rb) = some v) :
    exec (.modinv rd ra rb) s = .next ((s.writeValue rd v).retire 0) := by
  rw [exec, execModinv, if_neg h, if_neg hb, hinv]

end

end Sys2Proof.Machine

/-! ## The obligations -/

namespace Sys2Proof.Proofs

open Sys2Proof Sys2Proof.Machine

/-- Settles O48: past the checks MODPOW writes a remainder by the modulus (`modPow_eq`), which fits since the modulus
does. -/
theorem modpowGivesThePower : Obligations.ModpowGivesThePower := by
  refine ⟨encodedAs_getElem 14 (by decide), fun s rd ra rb rc hp hc => ?_⟩
  refine ⟨fun hclash => ?clash, fun hclash hzero => ?zero, fun hclash hne => ?power⟩
  case clash => exact ⟨_, exec_modpow_clash (by simpa using hclash), s.raiseError_cleanly _⟩
  case zero => exact ⟨_, exec_modpow_zero (by simpa using hclash) hzero, s.raiseError_cleanly _⟩
  case power =>
    exact ⟨_, exec_modpow_nonzero (by simpa using hclash) hne,
      s.writeValue_retire_effect hp rd (State.mod_value_lt_vmax hc hne _)⟩

/-- Settles O50: `mod_inv` fails exactly where the greatest common divisor is not 1 (`modInv_eq_none_iff`), and what it
gives is an inverse below the modulus (`modInv_some`), the only one (`inverse_unique`). -/
theorem modinvGivesTheInverse : Obligations.ModinvGivesTheInverse := by
  refine ⟨encodedAs_getElem 15 (by decide), fun s rd ra rb hp hb => ?_⟩
  refine ⟨fun hclash => ?clash, fun hra hrb hzero => ?zero, fun hra hrb hm hgcd => ?none, fun hra hrb hone => ?one,
    fun hra hrb hm hgcd => ?inverse⟩
  case clash => exact ⟨_, exec_modinv_clash (by simpa using hclash), s.raiseError_cleanly _⟩
  case zero => exact ⟨_, exec_modinv_zero (by simp [hra, hrb]) hzero, s.raiseError_cleanly _⟩
  case none =>
    exact ⟨_, exec_modinv_none (by simp [hra, hrb]) (by omega) ((modInv_eq_none_iff hm).mpr hgcd),
      s.failDestination_into (le_trans (by decide) hp.1.1) rd _⟩
  case one =>
    have hinv : modInv (s.value ra) (s.value rb) = some 0 := hone ▸ modInv_one _
    exact ⟨_, exec_modinv_some (by simp [hra, hrb]) (by omega) hinv,
      s.writeValue_retire_effect hp rd (vmax_pos s.par)⟩
  case inverse =>
    obtain ⟨v, hinv⟩ := Option.ne_none_iff_exists'.mp ((modInv_eq_none_iff hm).not.mpr (not_not.mpr hgcd))
    obtain ⟨hlt, hmod⟩ := modInv_some hm hinv
    obtain ⟨⟨hval, hcanon⟩, hend⟩ := s.writeValue_retire_effect hp rd (hlt.trans (s.value_lt_vmax hb))
    refine ⟨_, exec_modinv_some (by simp [hra, hrb]) (by omega) hinv, ?_⟩
    rw [hval]
    exact ⟨hlt, hmod, fun w hw haw => inverse_unique hgcd hw hlt haw hmod, hcanon, hend⟩

end Sys2Proof.Proofs
end

section
/-! PROOFS. The family of 45_number_theory.md: the outcomes of a draw (R190), which numbers the sieve table holds (R194), the
Fermat loop on the draws the RAND port lists (R195), and what RNDBITS, RNDLIM, SIEVE and ISPRIME do with their checks (R191,
R192, R194, R195). -/

namespace Sys2Proof.Machine

/-! ## What draws leave alone (R190) -/

/-- `u` is `s` but for the values of the RAND port still to come and the count of free values. -/
def State.OnlyDraws (s u : State) : Prop := ∃ rand fresh, u = { s with rand := rand, fresh := fresh }

namespace State

theorem onlyDraws_rand (s : State) (rand : List Nat) : s.OnlyDraws { s with rand := rand } := ⟨rand, s.fresh, rfl⟩

theorem onlyDraws_draw (s : State) (lo hi : Nat) : s.OnlyDraws (s.draw lo hi).2 := ⟨_, _, s.draw_state lo hi⟩

@[simp] theorem value_rand (s : State) (rand : List Nat) (r : Reg) :
    State.value { s with rand := rand } r = s.value r := rfl

namespace OnlyDraws

variable {s u : State}

theorem retire_effect (h : s.OnlyDraws u) (w : Word) : Succeeded w s (u.retire w) ∧ Keeps [] s (u.retire w) := by
  obtain ⟨_, _, rfl⟩ := h
  exact ⟨⟨rfl, rfl, rfl, rfl, rfl, rfl⟩, fun _ _ => rfl, fun _ => rfl, rfl, ⟨rfl, rfl, rfl⟩⟩

/-- What draws and then `B[rd] <- x; retire(0)` leave, for `x < VMAX`. -/
theorem writeValue_retire_effect (h : s.OnlyDraws u) (hp : s.par.Legal) (rd : Reg) {x : Nat} (hx : x < s.vmax)
    {t : State} (ht : (u.writeValue rd x).retire 0 = t) :
    (t.value rd = x ∧ t.regs[rd] = canon s.digitBits x ∧ t.regs[rd].Canonical s.par) ∧ Succeeded 0 s t ∧
      Keeps [rd] s t := by
  obtain ⟨rand, fresh, rfl⟩ := h
  subst ht
  obtain ⟨⟨hval, hcanon⟩, -, hkeeps, -⟩ :=
    State.writeValue_retire_effect { s with rand := rand, fresh := fresh } hp rd hx
  exact ⟨⟨hval, regs_writeValue_self _ rd x, hcanon⟩, ⟨rfl, rfl, rfl, rfl, rfl, rfl⟩, hkeeps.regs, hkeeps.mem,
    hkeeps.sieve, ⟨rfl, rfl, rfl⟩⟩

end OnlyDraws

end State

/-! ## Numbers of exactly `n` bits (R191) -/

/-- The range RNDBITS draws from is the numbers of `n` bits. -/
theorem bitlen_eq_iff_mem_range {v n : Nat} (hn : 0 < n) : bitlen v = n ↔ 2 ^ (n - 1) ≤ v ∧ v ≤ 2 ^ n - 1 := by
  rw [bitlen_eq_iff hn, Nat.le_sub_one_iff_lt (Nat.two_pow_pos n)]

theorem two_pow_pred_le_two_pow_sub_one {n : Nat} (hn : 0 < n) : 2 ^ (n - 1) ≤ 2 ^ n - 1 :=
  Nat.le_sub_one_of_lt (Nat.pow_lt_pow_right (by decide) (Nat.sub_lt hn (by decide)))

theorem digitLen_of_bitlen {D v n : Nat} (hn : 0 < n) (h : bitlen v = n) : digitLen D v = ceilDiv n D := by
  subst h
  rw [digitLen, if_neg]
  rintro rfl
  simp at hn

theorem lt_vmax_of_bitlen_le {p : Params} {v : Nat} (h : bitlen v ≤ p.digitBits * p.cap) : v < p.vmax :=
  (bitlen_le_iff _ _).mp h

/-! ## The sieve table (R194) -/

/-- The loop looks at every odd candidate from `d` up to the square root: the fuel is enough. -/
theorem noOddDivisorFrom_iff {n fuel d : Nat} (hd : d % 2 = 1) (hfuel : n < d + fuel) :
    noOddDivisorFrom n fuel d = true ↔ ∀ k, d ≤ k → k % 2 = 1 → k * k ≤ n → ¬ k ∣ n := by
  induction fuel generalizing d with
  | zero =>
    simp only [noOddDivisorFrom, true_iff]
    intro k hk _ hkn
    have : k ≤ k * k := Nat.le_mul_self k
    omega
  | succ fuel ih =>
    rw [noOddDivisorFrom]
    split_ifs with hroot hdvd
    · simp only [true_iff]
      intro k hk _ hkn
      have : d * d ≤ k * k := Nat.mul_self_le_mul_self hk
      omega
    · simp only [false_iff]
      exact fun h => h d le_rfl hd (by omega) (Nat.dvd_of_mod_eq_zero hdvd)
    · rw [ih (by omega) (by omega)]
      refine ⟨fun h k hk hodd => ?_, fun h k hk => h k (by omega)⟩
      obtain rfl | hlt := hk.eq_or_lt
      · exact fun _ hk => hdvd (Nat.mod_eq_zero_of_dvd hk)
      · exact h k (by omega) hodd

/-- Trial division by odd numbers decides primality of an odd number. -/
theorem isOddPrime_iff {n : Nat} : isOddPrime n = true ↔ 3 ≤ n ∧ n % 2 = 1 ∧ n.Prime := by
  simp only [isOddPrime, Bool.and_eq_true, decide_eq_true_eq, beq_iff_eq, and_assoc]
  refine and_congr_right fun h3 => and_congr_right fun hodd => ?_
  rw [noOddDivisorFrom_iff (by decide) (by omega), Nat.prime_def_le_sqrt]
  refine ⟨fun h => ⟨by omega, fun k hk hroot hdvd => ?_⟩,
    fun ⟨_, h⟩ k hk _ hroot => h k (by omega) (Nat.le_sqrt.mpr hroot)⟩
  have hkodd : k % 2 = 1 := Nat.odd_iff.mp ((Nat.odd_iff.mpr hodd).of_dvd_nat hdvd)
  exact h k (by omega) hkodd (Nat.le_sqrt.mp hroot) hdvd

theorem mem_oddPrimesBelow_iff {N q : Nat} : q ∈ oddPrimesBelow N ↔ 3 ≤ q ∧ q < N ∧ q % 2 = 1 ∧ q.Prime := by
  rw [oddPrimesBelow, List.mem_filter, List.mem_range, isOddPrime_iff, and_left_comm]

theorem oddPrimesBelow_ascending (N : Nat) : (oddPrimesBelow N).Pairwise (· < ·) := List.pairwise_lt_range.filter _

theorem oddPrimesBelow_length_le (N : Nat) : (oddPrimesBelow N).length ≤ N := by
  simpa [oddPrimesBelow] using List.length_filter_le isOddPrime (List.range N)

/-! ## The Fermat test (R195) -/

theorem sieveMissing_iff {s : State} {sv : Bool} :
    s.sieveMissing sv = true ↔ sv = true ∧ s.status.sieveValid = false := by
  simp [State.sieveMissing]

theorem prefilter_iff_sieveHit {sieve : List Nat} {sv : Bool} {p : Nat} :
    (sv && prefilterRejects sieve p) = true ↔ SieveHit sieve sv p := by
  simp [prefilterRejects, SieveHit, Nat.dvd_iff_mod_eq_zero]

/-- The witness `w` does not show `p` composite. -/
def fermatPass (p w : Nat) : Bool := w ^ (p - 1) % p == 1

@[simp] theorem fermatPass_iff {p w : Nat} : fermatPass p w = true ↔ w ^ (p - 1) % p = 1 := beq_iff_eq

/-- On witnesses the RAND port lists, the verdict is whether all pass, and the draws end with the first that fails. -/
theorem fermatLoop_of_rand {p : Nat} (hp : p ≠ 0) {ws : List Nat} (hws : ∀ w ∈ ws, 2 ≤ w ∧ w ≤ p - 2) (rest : List Nat)
    (s : State) : fermatLoop p ws.length { s with rand := ws ++ rest } =
      (ws.all (fermatPass p), { s with rand := (ws.dropWhile (fermatPass p)).tail ++ rest }) := by
  induction ws with
  | nil => rfl
  | cons w ws ih =>
    obtain ⟨⟨hlo, hhi⟩, hws⟩ := List.forall_mem_cons.mp hws
    simp only [List.length_cons, fermatLoop, modPow_eq hp,
      State.draw_of_rand { s with rand := w :: ws ++ rest } (List.cons_append ..) hlo hhi]
    by_cases hpass : w ^ (p - 1) % p = 1
    · have hw : fermatPass p w = true := fermatPass_iff.mpr hpass
      simpa [hpass, hw] using ih hws
    · have hw : fermatPass p w = false := Bool.eq_false_iff.mpr (fermatPass_iff.not.mpr hpass)
      simp [hpass, hw]

/-! ## The commands, case by case (R191, R192, R194, R195) -/

section

variable {s : State} {rd ra : Reg} {n t : Nat} {sv : Bool}

theorem exec_rndbits_short (h : n < s.digitBits) : exec (.rndbits rd n) s = .next (s.raiseError .invalidArg) := by
  rw [exec, execRndbits, if_pos h]

theorem exec_rndbits_long (hp : s.par.Legal) (h : s.digitBits * s.par.cap < n) :
    exec (.rndbits rd n) s = .next (s.failDestination rd .capacity) := by
  have hle : s.digitBits ≤ s.digitBits * s.par.cap := Nat.le_mul_of_pos_right _ (le_trans (by decide) hp.1.1)
  rw [exec, execRndbits, if_neg (by omega), if_pos h]

theorem exec_rndbits_drawn (hlo : s.digitBits ≤ n) (hhi : n ≤ s.digitBits * s.par.cap) :
    exec (.rndbits rd n) s = .next (((s.draw (2 ^ (n - 1)) (2 ^ n - 1)).2.writeValue rd
      (s.draw (2 ^ (n - 1)) (2 ^ n - 1)).1).retire 0) := by
  rw [exec, execRndbits, if_neg (Nat.not_lt.mpr hlo), if_neg (Nat.not_lt.mpr hhi)]

theorem exec_rndbits_listed (hlo : s.digitBits ≤ n) (hhi : n ≤ s.digitBits * s.par.cap) {v : Nat} (rest : List Nat)
    (hv : 2 ^ (n - 1) ≤ v ∧ v ≤ 2 ^ n - 1) : exec (.rndbits rd n) { s with rand := v :: rest } =
      .next ((State.writeValue { s with rand := rest } rd v).retire 0) := by
  rw [exec_rndbits_drawn (s := { s with rand := v :: rest }) hlo hhi, State.draw_of_rand _ rfl hv.1 hv.2]

theorem exec_rndlim_clash (h : rd = ra) : exec (.rndlim rd ra) s = .next (s.raiseError .illegalAlias) := by
  rw [exec, execRndlim, if_pos (by simpa using h)]

theorem exec_rndlim_zero (h : rd ≠ ra) (hv : s.value ra = 0) :
    exec (.rndlim rd ra) s = .next (s.raiseError .invalidArg) := by
  rw [exec, execRndlim, if_neg (by simpa using h), if_pos hv]

theorem exec_rndlim_drawn (h : rd ≠ ra) (hv : s.value ra ≠ 0) :
    exec (.rndlim rd ra) s = .next (((s.draw 0 (s.value ra - 1)).2.writeValue rd
      (s.draw 0 (s.value ra - 1)).1).retire 0) := by
  rw [exec, execRndlim, if_neg (by simpa using h), if_neg hv]

theorem exec_rndlim_listed (h : rd ≠ ra) {v : Nat} (rest : List Nat) (hv : v < s.value ra) :
    exec (.rndlim rd ra) { s with rand := v :: rest } =
      .next ((State.writeValue { s with rand := rest } rd v).retire 0) := by
  have h0 : s.value ra ≠ 0 := by omega
  rw [exec_rndlim_drawn (s := { s with rand := v :: rest }) h h0, State.value_rand,
    State.draw_of_rand { s with rand := v :: rest } rfl (Nat.zero_le v) (Nat.le_sub_one_of_lt hv)]

theorem exec_sieve_small (h : n < 3) : exec (.sieve n) s = .next (s.raiseError .invalidArg) := by
  rw [exec, execSieve, if_pos h]

theorem exec_sieve_large (hp : s.par.Legal) (h : s.par.sieveNmax < n) :
    exec (.sieve n) s = .next (s.raiseError .capacity) := by
  have : 3 ≤ s.par.sieveNmax := hp.2.2.1
  rw [exec, execSieve, if_neg (by omega), if_pos h]

theorem exec_sieve_built (hlo : 3 ≤ n) (hhi : n ≤ s.par.sieveNmax) :
    exec (.sieve n) s = .next (State.retire (BitVec.ofNat 32 (oddPrimesBelow n).length)
      { s with sieve := oddPrimesBelow n, status := { s.status with sieveValid := true } }) := by
  rw [exec, execSieve, if_neg (Nat.not_lt.mpr hlo), if_neg (Nat.not_lt.mpr hhi)]

/-- The checks of ISPRIME fail: no trial, a table asked for that does not exist, or a number below 4. -/
def IsprimeBad (s : State) (ra : Reg) (t : Nat) (sv : Bool) : Prop :=
  t < 1 ∨ (sv = true ∧ s.status.sieveValid = false) ∨ s.value ra < 4

theorem exec_isprime_bad (h : IsprimeBad s ra t sv) :
    exec (.isprime ra t sv) s = .next (s.raiseError .invalidArg) := by
  rw [exec, execIsprime, if_pos (by rwa [sieveMissing_iff])]

theorem exec_isprime_hit (h : ¬ IsprimeBad s ra t sv) (hhit : SieveHit s.sieve sv (s.value ra)) :
    exec (.isprime ra t sv) s = .next (s.retire 0) := by
  rw [exec, execIsprime, if_neg (by rwa [sieveMissing_iff]), largePrimeTest, if_pos (prefilter_iff_sieveHit.mpr hhit)]
  rfl

theorem exec_isprime_fermat (h : ¬ IsprimeBad s ra t sv) (hhit : ¬ SieveHit s.sieve sv (s.value ra)) :
    exec (.isprime ra t sv) s = .next ((fermatLoop (s.value ra) t s).2.retire
      (if (fermatLoop (s.value ra) t s).1 then 1 else 0)) := by
  rw [exec, execIsprime, if_neg (by rwa [sieveMissing_iff]), largePrimeTest,
    if_neg (prefilter_iff_sieveHit.not.mpr hhit)]

theorem exec_isprime_listed {ws : List Nat} (h : ¬ IsprimeBad s ra ws.length sv)
    (hhit : ¬ SieveHit s.sieve sv (s.value ra)) (hws : ∀ w ∈ ws, 2 ≤ w ∧ w ≤ s.value ra - 2) (rest : List Nat) :
    exec (.isprime ra ws.length sv) { s with rand := ws ++ rest } =
      .next (State.retire (if ws.all (fermatPass (s.value ra)) then 1 else 0)
        { s with rand := (ws.dropWhile (fermatPass (s.value ra))).tail ++ rest }) := by
  have hp : s.value ra ≠ 0 := fun h0 => h (.inr (.inr (by omega)))
  rw [exec_isprime_fermat (s := { s with rand := ws ++ rest }) h hhit, State.value_rand, fermatLoop_of_rand hp hws]

end

end Sys2Proof.Machine

/-! ## The obligations -/

namespace Sys2Proof.Proofs

open Sys2Proof Sys2Proof.Machine

/-- Settles O51: a draw of RNDBITS is a number of `n` bits (`bitlen_eq_iff_mem_range`), and a number of the range that the
RAND port lists first is the draw (`exec_rndbits_listed`). -/
theorem rndbitsDrawsExactlyNBits : Obligations.RndbitsDrawsExactlyNBits := by
  refine ⟨encodedAs_getElem 16 (by decide), fun s rd n hp => ⟨fun h => ?short, fun h => ?long, fun hlo hhi => ?drawn⟩⟩
  case short => exact ⟨_, exec_rndbits_short h, s.raiseError_cleanly _⟩
  case long => exact ⟨_, exec_rndbits_long hp h, s.failDestination_into (le_trans (by decide) hp.1.1) rd _⟩
  case drawn =>
    have hn : 0 < n := (digitBits_pos s.par).trans_le hlo
    have hfit {v : Nat} (hv : bitlen v = n) : v < s.vmax := lt_vmax_of_bitlen_le (hv.trans_le hhi)
    constructor
    · have hrange := s.draw_bounds (two_pow_pred_le_two_pow_sub_one hn)
      have hbits := (bitlen_eq_iff_mem_range hn).mpr hrange
      obtain ⟨⟨hval, hreg, hcanon⟩, hend⟩ := (s.onlyDraws_draw _ _).writeValue_retire_effect hp rd (hfit hbits) rfl
      refine ⟨_, exec_rndbits_drawn hlo hhi, hval.symm ▸ hrange, hcanon, ?_, hend⟩
      rw [hreg, ← digitLen_of_bitlen hn hbits]
      exact canonDigits_length _ _
    · intro v rest hv1 hv2
      have hbits := (bitlen_eq_iff_mem_range hn).mpr ⟨hv1, hv2⟩
      obtain ⟨⟨hval, -, hcanon⟩, hend⟩ := (s.onlyDraws_rand rest).writeValue_retire_effect hp rd (hfit hbits) rfl
      exact ⟨_, exec_rndbits_listed hlo hhi rest ⟨hv1, hv2⟩, ⟨hval, hcanon⟩, rfl, hend⟩

/-- Settles O52: a draw of RNDLIM is below the limit, so it fits where the limit does, and a number below the limit that
the RAND port lists first is the draw (`exec_rndlim_listed`). -/
theorem rndlimDrawsBelowTheLimit : Obligations.RndlimDrawsBelowTheLimit := by
  refine ⟨encodedAs_getElem 17 (by decide), fun s rd ra hp ha => ⟨fun h => ?clash, fun hne h0 => ?zero,
    fun hne h0 => ?drawn⟩⟩
  case clash => exact ⟨_, exec_rndlim_clash h, s.raiseError_cleanly _⟩
  case zero => exact ⟨_, exec_rndlim_zero hne h0, s.raiseError_cleanly _⟩
  case drawn =>
    have hfit {v : Nat} (hv : v < s.value ra) : v < s.vmax := hv.trans (s.value_lt_vmax ha)
    constructor
    · have hlt : (s.draw 0 (s.value ra - 1)).1 < s.value ra := by
        have := (s.draw_bounds (Nat.zero_le (s.value ra - 1))).2
        omega
      obtain ⟨⟨hval, -, hcanon⟩, hend⟩ := (s.onlyDraws_draw _ _).writeValue_retire_effect hp rd (hfit hlt) rfl
      exact ⟨_, exec_rndlim_drawn hne h0, hval.symm ▸ hlt, hcanon, hend⟩
    · intro v rest hv
      obtain ⟨⟨hval, -, hcanon⟩, hend⟩ := (s.onlyDraws_rand rest).writeValue_retire_effect hp rd (hfit hv) rfl
      exact ⟨_, exec_rndlim_listed hne rest hv, ⟨hval, hcanon⟩, rfl, hend⟩

/-- Settles O53: the table holds the odd primes below the bound (`mem_oddPrimesBelow_iff`), and their number is at most
the bound, so it fits RESULT. -/
theorem sieveBuildsTheTable : Obligations.SieveBuildsTheTable := by
  refine ⟨encodedAs_getElem 18 (by decide), fun s n hp => ⟨fun h => ?small, fun h => ?large, fun hlo hhi => ?built⟩⟩
  case small => exact ⟨_, exec_sieve_small h, s.raiseError_cleanly _⟩
  case large => exact ⟨_, exec_sieve_large hp h, s.raiseError_cleanly _⟩
  case built =>
    have hcount : (oddPrimesBelow n).length < 2 ^ 32 := (oddPrimesBelow_length_le n).trans_lt (hhi.trans_lt hp.2.2.2)
    have hresult : (BitVec.ofNat 32 (oddPrimesBelow n).length).toNat = (oddPrimesBelow n).length := by
      rw [BitVec.toNat_ofNat, Nat.mod_eq_of_lt hcount]
    exact ⟨_, exec_sieve_built hlo hhi, oddPrimesBelow_ascending n, fun q => mem_oddPrimesBelow_iff, rfl, hresult, rfl,
      fun _ _ => rfl, fun _ => rfl, ⟨rfl, rfl, rfl⟩, ⟨rfl, rfl⟩⟩

/-- Settles O55: past the checks and the prefilter the verdict is that of the Fermat loop, which changes nothing but the
draws (`fermatLoop_state`) and takes the listed witnesses up to the first that fails (`exec_isprime_listed`). -/
theorem isprimeRunsTheFermatTest : Obligations.IsprimeRunsTheFermatTest := by
  refine ⟨encodedAs_getElem 19 (by decide), fun s ra t sv => ⟨fun hbad => ?bad, fun hok hhit => ?hit,
    fun hok hhit => ⟨?anyDraws, ?listedDraws⟩⟩⟩
  case bad => exact ⟨_, exec_isprime_bad hbad, s.raiseError_cleanly _⟩
  case hit => exact ⟨_, exec_isprime_hit hok hhit, s.retire_succeeded 0, s.retire_keeps 0, s.retire_noDraw 0⟩
  case anyDraws =>
    obtain ⟨hend, hkeeps⟩ := State.OnlyDraws.retire_effect (fermatLoop_state (s.value ra) t s)
      (if (fermatLoop (s.value ra) t s).1 then 1 else 0)
    refine ⟨_, exec_isprime_fermat hok hhit, ?_, hkeeps⟩
    split_ifs at hend ⊢
    · exact .inr hend
    · exact .inl hend
  case listedDraws =>
    rintro ws rest rfl hws
    obtain ⟨hend, hkeeps⟩ := (s.onlyDraws_rand _).retire_effect _
    refine ⟨_, exec_isprime_listed hok hhit hws rest, hkeeps, fun hall => ?_, fun hfails => ?_⟩
    · have hpass : ∀ w ∈ ws, fermatPass (s.value ra) w = true := fun w hw => fermatPass_iff.mpr (hall w hw)
      rw [if_pos (List.all_eq_true.mpr hpass)] at hend ⊢
      exact ⟨hend, by rw [State.retire_rand, List.dropWhile_eq_nil_iff.mpr hpass]; rfl⟩
    · have hverdict : ¬ ws.all (fermatPass (s.value ra)) = true := by simpa using hfails
      rw [if_neg hverdict] at hend ⊢
      exact ⟨hend, rfl⟩

end Sys2Proof.Proofs
end

section
/-! PROOFS. The family of 60_exceptions.md: which error codes each command can report (R236), and what a command that ends
in an error leaves behind (R237). -/

namespace Sys2Proof

/-! ## A field no command of the word's opcode uses (R84, R236) -/

/-- A word's fields with this opcode, `zero` 0 and every operand field set: no format uses all of them (R81). -/
def Fields.crowded (op : BitVec 8) : Fields := { op := op, rd := 1, ra := 1, rb := 1, rc := 1, zero := 0, s := 1, imm := 1 }

theorem unusedAreZero_crowded {r : Row} (h : r ∈ opcodeTable) : r.format.unusedAreZero (Fields.crowded r.op) = false := by
  revert r
  decide

theorem decode_crowded {r : Row} (h : r ∈ opcodeTable) :
    decode (Fields.crowded r.op).toWord = .error .unusedFieldSet := by
  have hfields : Fields.ofWord (Fields.crowded r.op).toWord = Fields.crowded r.op := Fields.ofWord_toWord _
  rw [Machine.encodedAs_of_mem h _ (congrArg Fields.op hfields), hfields, unusedAreZero_crowded h]
  rfl

end Sys2Proof

namespace Sys2Proof.Machine

/-! ## What is left after an error (R237) -/

theorem Keeps.mono {ds es : List Reg} {s t : State} (h : Keeps ds s t) (hsub : ds ⊆ es) : Keeps es s t where
  regs r hr := h.regs r fun hmem => hr (hsub hmem)
  mem := h.mem
  sieve := h.sieve
  outside := h.outside

/-- All registers stay canonical if those that may differ hold canonical contents. -/
theorem Keeps.regsCanonical {ds : List Reg} {s t : State} (h : Keeps ds s t) (hs : s.RegsCanonical)
    (hds : ∀ r ∈ ds, t.regs[r].Canonical s.par) : t.RegsCanonical := by
  intro r
  rw [h.outside.par]
  by_cases hr : r ∈ ds
  · exact hds r hr
  · rw [h.regs r hr]
    exact hs r

/-- A command that retires with an error reports a code of its row of the matrix (R236). It has changed nothing but RESULT
and STATUS (R237 a), or one destination besides, which then holds a canonical content (R237 b). -/
theorem Ends.of_error {i : Instr} {s t : State} (h : Ends i s t) (hidle : t.running = none)
    (herr : t.status.err = true) :
    t.status.ecode ∈ reportable i ∧
      (Keeps [] s t ∨ (t.status.ecode ∈ [ECode.capacity, .notInvertible] ∧ ∀ n, i ≠ .sieve n) ∧
        ∃ rd ∈ destinations i, Keeps [rd] s t ∧ (1 ≤ s.par.cap → t.regs[rd].Canonical s.par)) := by
  cases h with
  | retired => cases herr
  | goesOn => cases hidle
  | failed code regs fresh hcode hregs =>
    refine ⟨hcode, ?_⟩
    obtain rfl | ⟨hinto, hsieve, rd, hrd, rfl⟩ := hregs
    · exact .inl ⟨fun _ _ => rfl, fun _ => rfl, rfl, ⟨rfl, rfl, rfl⟩⟩
    · refine .inr ⟨⟨hinto, hsieve⟩, rd, hrd, ⟨fun r hr => ?_, fun _ => rfl, rfl, ⟨rfl, rfl, rfl⟩⟩, fun hcap => ?_⟩
      · exact s.regs_writeUnspecified_other (by simpa using hr)
      · exact s.writeUnspecified_canonical hcap rd

/-! ## A state in which every error of the matrix can be reported (R236) -/

theorem resetFor_regsCanonical {p : Params} (hp : p.Legal) : (State.resetFor p).RegsCanonical := by
  intro r
  have hr : (State.resetFor p).regs[r] = canon p.digitBits 0 := by simp [canonicalZero_eq_canon]
  rw [hr]
  exact canon_canonical (le_trans (by decide) hp.1.1) (vmax_pos p)

theorem State.RegsCanonical.writeValue {s : State} (hs : s.RegsCanonical) (hp : s.par.Legal) (rd : Reg) {v : Nat}
    (hv : v < s.vmax) : (s.writeValue rd v).RegsCanonical := by
  obtain ⟨⟨-, hcanon⟩, -, hkeeps, -⟩ := s.writeValue_retire_effect hp rd hv
  exact hkeeps.regsCanonical hs (by simpa using hcanon)

/-- `D = 29`, `CAP = 3`, `MEMSIZE = 64`: `B0` the largest value a register holds, `B1` and `B2` not coprime, the other
registers 0, no table, and in MEM from address 0 eleven bytes whose value is too large for a register. -/
def errorProne : State :=
  ((((State.resetFor ⟨.d29, 3, 64, 100⟩).writeValue 0 (2 ^ 87 - 1)).writeValue 1 2).writeValue 2 4).memWrite 0
    (List.replicate 11 0xFF)

theorem errorProne_regsCanonical : errorProne.RegsCanonical :=
  (((resetFor_regsCanonical (by decide)).writeValue (by decide) 0 (by decide)).writeValue (by decide) 1
    (by decide)).writeValue (by decide) 2 (by decide)

theorem errorProne_inv : errorProne.Inv where
  legal := by decide
  regs := errorProne_regsCanonical
  memForm := Memory.wf_storeBytes rfl 0 _
  memRange := by decide
  sieveSorted := .nil
  sievePrimes := by decide
  sieveEmpty _ := rfl
  errCode := by decide
  errSticky := by decide
  errResult := by decide

/-- The code `i` reports if it retires with an error. -/
def State.errorOf (s : State) (i : Instr) : Option ECode :=
  match exec i s with
  | .next t => if t.running = none ∧ t.status.err = true then some t.status.ecode else none
  | _ => none

theorem exists_exec_of_errorOf {s : State} {i : Instr} {c : ECode} (h : s.errorOf i = some c) :
    ∃ t, exec i s = .next t ∧ t.running = none ∧ t.status.err = true ∧ t.status.ecode = c := by
  unfold State.errorOf at h
  split at h
  · rename_i t ht
    split_ifs at h with hend
    exact ⟨t, ht, hend.1, hend.2, Option.some.inj h⟩
  · cases h

/-- The crosses of the matrix, each with a command that `errorProne` makes fail that way. -/
def errorCells : List (Instr × ECode) :=
  [ (.deser 3 0 11, .capacity), (.deser 3 64 1, .badAddress),
    (.ser 0 0 10, .bufTooSmall), (.ser 0 64 1, .badAddress),
    (.add 3 0 1, .capacity), (.adds 3 0 1, .capacity), (.sub 3 1 0, .subUnderflow), (.mul 3 0 1, .capacity),
    (.div 0 0 1 3, .illegalAlias), (.div 3 0 5 4, .divByZero),
    (.mod 0 0 1, .illegalAlias), (.mod 3 0 5, .divByZero),
    (.modpow 0 0 1 2, .illegalAlias), (.modpow 3 0 1 5, .divByZero),
    (.modinv 1 1 2, .illegalAlias), (.modinv 3 1 5, .divByZero), (.modinv 3 1 2, .notInvertible),
    (.rndbits 3 88, .capacity), (.rndbits 3 28, .invalidArg),
    (.rndlim 3 5, .invalidArg), (.rndlim 0 0, .illegalAlias),
    (.sieve 101, .capacity), (.sieve 2, .invalidArg),
    (.isprime 0 20 true, .invalidArg),
    (.rndprime 3 88 20 false, .capacity), (.rndprime 3 28 20 false, .invalidArg) ]

theorem errorCells_reported : ∀ p ∈ errorCells, p.1.wf = true ∧ errorProne.errorOf p.1 = some p.2 := by decide

/-- Every code a command can report is a cross of its row. -/
theorem exists_errorCell_of_reportable {i : Instr} {c : ECode} (h : c ∈ reportable i) :
    ∃ p ∈ errorCells, p.1.mnemonic = i.mnemonic ∧ p.2 = c := by
  revert c
  cases i <;> simp only [reportable, Instr.mnemonic] <;> decide

end Sys2Proof.Machine

/-! ## The obligations -/

namespace Sys2Proof.Proofs

open Sys2Proof Sys2Proof.Machine

/-- Settles O17: a failed end carries a code of the command's row (`Ends.of_error`); each cross of the matrix is reported
in one state of the invariant (`errorCells_reported`); and no format uses all fields (`decode_crowded`). -/
theorem errorMatrix : Obligations.ErrorMatrix := by
  refine ⟨fun i s t h hidle herr => ((exec_ends h).of_error hidle herr).1, fun i c hc => ?cross, fun r hr => ?illegal⟩
  case cross =>
    obtain ⟨⟨j, c⟩, hcell, hname, rfl⟩ := exists_errorCell_of_reportable hc
    obtain ⟨hwf, hreport⟩ := errorCells_reported _ hcell
    obtain ⟨t, ht⟩ := exists_exec_of_errorOf hreport
    exact ⟨j, errorProne, t, hname, hwf, errorProne_inv, ht⟩
  case illegal => exact ⟨_, congrArg Fields.op (Fields.ofWord_toWord (Fields.crowded r.op)), decode_crowded hr⟩

/-- Settles O18: an illegal word is `raise` alone, and a failed command changes nothing, or one destination, and that only
with CAPACITY of a command other than SIEVE or with NOT_INVERTIBLE (`Ends.of_error`). -/
theorem stateAfterAnError : Obligations.StateAfterAnError := by
  refine ⟨fun w e s he => ?illegal, fun i s t hp hs h hidle herr => ?failed⟩
  case illegal =>
    obtain ⟨hfailed, hkeeps, -⟩ := s.raiseError_cleanly .illegalCmd
    exact ⟨_, runCommand_of_error he s, hfailed.ecode, hkeeps, fun hs => hkeeps.regsCanonical hs (by simp)⟩
  case failed =>
    obtain ⟨-, hclean | ⟨⟨hinto, hsieve⟩, rd, hrd, hkeeps, hcanon⟩⟩ := (exec_ends h).of_error hidle herr
    · exact ⟨fun _ => hclean, fun _ => hclean.mono (List.nil_subset _), hclean.regsCanonical hs (by simp)⟩
    · refine ⟨?_, fun _ => hkeeps.mono (by simpa using hrd), hkeeps.regsCanonical hs ?_⟩
      · rintro (hbefore | ⟨n, rfl⟩)
        · have hdisjoint : ∀ c ∈ [ECode.capacity, .notInvertible], c ∉ [ECode.illegalAlias, .invalidArg, .badAddress,
              .divByZero, .subUnderflow, .bufTooSmall] := by decide
          exact absurd hbefore (hdisjoint _ hinto)
        · exact absurd rfl (hsieve n)
      · simpa using hcanon (le_trans (by decide) hp.1.1)

end Sys2Proof.Proofs
end

section
/-! PROOFS. The family of 70_reset_and_hazards.md: the state after power-up and after a host Reset (R250, R251). -/

namespace Sys2Proof.Machine

theorem State.resetFor_afterReset (p : Params) : AfterReset (State.resetFor p) where
  regs r := by simp
  status := statusWord_of_clear rfl rfl
  result := rfl
  sieve := rfl
  memUnwritten _ := rfl

/-- A host Reset writes the registers that power-up gives the same parameters. -/
theorem State.hostReset_regsCanonical {s : State} (hp : s.par.Legal) : s.hostReset.RegsCanonical :=
  resetFor_regsCanonical hp

end Sys2Proof.Machine

/-! ## The obligations -/

namespace Sys2Proof.Proofs

open Sys2Proof Sys2Proof.Machine

/-- Settles O13: power-up gives `resetFor`; a Reset that is due is the step (`step_of_due`) and gives `hostReset`, whether
a command was running or not. -/
theorem resetAtAnyTime : Obligations.ResetAtAnyTime := by
  refine ⟨fun p => ⟨State.resetFor_afterReset p, rfl, resetFor_regsCanonical⟩, fun s time es hh hdue => ?reset⟩
  case reset =>
    let u : State := { s with host := es }
    have hstep : step s = .next u.hostReset := State.step_of_due hh hdue rfl
    have hparam : u.hostReset.paramWord = s.paramWord := State.paramWord_congr rfl
    exact ⟨_, hstep, u.hostReset_afterReset, rfl, rfl, hparam, State.hostReset_regsCanonical (s := u)⟩

end Sys2Proof.Proofs
end

section
/-! PROOFS. Encoding and decoding are inverse to each other (30_encoding.md R83, R84, R88): an instruction's fields are those
of one row of the opcode table, which builds the instruction back from them. -/

namespace Sys2Proof

/-! ## The row of an instruction (R83) -/

/-- The place of an instruction's row in the opcode table. -/
def Instr.rowIndex : Instr → Fin opcodeTable.length
  | .zero .. => ⟨0, by decide⟩
  | .copy .. => ⟨1, by decide⟩
  | .deser .. => ⟨2, by decide⟩
  | .ser .. => ⟨3, by decide⟩
  | .sigbits .. => ⟨4, by decide⟩
  | .sersize .. => ⟨5, by decide⟩
  | .clrerr => ⟨6, by decide⟩
  | .cmp .. => ⟨7, by decide⟩
  | .add .. => ⟨8, by decide⟩
  | .adds .. => ⟨9, by decide⟩
  | .sub .. => ⟨10, by decide⟩
  | .mul .. => ⟨11, by decide⟩
  | .div .. => ⟨12, by decide⟩
  | .mod .. => ⟨13, by decide⟩
  | .modpow .. => ⟨14, by decide⟩
  | .modinv .. => ⟨15, by decide⟩
  | .rndbits .. => ⟨16, by decide⟩
  | .rndlim .. => ⟨17, by decide⟩
  | .sieve .. => ⟨18, by decide⟩
  | .isprime .. => ⟨19, by decide⟩
  | .rndprime .. => ⟨20, by decide⟩

/-- The row of an instruction in the opcode table. -/
def Instr.row (i : Instr) : Row := opcodeTable[i.rowIndex]

theorem Instr.row_mem (i : Instr) : i.row ∈ opcodeTable := List.getElem_mem _

theorem Instr.row_accepts_fields (i : Instr) : i.row.Accepts i.fields := by
  cases i <;> exact ⟨rfl, rfl, rfl⟩

/-! ## Operands in their fields (R82) -/

@[simp] theorem Fields.immNat_mk_ofNat {op rd ra rb rc z s} {u : Nat} (h : u < 2 ^ 32) :
    (Fields.mk op rd ra rb rc z s (BitVec.ofNat 32 u)).immNat = u := Nat.mod_eq_of_lt h

@[simp] theorem Fields.sv_mk {op rd ra rb rc z imm} (sv : Bool) :
    (Fields.mk op rd ra rb rc z (svField sv) imm).sv = sv := svField_eq_one sv

@[simp] theorem svField_sv (f : Fields) : svField f.sv = f.s := by
  have hs : f.s = 0 ∨ f.s = 1 := by
    generalize f.s = b
    revert b
    decide
  rcases hs with h | h <;> rw [Fields.sv, h] <;> rfl

/-- A 32-bit field is made of its two halves. -/
@[simp] theorem immHalves_immHigh_immLow (f : Fields) : immHalves f.immHigh f.immLow = f.imm := by
  rw [immHalves, Fields.immHigh, Fields.immLow, BitVec.ofNat_toNat, BitVec.ofNat_toNat, BitVec.setWidth_eq,
    BitVec.setWidth_eq]
  ext i hi
  interval_cases i <;> simp [fieldAt]

@[simp] theorem Fields.immHigh_mk_immHalves {op rd ra rb rc z s} {hi lo : Nat} (h : hi < 2 ^ 16) :
    (Fields.mk op rd ra rb rc z s (immHalves hi lo)).immHigh = hi := immHigh_immHalves rfl h

@[simp] theorem Fields.immLow_mk_immHalves {op rd ra rb rc z s} {hi lo : Nat} (h : lo < 2 ^ 16) :
    (Fields.mk op rd ra rb rc z s (immHalves hi lo)).immLow = lo := immLow_immHalves rfl h

/-! ## Encoding, then decoding (R86, R88) -/

/-- The row of a well-formed instruction builds it back from its fields. -/
theorem Instr.row_build_fields {i : Instr} (h : i.wf = true) : i.row.build i.fields = i := by
  cases i <;> simp only [Instr.wf, fitsHalf, fitsImm, Bool.and_eq_true, decide_eq_true_eq] at h <;>
    simp [-Nat.reducePow, Instr.row, Instr.rowIndex, opcodeTable, Instr.fields, opOnly, h]

theorem decode_encode {i : Instr} (h : i.wf = true) : decode (encode i) = .ok i := by
  have hfields : Fields.ofWord (encode i) = i.fields := Fields.ofWord_toWord _
  rw [decode_of_accepts i.row_mem (hfields ▸ i.row_accepts_fields), hfields, i.row_build_fields h]

/-! ## Decoding, then encoding (R84, R88) -/

theorem build_wf {r : Row} (hr : r ∈ opcodeTable) (f : Fields) : (r.build f).wf = true := by
  have himm : f.immNat < 2 ^ 32 := f.imm.isLt
  have hhigh : f.immHigh < 2 ^ 16 := BitVec.isLt _
  have hlow : f.immLow < 2 ^ 16 := BitVec.isLt _
  unfold opcodeTable at hr
  fin_cases hr <;> simp [-Nat.reducePow, Instr.wf, fitsImm, fitsHalf, himm, hhigh, hlow]

/-- An instruction is encoded with the very fields a row has built it from, if the row accepts them. -/
theorem fields_build {r : Row} (hr : r ∈ opcodeTable) {f : Fields} (h : r.Accepts f) : (r.build f).fields = f := by
  obtain ⟨hop, hzero, hunused⟩ := h
  have hself (g : Fields) : g = f ↔ g = ⟨f.op, f.rd, f.ra, f.rb, f.rc, f.zero, f.s, f.imm⟩ := Iff.rfl
  have himm : BitVec.ofNat 32 f.immNat = f.imm := by simp [Fields.immNat]
  unfold opcodeTable at hr
  fin_cases hr <;> dsimp only at hop hunused ⊢ <;>
    simp [Format.unusedAreZero, Format.N, Format.D, Format.A, Format.DA, Format.AB, Format.DAB, Format.DABC, Format.DAI,
      Format.DM, Format.AM, Format.DI, Format.I, Format.AIS, Format.DIS] at hunused <;>
    rw [hself] <;>
    simp [Instr.fields, opOnly, ← hop, hunused, hzero, himm]

theorem encode_of_decode {w : CmdWord} {i : Instr} (h : decode w = .ok i) : encode i = w := by
  obtain ⟨r, hr, hacc, rfl⟩ := exists_accepts_of_decode h
  rw [encode, fields_build hr hacc, Fields.toWord_ofWord]

end Sys2Proof

namespace Sys2Proof.Machine

/-! ## Lines of the assembler (R86) -/

theorem toInstr_toLine (i : Instr) : (Instr.toLine i).toInstr = some i := by
  cases i with
  | isprime ra t sv | rndprime rd n t sv => cases sv <;> rfl
  | _ => rfl

theorem dite_eq_some_cases {α : Type} {c : Prop} {_ : Decidable c} {f : c → Option α} {g : ¬ c → Option α} {a : α}
    (h : dite c f g = some a) : (∃ hc, f hc = some a) ∨ ∃ hc, g hc = some a := dite_eq_iff.mp h

set_option smartUnfolding false in
/-- A line that stands for an instruction is its line. `toInstr` looks at one character of the mnemonic after another, then
at one operand after another; the proof follows it, by definitional unfolding, and closes every path that ends in `none`.
(`split` would first build the match's equations, whose last alternative excludes all the others: that is too costly.) -/
theorem toLine_of_toInstr {name : List Char} {operands : List AsmOperand} {i : Instr}
    (h : AsmLine.toInstr ⟨name, operands⟩ = some i) : Instr.toLine i = ⟨name, operands⟩ := by
  repeat' (first
    | exact nomatch (show none = some i from h)
    | (obtain rfl := Option.some.inj h; rfl)
    | (replace h := dite_eq_some_cases h; obtain ⟨rfl, h⟩ | ⟨-, h⟩ := h)
    | (rcases name with _ | ⟨c, name⟩)
    | (rcases operand with r | v | _)
    | (rcases operands with _ | ⟨operand, operands⟩))

end Sys2Proof.Machine

/-! ## The obligations -/

namespace Sys2Proof.Proofs

open Sys2Proof Sys2Proof.Machine

/-- Settles O1: the fields of an instruction are accepted by its row, which builds it back (`Instr.row_build_fields`). -/
theorem decodeOfEncode : Obligations.DecodeOfEncode := fun _ h => decode_encode h

/-- Settles O2: a word decodes by a row that accepts its fields, and what the row builds is encoded with these fields
(`fields_build`). -/
theorem encodeOfDecode : Obligations.EncodeOfDecode := by
  intro w i h
  obtain ⟨r, hr, -, rfl⟩ := exists_accepts_of_decode h
  exact ⟨build_wf hr _, encode_of_decode h⟩

/-- Settles O5, by running the decoder. -/
theorem sampleWordsDecode : Obligations.SampleWordsDecode := by
  unfold Obligations.SampleWordsDecode
  decide

/-- Settles O6: `toInstr` undoes `toLine`, and a line that stands for an instruction is its line. -/
theorem assemblerLineStandsForInstr : Obligations.AssemblerLineStandsForInstr :=
  fun ⟨_, _⟩ i => ⟨toLine_of_toInstr, fun h => h ▸ toInstr_toLine i⟩

end Sys2Proof.Proofs
end

section
/-! PROOFS. The step and the host (10_state.md R27, R28, 60_exceptions.md R220, R225), the frame of every command
(70_reset_and_hazards.md R254, 20_memory.md R64), and what every retire reports (60_exceptions.md R222 to R224). -/

namespace Sys2Proof.Machine

/-! ## A step always answers a next state (R220) -/

theorem exists_exec_eq_next (i : Instr) (s : State) : ∃ t, exec i s = .next t := by
  cases i <;> exact ⟨_, rfl⟩

theorem exists_runCommand_eq_next (w : CmdWord) (s : State) : ∃ t, runCommand w s = .next t := by
  cases hd : decode w with
  | ok i => rw [runCommand_of_ok hd]; exact exists_exec_eq_next i s
  | error e => exact ⟨_, runCommand_of_error hd s⟩

theorem exists_step_eq_next (s : State) : ∃ t, step s = .next t := by
  unfold step sequencer
  split
  · exact ⟨_, rfl⟩
  · split
    · exact ⟨_, rfl⟩
    · exact exists_runCommand_eq_next _ _

/-! ## The host's queue (10_state.md R43) -/

namespace State

variable (s : State)

theorem tickHost_with_host : { s.tickHost with host := s.host } = s := by
  unfold tickHost
  split <;> rfl

theorem tickHost_of_host_nil (h : s.host = []) : s.tickHost = s := by
  simp [tickHost, h]

theorem dueAction_of_host_nil (h : s.host = []) : s.dueAction = none := by
  simp [dueAction, h]

/-- The host's actions that stay in the queue of `issued` wait for BUSY = 0 (log entry 8). -/
theorem time_of_issued_host {w : CmdWord} {e : HostEvent} {es : List HostEvent} (h : (s.issued w).host = e :: es) :
    e.time = .whenIdle := by
  have he : e ∈ (s.issued w).host := h ▸ List.mem_cons_self
  simpa using (List.mem_filter.mp he).2

theorem issued_dueAction (w : CmdWord) : (s.issued w).dueAction = none := by
  unfold dueAction
  split
  · rfl
  · rename_i e es h
    simp [HostEvent.due, s.time_of_issued_host h, busy, issued]

theorem issued_tickHost (w : CmdWord) : (s.issued w).tickHost = s.issued w := by
  unfold tickHost
  split
  · rfl
  · rename_i e es h
    have htick : e.time.tick = e.time := by rw [s.time_of_issued_host h]; rfl
    rw [htick, ← h]

theorem step_issued (w : CmdWord) : step (s.issued w) = runCommand w (s.issued w) := by
  rw [step_of_running rfl (s.issued_dueAction w), s.issued_tickHost w]

end State

theorem decode_of_decodeTableWord {nbits w : Nat} {i : Instr} (h : decodeTableWord nbits w = some i) :
    decode (BitVec.ofNat 64 w) = .ok i := by
  unfold decodeTableWord at h
  split at h <;> cases h
  assumption

/-! ## STATUS as a number (R28) -/

theorem statusFlags_lt (valid sticky err busy : Bool) :
    (fieldAt 32 3 (BitVec.ofBool valid) ||| (fieldAt 32 2 (BitVec.ofBool sticky) |||
      (fieldAt 32 1 (BitVec.ofBool err) ||| fieldAt 32 0 (BitVec.ofBool busy)))).toNat < 2 ^ 4 := by
  revert valid sticky err busy
  decide

/-- The flags stand below bit 4, so what is left above them is the error code. -/
theorem State.statusWord_div (s : State) : s.statusWord.toNat / 2 ^ 4 = s.status.ecode.code.toNat := by
  have hlow := statusFlags_lt s.status.sieveValid s.status.sticky s.status.err s.busy
  rw [State.statusWord, BitVec.or_assoc, BitVec.or_assoc, BitVec.or_assoc, toNat_fieldAt_or _ (by decide) hlow]
  omega

/-! ## A host action while a command runs (R225) -/

/-- A host action other than Reset, taken while BUSY is 1, changes the host's side and the count of free values alone. -/
theorem State.hostAct_of_busy {s : State} (hb : s.busy = true) {a : HostAction} (ha : a ≠ .reset) :
    ∃ replies fresh, s.hostAct a = { s with replies := replies, fresh := fresh } := by
  cases a with
  | reset => exact absurd rfl ha
  | issue w => exact ⟨_, _, by rw [hostAct, hostIssue_eq, if_pos hb]⟩
  | readStatus | readParam => exact ⟨_, _, rfl⟩
  | readResult => exact ⟨_, _, s.hostReadResult_busy hb⟩
  | memWrite a b => exact ⟨_, _, s.hostMemWrite_dropped b (.inl hb)⟩
  | memRead a => exact ⟨_, _, s.hostMemRead_dropped (.inl hb)⟩

/-! ## The frame of every command (R254, R64) -/

theorem ok_not_mem_reportable (i : Instr) : ECode.ok ∉ reportable i := by
  cases i <;> simp [reportable]

section

variable {i : Instr} {s t : State}

theorem Ends.sameRegsBut (h : Ends i s t) : SameRegsBut (destinations i) s t := by
  cases h with
  | retired _ _ _ _ _ _ _ _ hregs => exact hregs.others
  | goesOn => exact fun _ _ => rfl
  | failed code regs fresh hcode hregs =>
    obtain rfl | ⟨-, -, rd, hrd, rfl⟩ := hregs
    · exact fun _ _ => rfl
    · exact fun r hr => s.regs_writeUnspecified_other (by rintro rfl; exact hr hrd)

theorem Ends.sameMemOutside (h : Ends i s t) : SameMemOutside (storedBytes i s).1 (storedBytes i s).2 s t := by
  cases h with
  | goesOn | failed => exact fun _ _ => rfl
  | retired _ mem _ _ _ _ _ _ _ hmem =>
    obtain rfl | ⟨ra, addr, len, rfl, -, -, rfl⟩ := hmem
    · exact fun _ _ => rfl
    · intro a ha
      refine s.readByte_memWrite_outside (wireBytes (s.value ra)) ?_
      rwa [wireBytes_length]

theorem Ends.sameMem_of_error (h : Ends i s t) (herr : t.status.err = true) (hidle : t.running = none) : SameMem s t := by
  cases h with
  | retired => cases herr
  | goesOn => cases hidle
  | failed => exact fun _ => rfl

theorem Ends.sameOutside (h : Ends i s t) : SameOutside s t := by
  cases h <;> exact ⟨rfl, rfl, rfl⟩

theorem Ends.sameTable (h : Ends i s t) (hi : ∀ n, i ≠ .sieve n) :
    t.sieve = s.sieve ∧ t.status.sieveValid = s.status.sieveValid := by
  cases h with
  | goesOn | failed => exact ⟨rfl, rfl⟩
  | retired _ _ _ _ _ _ _ _ _ _ htable =>
    obtain hsame | ⟨n, hn, -⟩ := htable
    · exact hsame
    · exact absurd hn (hi n)

/-- What a command that retires reports (60_exceptions.md R222 to R224). -/
theorem Ends.reports (h : Ends i s t) (hidle : t.running = none) :
    (t.status.err = true → t.result = 0xFFFFFFFF ∧ t.status.ecode ≠ .ok ∧ t.status.sticky = true) ∧
      (t.status.err = false → t.status.ecode = .ok) ∧ (i = .clrerr → t.status.sticky = false) ∧
      (i ≠ .clrerr → t.status.sticky = (s.status.sticky || t.status.err)) := by
  cases h with
  | goesOn => cases hidle
  | retired _ _ _ sticky _ _ _ _ _ _ _ hsticky =>
    refine ⟨nofun, fun _ => rfl, fun hi => ?_, fun hi => ?_⟩
    · exact (hsticky.resolve_left fun h => h.1 hi).2
    · simpa using (hsticky.resolve_right fun h => hi h.1).2
  | failed code _ _ hcode =>
    refine ⟨fun _ => ⟨rfl, ?_, rfl⟩, nofun, ?_, fun _ => (Bool.or_true _).symm⟩
    · rintro rfl
      exact ok_not_mem_reportable i hcode
    · rintro rfl
      cases hcode

/-- Only RNDPRIME does not retire (70_reset_and_hazards.md R258). -/
theorem Ends.idle (h : Ends i s t) (hi : i.mnemonic ≠ "RNDPRIME") : t.running = none := by
  cases h with
  | retired | failed => rfl
  | goesOn _ _ _ _ _ _ hrnd => exact absurd (congrArg Instr.mnemonic hrnd) hi

end

end Sys2Proof.Machine

/-! ## The obligations -/

namespace Sys2Proof.Proofs

open Sys2Proof Sys2Proof.Machine

/-- Settles O7: with no host action due the sequencer runs the word, and the tick it has taken changes the host's queue
alone. -/
theorem stepRunsDecodedInstr : Obligations.StepRunsDecodedInstr := by
  intro s w i hrun hdue hd
  refine ⟨?_, s.tickHost_with_host, s.tickHost_of_host_nil⟩
  rw [step_of_running hrun hdue, runCommand_of_ok hd]

/-- Settles O8: the host's actions that stay in the queue wait for BUSY = 0, so none is due and none comes nearer. -/
theorem fetchedWordRunsNext : Obligations.FetchedWordRunsNext := by
  intro s nbits w i h
  rw [State.withFetchWord, State.step_issued, runCommand_of_ok (decode_of_decodeTableWord h)]

/-- Settles O9: no arm of `exec` faults or refuses, and a step is a host action, nothing, or a command. -/
theorem nothingStopsTheBlock : Obligations.NothingStopsTheBlock := ⟨exists_step_eq_next, exists_exec_eq_next⟩

/-- Settles O10: a write of CMD that is due is the step (`step_of_due`), and it places the word only while BUSY is 0. -/
theorem issueTakenIdleDroppedBusy : Obligations.IssueTakenIdleDroppedBusy := by
  intro s w time es hh
  have hissue (hdue : s.busy = false ∨ time = .afterSteps 0) :
      step s = .next { s with host := es, running := if s.busy then s.running else some w } :=
    (State.step_of_due hh hdue rfl).trans (congrArg _ (State.hostIssue_eq _ w))
  constructor
  · intro hb
    have hstep := hissue (.inl hb)
    rw [if_neg (Bool.eq_false_iff.mp hb)] at hstep
    exact ⟨_, hstep, rfl, rfl, step_of_running rfl⟩
  · intro hb htime
    rw [hissue (.inr htime), if_pos hb]

/-- Settles O12: such an action changes the host's side and the count of free values alone (`State.hostAct_of_busy`). -/
theorem onlyResetDisturbsACommand : Obligations.OnlyResetDisturbsACommand := by
  intro s e es hh hb htime ha
  obtain ⟨replies, fresh, hact⟩ := State.hostAct_of_busy (s := { s with host := es }) hb ha
  exact ⟨_, (State.step_of_due hh (.inr htime) rfl).trans (congrArg _ hact), rfl, rfl, rfl, rfl, fun _ => rfl, rfl, rfl, rfl⟩

/-- Settles O14: each flag is a field of one bit at its place, and the error code is what stands above them. -/
theorem statusFieldsAtTheirBits : Obligations.StatusFieldsAtTheirBits := by
  intro s
  refine ⟨?_, ?_, ?_, ?_, s.statusWord_div⟩ <;> simp [State.statusWord, fieldAt]

/-- Settles O16: every end of a command is one of three (`exec_ends`), and each writes the report R222 to R224 give it. -/
theorem everyRetireReports : Obligations.EveryRetireReports := fun _ _ _ h hidle => (exec_ends h).reports hidle

/-- Settles O19: in each of the three ends of a command the registers but its destinations are as before. -/
theorem onlyDestinationsChange : Obligations.OnlyDestinationsChange := fun _ _ _ h => (exec_ends h).sameRegsBut

/-- Settles O20: SER alone stores, and it stores the bytes of the value from `addr` up. -/
theorem onlySerStores : Obligations.OnlySerStores :=
  fun _ _ _ h => ⟨(exec_ends h).sameMemOutside, (exec_ends h).sameMem_of_error⟩

/-- Settles O21: no end of a command touches the parameters or the host's side, and SIEVE alone writes the table. -/
theorem onlySieveWritesTheTable : Obligations.OnlySieveWritesTheTable :=
  fun _ _ _ h => ⟨(exec_ends h).sameOutside, (exec_ends h).sameTable⟩

end Sys2Proof.Proofs
end

section
/-! PROOFS. The Fermat test and RNDPRIME (45_number_theory.md R195 to R197): which verdicts some draws can give, that a prime is
always accepted, and what one round of RNDPRIME does. -/

namespace Sys2Proof.Machine

/-! ## Only the draws differ (R190) -/

namespace State.OnlyDraws

variable {s u v : State}

theorem refl (s : State) : s.OnlyDraws s := ⟨s.rand, s.fresh, rfl⟩

theorem trans (h : s.OnlyDraws u) (h' : u.OnlyDraws v) : s.OnlyDraws v := by
  obtain ⟨_, _, rfl⟩ := h
  obtain ⟨_, _, rfl⟩ := h'
  exact ⟨_, _, rfl⟩

theorem sieve_eq (h : s.OnlyDraws u) : u.sieve = s.sieve := by
  obtain ⟨_, _, rfl⟩ := h
  rfl

theorem stillRunning (h : s.OnlyDraws u) (w : CmdWord) : StillRunning w s { u with running := some w } := by
  obtain ⟨_, _, rfl⟩ := h
  exact ⟨rfl, rfl, rfl, rfl, fun _ => rfl, rfl, ⟨rfl, rfl, rfl⟩⟩

end State.OnlyDraws

theorem onlyDraws_largePrimeTest (p t : Nat) (sv : Bool) (s : State) : s.OnlyDraws (largePrimeTest p t sv s).2 :=
  largePrimeTest_state p t sv s

/-! ## Fermat's theorem and the prefilter on primes (R195, R196) -/

theorem fermat_of_prime {p w : Nat} (hp : p.Prime) (h0 : 0 < w) (hlt : w < p) : w ^ (p - 1) % p = 1 := by
  have h := Nat.ModEq.pow_totient (Nat.coprime_of_lt_prime h0.ne' hlt hp).symm
  rw [Nat.totient_prime hp] at h
  exact Eq.trans h (Nat.mod_eq_of_lt hp.one_lt)

/-- A table of primes holds no proper factor of a prime. -/
theorem not_sieveHit_of_prime {sieve : List Nat} {sv : Bool} {p : Nat} (hp : p.Prime) (hsieve : ∀ q ∈ sieve, q.Prime) :
    ¬ SieveHit sieve sv p := by
  rintro ⟨-, q, hq, hlt, hdvd⟩
  exact hlt.ne ((Nat.prime_dvd_prime_iff_eq (hsieve q hq) hp).mp hdvd)

theorem passes_two_of_prime {p : Nat} (hp : p.Prime) (h4 : 4 ≤ p) : Passes p 2 :=
  ⟨⟨le_rfl, by omega⟩, fermat_of_prime hp (by decide) (by omega)⟩

/-! ## The verdicts of the test (R195, R196) -/

section

variable {p : Nat} {s : State}

/-- A witness the loop draws is one of 2 to p - 2. -/
theorem fermatLoop_succ (h4 : 4 ≤ p) (t : Nat) (s : State) : ∃ w u, (2 ≤ w ∧ w ≤ p - 2) ∧
    fermatLoop p (t + 1) s = if w ^ (p - 1) % p = 1 then fermatLoop p t u else (false, u) := by
  refine ⟨(s.draw 2 (p - 2)).1, (s.draw 2 (p - 2)).2, s.draw_bounds (by omega), ?_⟩
  simp only [fermatLoop, modPow_eq (show p ≠ 0 by omega)]

theorem exists_passes_of_fermatLoop (h4 : 4 ≤ p) {t : Nat} (ht : 1 ≤ t) (h : (fermatLoop p t s).1 = true) :
    ∃ w, Passes p w := by
  obtain ⟨t, rfl⟩ := Nat.exists_eq_add_of_le' ht
  obtain ⟨w, u, hw, hloop⟩ := fermatLoop_succ h4 t s
  rw [hloop] at h
  split_ifs at h with hpass
  exact ⟨w, hw, hpass⟩

theorem exists_fails_of_fermatLoop (h4 : 4 ≤ p) {t : Nat} (h : (fermatLoop p t s).1 = false) :
    ∃ w, (2 ≤ w ∧ w ≤ p - 2) ∧ w ^ (p - 1) % p ≠ 1 := by
  induction t generalizing s with
  | zero => cases h
  | succ t ih =>
    obtain ⟨w, u, hw, hloop⟩ := fermatLoop_succ h4 t s
    rw [hloop] at h
    split_ifs at h with hpass
    · exact ih h
    · exact ⟨w, hw, hpass⟩

/-- No witness shows a prime composite. -/
theorem fermatLoop_of_prime (hp : p.Prime) (h4 : 4 ≤ p) (t : Nat) (s : State) : (fermatLoop p t s).1 = true := by
  rw [← Bool.not_eq_false]
  intro h
  obtain ⟨w, ⟨hlo, hhi⟩, hfails⟩ := exists_fails_of_fermatLoop h4 h
  exact hfails (fermat_of_prime hp (by omega) (by omega))

variable {sv : Bool}

theorem largePrimeTest_of_hit (h : SieveHit s.sieve sv p) (t : Nat) : largePrimeTest p t sv s = (false, s) := by
  rw [largePrimeTest, if_pos (prefilter_iff_sieveHit.mpr h)]

theorem largePrimeTest_of_not_hit (h : ¬ SieveHit s.sieve sv p) (t : Nat) :
    largePrimeTest p t sv s = fermatLoop p t s := by
  rw [largePrimeTest, if_neg (prefilter_iff_sieveHit.not.mpr h)]

/-- The test on witnesses the RAND port lists. -/
theorem largePrimeTest_listed (h : ¬ SieveHit s.sieve sv p) (hp : p ≠ 0) {ws : List Nat}
    (hws : ∀ w ∈ ws, 2 ≤ w ∧ w ≤ p - 2) (rest : List Nat) :
    largePrimeTest p ws.length sv { s with rand := ws ++ rest } =
      (ws.all (fermatPass p), { s with rand := (ws.dropWhile (fermatPass p)).tail ++ rest }) := by
  rw [largePrimeTest_of_not_hit (s := { s with rand := ws ++ rest }) h, fermatLoop_of_rand hp hws]

/-- The test on one witness, listed as often as it may be drawn. -/
theorem largePrimeTest_replicate (h : ¬ SieveHit s.sieve sv p) {t w : Nat} (ht : 1 ≤ t) (hw : 2 ≤ w ∧ w ≤ p - 2) :
    (largePrimeTest p t sv { s with rand := List.replicate t w }).1 = fermatPass p w := by
  have hlisted := largePrimeTest_listed h (by omega) (ws := List.replicate t w) (by simpa using fun _ => hw) []
  rw [List.length_replicate, List.append_nil] at hlisted
  rw [hlisted, List.all_replicate, if_neg (by omega)]

/-- R196: what an accept means. -/
theorem accepts_sound (h4 : 4 ≤ p) {t : Nat} (ht : 1 ≤ t) (h : (largePrimeTest p t sv s).1 = true) :
    ¬ SieveHit s.sieve sv p ∧ ∃ w, Passes p w := by
  by_cases hhit : SieveHit s.sieve sv p
  · rw [largePrimeTest_of_hit hhit] at h
    cases h
  · rw [largePrimeTest_of_not_hit hhit] at h
    exact ⟨hhit, exists_passes_of_fermatLoop h4 ht h⟩

/-- R196: what a reject means. -/
theorem rejects_sound (h4 : 4 ≤ p) {t : Nat} (h : (largePrimeTest p t sv s).1 = false) :
    SieveHit s.sieve sv p ∨ ∃ w, (2 ≤ w ∧ w ≤ p - 2) ∧ w ^ (p - 1) % p ≠ 1 := by
  by_cases hhit : SieveHit s.sieve sv p
  · exact .inl hhit
  · rw [largePrimeTest_of_not_hit hhit] at h
    exact .inr (exists_fails_of_fermatLoop h4 h)

theorem exists_accepts_iff (h4 : 4 ≤ p) {t : Nat} (ht : 1 ≤ t) :
    (∃ rand, (largePrimeTest p t sv { s with rand := rand }).1 = true) ↔
      ¬ SieveHit s.sieve sv p ∧ ∃ w, Passes p w := by
  refine ⟨fun ⟨rand, h⟩ => accepts_sound (s := { s with rand := rand }) h4 ht h, fun ⟨hhit, w, hw, hpass⟩ => ⟨List.replicate t w, ?_⟩⟩
  rw [largePrimeTest_replicate hhit ht hw, fermatPass_iff.mpr hpass]

theorem exists_rejects_iff (h4 : 4 ≤ p) {t : Nat} (ht : 1 ≤ t) :
    (∃ rand, (largePrimeTest p t sv { s with rand := rand }).1 = false) ↔
      SieveHit s.sieve sv p ∨ ∃ w, (2 ≤ w ∧ w ≤ p - 2) ∧ w ^ (p - 1) % p ≠ 1 := by
  refine ⟨fun ⟨rand, h⟩ => rejects_sound (s := { s with rand := rand }) h4 h, fun h => ?_⟩
  by_cases hhit : SieveHit s.sieve sv p
  · exact ⟨[], by rw [largePrimeTest_of_hit (s := { s with rand := [] }) hhit]⟩
  · obtain ⟨w, hw, hfails⟩ := h.resolve_left hhit
    exact ⟨List.replicate t w, (largePrimeTest_replicate hhit ht hw).trans
      (Bool.eq_false_iff.mpr (fermatPass_iff.not.mpr hfails))⟩

theorem largePrimeTest_of_prime (hp : p.Prime) (h4 : 4 ≤ p) (hsieve : ∀ q ∈ s.sieve, q.Prime) (t : Nat) :
    (largePrimeTest p t sv s).1 = true := by
  rw [largePrimeTest_of_not_hit (not_sieveHit_of_prime hp hsieve), fermatLoop_of_prime hp h4]

end

theorem not_isprimeBad {s : State} {ra : Reg} {t : Nat} {sv : Bool} (ht : 1 ≤ t)
    (hsv : sv = true → s.status.sieveValid = true) (h4 : 4 ≤ s.value ra) : ¬ IsprimeBad s ra t sv := by
  rintro (h | ⟨h1, h2⟩ | h)
  · omega
  · exact Bool.false_ne_true (h2.symm.trans (hsv h1))
  · omega

/-- Past its checks ISPRIME reports the verdict of the test. -/
theorem exec_isprime_tested {s : State} {ra : Reg} {t : Nat} {sv : Bool} (h : ¬ IsprimeBad s ra t sv) :
    exec (.isprime ra t sv) s = .next ((largePrimeTest (s.value ra) t sv s).2.retire
      (if (largePrimeTest (s.value ra) t sv s).1 then 1 else 0)) := by
  rw [exec, execIsprime, if_neg (by rwa [sieveMissing_iff])]

/-- Some draws make ISPRIME report 1 or 0 if some make the test accept or reject. -/
theorem exists_exec_isprime_iff {s : State} {ra : Reg} {t : Nat} {sv : Bool} (h : ¬ IsprimeBad s ra t sv) (b : Bool) :
    (∃ rand u, exec (.isprime ra t sv) { s with rand := rand } = .next u ∧ u.result = if b then 1 else 0) ↔
      ∃ rand, (largePrimeTest (s.value ra) t sv { s with rand := rand }).1 = b := by
  refine exists_congr fun rand => ?_
  rw [exec_isprime_tested (s := { s with rand := rand }) h, State.value_rand]
  have hinj (a : Bool) : (if a then (1 : Word) else 0) = (if b then 1 else 0) ↔ a = b := by
    revert a b
    decide
  simp [← hinj]

/-! ## The candidates of RNDPRIME (R197) -/

theorem setLowBit_eq_or (c : Nat) : setLowBit c = c ||| 1 := by
  have hlow : (c ||| 1) % 2 = 1 := Nat.or_mod_two_eq_one.mpr (.inr rfl)
  have hhigh : (c ||| 1) / 2 = c / 2 := by simp [Nat.or_div_two]
  unfold setLowBit
  split <;> omega

theorem setLowBit_odd (c : Nat) : setLowBit c % 2 = 1 := by
  unfold setLowBit
  split <;> omega

theorem setLowBit_of_odd {c : Nat} (h : c % 2 = 1) : setLowBit c = c := by
  rw [setLowBit, if_neg (by omega)]

/-- Setting the low bit keeps the number of bits. -/
theorem bitlen_setLowBit {c n : Nat} (hn : 0 < n) (hc : 2 ^ (n - 1) ≤ c ∧ c ≤ 2 ^ n - 1) : bitlen (setLowBit c) = n := by
  have htwo : 2 ^ n = 2 * 2 ^ (n - 1) := by rw [← Nat.pow_succ', Nat.succ_eq_add_one, Nat.sub_add_cancel hn]
  have hpos := Nat.two_pow_pos (n - 1)
  rw [bitlen_eq_iff_mem_range hn]
  unfold setLowBit
  split <;> omega

/-- A number with at least as many bits as a digit is above the least number RNDPRIME's test is defined for. -/
theorem four_le_of_bitlen {p : Params} {c n : Nat} (hn : p.digitBits ≤ n) (h : bitlen c = n) : 4 ≤ c := by
  have h29 : 29 ≤ n := by rcases digitBits_cases p with hD | hD <;> omega
  by_contra hlt
  have : bitlen c ≤ 2 := (bitlen_le_iff c 2).mpr (by omega)
  omega

/-! ## RNDPRIME, case by case (R197) -/

/-- What a round does with the verdict on its candidate: retire with it, or stay in progress. -/
def endOfRound (rd : Reg) (n t : Nat) (sv : Bool) (c : Nat) (r : Bool × State) : State :=
  if r.1 then (r.2.writeValue rd c).retire 0 else { r.2 with running := some (encode (.rndprime rd n t sv)) }

section

variable {s : State} {rd : Reg} {n t : Nat} {sv : Bool}

/-- The checks of RNDPRIME fail: too few bits, no trial, or a table asked for that does not exist. -/
def RndprimeBad (s : State) (n t : Nat) (sv : Bool) : Prop :=
  n < s.digitBits ∨ t < 1 ∨ (sv = true ∧ s.status.sieveValid = false)

theorem not_rndprimeBad (hn : s.digitBits ≤ n) (ht : 1 ≤ t) (hsv : sv = true → s.status.sieveValid = true) :
    ¬ RndprimeBad s n t sv := by
  rintro (h | h | ⟨h1, h2⟩)
  · omega
  · omega
  · exact Bool.false_ne_true (h2.symm.trans (hsv h1))

theorem exec_rndprime_bad (h : RndprimeBad s n t sv) :
    exec (.rndprime rd n t sv) s = .next (s.raiseError .invalidArg) := by
  rw [exec, execRndprime, if_pos (by rwa [sieveMissing_iff])]

theorem exec_rndprime_long (h : ¬ RndprimeBad s n t sv) (hlong : s.digitBits * s.par.cap < n) :
    exec (.rndprime rd n t sv) s = .next (s.failDestination rd .capacity) := by
  rw [exec, execRndprime, if_neg (by rwa [sieveMissing_iff]), if_pos hlong]

theorem exec_rndprime_round (h : ¬ RndprimeBad s n t sv) (hfit : n ≤ s.digitBits * s.par.cap) :
    exec (.rndprime rd n t sv) s = .next (endOfRound rd n t sv (setLowBit (s.draw (2 ^ (n - 1)) (2 ^ n - 1)).1)
      (largePrimeTest (setLowBit (s.draw (2 ^ (n - 1)) (2 ^ n - 1)).1) t sv (s.draw (2 ^ (n - 1)) (2 ^ n - 1)).2)) := by
  rw [exec, execRndprime, if_neg (by rwa [sieveMissing_iff]), if_neg (Nat.not_lt.mpr hfit)]
  rfl

/-- A round whose candidate is the next value the RAND port lists. -/
theorem exec_rndprime_listed (h : ¬ RndprimeBad s n t sv) (hfit : n ≤ s.digitBits * s.par.cap) {c : Nat}
    (hc : 2 ^ (n - 1) ≤ c ∧ c ≤ 2 ^ n - 1) (rand : List Nat) :
    exec (.rndprime rd n t sv) { s with rand := c :: rand } = .next (endOfRound rd n t sv (setLowBit c)
      (largePrimeTest (setLowBit c) t sv { s with rand := rand })) := by
  rw [exec_rndprime_round (s := { s with rand := c :: rand }) h hfit,
    State.draw_of_rand { s with rand := c :: rand } rfl hc.1 hc.2]

/-- A listed candidate that the prefilter rejects leaves RNDPRIME in progress, with one draw taken. -/
theorem exec_rndprime_hit (h : ¬ RndprimeBad s n t sv) (hfit : n ≤ s.digitBits * s.par.cap) {c : Nat}
    (hc : 2 ^ (n - 1) ≤ c ∧ c ≤ 2 ^ n - 1) (hodd : c % 2 = 1) (hhit : SieveHit s.sieve sv c) (rand : List Nat) :
    exec (.rndprime rd n t sv) { s with rand := c :: rand } =
      .next { s with rand := rand, running := some (encode (.rndprime rd n t sv)) } := by
  rw [exec_rndprime_listed h hfit hc, setLowBit_of_odd hodd, largePrimeTest_of_hit (s := { s with rand := rand }) hhit]
  rfl

/-- An accepted candidate that fits is what `rd` then holds. -/
theorem endOfRound_accepted {u : State} (h : s.OnlyDraws u) (hp : s.par.Legal) {c : Nat} (hc : c < s.vmax) :
    (endOfRound rd n t sv c (true, u)).Holds rd c ∧ Succeeded 0 s (endOfRound rd n t sv c (true, u)) ∧
      Keeps [rd] s (endOfRound rd n t sv c (true, u)) := by
  obtain ⟨⟨hval, -, hcanon⟩, hend, hkeeps⟩ := h.writeValue_retire_effect hp rd hc rfl
  exact ⟨⟨hval, hkeeps.outside.par.symm ▸ hcanon⟩, hend, hkeeps⟩

theorem endOfRound_rejected {u : State} (h : s.OnlyDraws u) (c : Nat) :
    StillRunning (encode (.rndprime rd n t sv)) s (endOfRound rd n t sv c (false, u)) := h.stillRunning _

theorem endOfRound_of_accept {c : Nat} {r : Bool × State} (h : r.1 = true) :
    (endOfRound rd n t sv c r).running = none ∧ (endOfRound rd n t sv c r).value rd = c := by
  rw [endOfRound, if_pos h]
  exact ⟨rfl, r.2.value_writeValue_self rd c⟩

theorem accept_of_endOfRound {c : Nat} {r : Bool × State} (h : (endOfRound rd n t sv c r).running = none) :
    r.1 = true := by
  unfold endOfRound at h
  split_ifs at h with hacc
  exact hacc

/-- The candidates with which some draws make a round retire: the odd numbers of `n` bits the test can accept. -/
theorem exists_exec_rndprime_iff (hok : ¬ RndprimeBad s n t sv) (hfit : n ≤ s.digitBits * s.par.cap) (c : Nat) :
    (∃ rand u, exec (.rndprime rd n t sv) { s with rand := rand } = .next u ∧ u.running = none ∧ u.value rd = c) ↔
      c % 2 = 1 ∧ bitlen c = n ∧ ¬ SieveHit s.sieve sv c ∧ ∃ w, Passes c w := by
  have hlo : s.par.digitBits ≤ n := Nat.not_lt.mp fun h => hok (.inl h)
  have hn : 0 < n := (digitBits_pos s.par).trans_le hlo
  have ht : 1 ≤ t := Nat.not_lt.mp fun h => hok (.inr (.inl h))
  constructor
  · rintro ⟨rand, u, hexec, hidle, rfl⟩
    rw [exec_rndprime_round (s := { s with rand := rand }) hok hfit] at hexec
    cases hexec
    have hbits := bitlen_setLowBit hn
      (State.draw_bounds { s with rand := rand } (two_pow_pred_le_two_pow_sub_one hn))
    have hacc := accept_of_endOfRound hidle
    have hsound := accepts_sound (four_le_of_bitlen hlo hbits) ht hacc
    rw [(State.onlyDraws_draw { s with rand := rand } _ _).sieve_eq] at hsound
    rw [(endOfRound_of_accept hacc).2]
    exact ⟨setLowBit_odd _, hbits, hsound⟩
  · rintro ⟨hodd, hbits, hpossible⟩
    obtain ⟨rand, hacc⟩ := (exists_accepts_iff (four_le_of_bitlen hlo hbits) ht).mpr hpossible
    refine ⟨c :: rand, _, exec_rndprime_listed hok hfit ((bitlen_eq_iff_mem_range hn).mp hbits) rand, ?_⟩
    rw [setLowBit_of_odd hodd]
    exact endOfRound_of_accept hacc

end

end Sys2Proof.Machine

/-! ## The obligations -/

namespace Sys2Proof.Proofs

open Sys2Proof Sys2Proof.Machine

/-- Settles O56: a table of primes holds no proper factor of a prime, and by Fermat's theorem no witness shows it composite
(`largePrimeTest_of_prime`). -/
theorem primesAreAlwaysAccepted : Obligations.PrimesAreAlwaysAccepted := by
  intro s ra t sv hp h5 ht hsv hsieve
  have hok := not_isprimeBad ht hsv (show 4 ≤ s.value ra by omega)
  refine ⟨_, exec_isprime_tested hok, ?_⟩
  rw [largePrimeTest_of_prime hp (by omega) hsieve]
  exact ((onlyDraws_largePrimeTest _ _ _ s).retire_effect 1).1

/-- Settles O57: ISPRIME reports the verdict of the test, and `accepts_sound` and `rejects_sound` say what it takes. -/
theorem possibleVerdicts : Obligations.PossibleVerdicts := by
  intro s ra t sv h4 ht hsv
  have hok := not_isprimeBad ht hsv h4
  exact ⟨(exists_exec_isprime_iff hok true).trans (exists_accepts_iff h4 ht),
    (exists_exec_isprime_iff hok false).trans (exists_rejects_iff h4 ht)⟩

/-- Settles O58: a round draws a candidate of `n` bits, whose low bit set leaves it one of `n` bits, and does with it what
the verdict of the test says (`endOfRound`). -/
theorem rndprimeRunsOneRound : Obligations.RndprimeRunsOneRound := by
  refine ⟨encodedAs_getElem 20 (by decide), fun s rd n t sv hp => ⟨fun hbad => ?bad, fun hok hlong => ?long,
    fun hok hfit => ?round⟩⟩
  case bad => exact ⟨_, exec_rndprime_bad hbad, s.raiseError_cleanly _⟩
  case long => exact ⟨_, exec_rndprime_long hok hlong, s.failDestination_into (le_trans (by decide) hp.1.1) rd _⟩
  case round =>
    have hn : 0 < n := (digitBits_pos s.par).trans_le (Nat.not_lt.mp fun h => hok (.inl h))
    have hvmax {c : Nat} (hc : bitlen c = n) : c < s.vmax := lt_vmax_of_bitlen_le (hc.trans_le hfit)
    constructor
    · have hbits := bitlen_setLowBit hn (s.draw_bounds (two_pow_pred_le_two_pow_sub_one hn))
      generalize hc : setLowBit (s.draw (2 ^ (n - 1)) (2 ^ n - 1)).1 = c at hbits
      have hodd : c % 2 = 1 := hc ▸ setLowBit_odd _
      have hdraws := (s.onlyDraws_draw (2 ^ (n - 1)) (2 ^ n - 1)).trans (onlyDraws_largePrimeTest c t sv _)
      refine ⟨_, exec_rndprime_round hok hfit, ?_⟩
      rw [hc]
      generalize largePrimeTest c t sv (s.draw (2 ^ (n - 1)) (2 ^ n - 1)).2 = r at hdraws
      obtain ⟨_ | _, u⟩ := r
      · exact .inr (endOfRound_rejected hdraws c)
      · obtain ⟨⟨hval, hcanon⟩, hend, hkeeps⟩ := endOfRound_accepted hdraws hp (hvmax hbits)
        rw [hkeeps.outside.par] at hcanon
        exact .inl ⟨hval.symm ▸ hbits, hval.symm ▸ hodd, hcanon, hend, hkeeps⟩
    · rintro c ws rest hlo hhi rfl hws
      have hbits := bitlen_setLowBit hn ⟨hlo, hhi⟩
      have h4 := four_le_of_bitlen (p := s.par) (Nat.not_lt.mp fun h => hok (.inl h)) hbits
      refine ⟨_, exec_rndprime_listed hok hfit ⟨hlo, hhi⟩ (ws ++ rest), ?_⟩
      rw [← setLowBit_eq_or] at hws ⊢
      generalize setLowBit c = c at hbits h4 hws
      refine ⟨fun hhit hall => ?accepted, fun hhit => ?hit, fun hhit hfails => ?rejected⟩
      case accepted =>
        have hpass : ∀ w ∈ ws, fermatPass c w = true := fun w hw => fermatPass_iff.mpr (hall w hw)
        rw [largePrimeTest_listed hhit (by omega) hws, List.all_eq_true.mpr hpass, List.dropWhile_eq_nil_iff.mpr hpass]
        obtain ⟨hholds, hend, hkeeps⟩ := endOfRound_accepted (s.onlyDraws_rand rest) hp (hvmax hbits)
        exact ⟨hholds, hend, hkeeps, rfl⟩
      case hit =>
        rw [largePrimeTest_of_hit (s := { s with rand := ws ++ rest }) hhit]
        exact ⟨endOfRound_rejected (s.onlyDraws_rand _) c, rfl⟩
      case rejected =>
        have hverdict : ws.all (fermatPass c) = false := by simpa [← Bool.not_eq_true] using hfails
        rw [largePrimeTest_listed hhit (by omega) hws, hverdict]
        exact ⟨endOfRound_rejected (s.onlyDraws_rand _) c, rfl⟩

/-- Settles O59: a round retires exactly with a candidate its test accepts (`exists_exec_rndprime_iff`), and a prime passes
with the witness 2. -/
theorem rndprimePossibleResults : Obligations.RndprimePossibleResults := by
  intro s rd n t sv c hp hlo hfit ht hsv hsieve
  have hresults := exists_exec_rndprime_iff (rd := rd) (not_rndprimeBad hlo ht hsv) hfit c
  refine ⟨hresults, fun hprime hbits => hresults.mpr ?_⟩
  have h4 := four_le_of_bitlen (p := s.par) hlo hbits
  have hodd : c % 2 = 1 := hprime.eq_two_or_odd.resolve_left (by omega)
  exact ⟨hodd, hbits, not_sieveHit_of_prime hprime hsieve, 2, passes_two_of_prime hprime h4⟩

end Sys2Proof.Proofs
end

section
/-! PROOFS. The invariant of the block: reset meets it and every step keeps it, whether the host acts or a command runs
(10_state.md R22, R36, R40, 20_memory.md R60, 60_exceptions.md R222 to R224); and RNDPRIME may run on for any number of
rounds (70_reset_and_hazards.md R258). -/

namespace Sys2Proof.Machine

/-! ## Registers stay canonical (10_state.md R22) -/

namespace State.RegsCanonical

variable {s : State}

theorem of_onlyDraws {u : State} (hs : s.RegsCanonical) (h : s.OnlyDraws u) : u.RegsCanonical := by
  obtain ⟨_, _, rfl⟩ := h
  exact hs

theorem writeUnspecified (hs : s.RegsCanonical) (hp : s.par.Legal) (rd : Reg) : (s.writeUnspecified rd).RegsCanonical :=
  RegsCanonical.writeValue (s := { s with fresh := s.fresh + 1 }) hs hp rd (Nat.mod_lt _ (vmax_pos s.par))

theorem finishValue (hs : s.RegsCanonical) (hp : s.par.Legal) (rd : Reg) (v : Nat) :
    (s.finishValue rd v).RegsCanonical := by
  rcases s.finishValue_cases rd v with ⟨hv, h⟩ | ⟨-, h⟩ <;> rw [h]
  · exact hs.writeValue hp rd hv
  · exact hs.writeUnspecified hp rd

/-- What draws and then `B[rd] <- v` leave, for `v < VMAX`. -/
theorem writeValue_of_onlyDraws {u : State} (hs : s.RegsCanonical) (hp : s.par.Legal) (h : s.OnlyDraws u) (rd : Reg)
    {v : Nat} (hv : v < s.vmax) : (u.writeValue rd v).RegsCanonical := by
  obtain ⟨_, _, rfl⟩ := h
  exact RegsCanonical.writeValue hs hp rd hv

end State.RegsCanonical

theorem modPow_lt {m : Nat} (hm : m ≠ 0) (n e : Nat) : modPow n e m < m := by
  rw [modPow_eq hm]
  exact Nat.mod_lt _ (Nat.pos_of_ne_zero hm)

theorem modInv_lt {a m v : Nat} (hm : m ≠ 0) (h : modInv a m = some v) : v < m := by
  by_cases h1 : m = 1
  · subst h1
    cases h
    exact Nat.zero_lt_one
  · exact (modInv_some (by omega) h).1

theorem State.RegsCanonical.exec_rndprime {s t : State} (hs : s.RegsCanonical) (hp : s.par.Legal) {rd : Reg} {n k : Nat}
    {sv : Bool} (h : exec (.rndprime rd n k sv) s = .next t) : t.RegsCanonical := by
  by_cases hbad : RndprimeBad s n k sv
  · cases (exec_rndprime_bad hbad).symm.trans h
    exact hs
  · rcases Nat.lt_or_ge (s.digitBits * s.par.cap) n with hlong | hfit
    · cases (exec_rndprime_long hbad hlong).symm.trans h
      exact hs.writeUnspecified hp rd
    · cases (exec_rndprime_round hbad hfit).symm.trans h
      have hn : 0 < n := (digitBits_pos s.par).trans_le (Nat.not_lt.mp fun h => hbad (.inl h))
      have hbits := bitlen_setLowBit hn (s.draw_bounds (two_pow_pred_le_two_pow_sub_one hn))
      generalize setLowBit (s.draw (2 ^ (n - 1)) (2 ^ n - 1)).1 = c at hbits
      have hdraws := (s.onlyDraws_draw (2 ^ (n - 1)) (2 ^ n - 1)).trans (onlyDraws_largePrimeTest c k sv _)
      unfold endOfRound
      split
      · exact hs.writeValue_of_onlyDraws hp hdraws rd (lt_vmax_of_bitlen_le (hbits.trans_le hfit))
      · have hrest := hs.of_onlyDraws hdraws
        exact hrest

/-- No command leaves a register whose content breaks R22. -/
theorem exec_regsCanonical {i : Instr} {s t : State} (hp : s.par.Legal) (hs : s.RegsCanonical)
    (h : exec i s = .next t) : t.RegsCanonical := by
  have hval (r : Reg) : s.value r < s.vmax := s.value_lt_vmax (hs r)
  cases i
  case isprime ra t sv =>
    by_cases hbad : IsprimeBad s ra t sv
    · cases (exec_isprime_bad hbad).symm.trans h
      exact hs
    · cases (exec_isprime_tested hbad).symm.trans h
      have hrest := hs.of_onlyDraws (onlyDraws_largePrimeTest (s.value ra) t sv s)
      exact hrest
  case rndbits rd n =>
    rcases Nat.lt_or_ge n s.digitBits with hshort | hlo
    · cases (exec_rndbits_short hshort).symm.trans h
      exact hs
    · rcases Nat.lt_or_ge (s.digitBits * s.par.cap) n with hlong | hfit
      · cases (exec_rndbits_long hp hlong).symm.trans h
        exact hs.writeUnspecified hp rd
      · cases (exec_rndbits_drawn hlo hfit).symm.trans h
        have hn : 0 < n := (digitBits_pos s.par).trans_le hlo
        have hbits := (bitlen_eq_iff_mem_range hn).mpr (s.draw_bounds (two_pow_pred_le_two_pow_sub_one hn))
        exact hs.writeValue_of_onlyDraws hp (s.onlyDraws_draw _ _) rd (lt_vmax_of_bitlen_le (hbits.trans_le hfit))
  case rndprime rd n t sv => exact hs.exec_rndprime hp h
  all_goals simp only [exec, execZero, execCopy, execDeser, execSer, execSigbits, execSersize, execClrerr, execCmp,
    execAdd, execAdds, execSub, execMul, execDiv, execMod, execModpow, execModinv, execRndlim, execSieve,
    Host.Outcome.next.injEq] at h
  case sigbits | sersize | clrerr | cmp => exact h ▸ hs
  case ser | sieve => split_ifs at h <;> exact h ▸ hs
  case zero rd => exact h ▸ hs.writeValue hp rd (vmax_pos s.par)
  case copy rd ra => exact h ▸ hs.writeValue hp rd (hval ra)
  case add rd _ _ => exact h ▸ hs.finishValue hp rd _
  case adds rd _ _ => exact h ▸ hs.finishValue hp rd _
  case deser rd _ _ =>
    split_ifs at h <;> subst h
    · exact hs
    · exact hs.finishValue hp rd _
  case sub rd ra rb =>
    split_ifs at h <;> subst h
    · exact hs
    · exact hs.writeValue hp rd ((Nat.sub_le _ _).trans_lt (hval ra))
  case mul rd ra rb =>
    split_ifs at h with _ hfit <;> subst h
    · exact hs.writeValue hp rd (vmax_pos s.par)
    · exact hs.writeUnspecified hp rd
    · refine hs.writeValue hp rd ((hs ra).val_mul_val_lt_vmax (hs rb) ?_)
      rw [← (hs ra).digitLen_val, ← (hs rb).digitLen_val]
      exact Nat.not_lt.mp hfit
  case div rd ra rb rc =>
    split_ifs at h with _ hb <;> subst h
    · exact hs
    · exact hs
    · exact (hs.writeValue hp rd ((Nat.div_le_self _ _).trans_lt (hval ra))).writeValue hp rc
        (s.mod_value_lt_vmax (hs rb) hb _)
  case mod rd ra rb =>
    split_ifs at h with _ hb <;> subst h
    · exact hs
    · exact hs
    · exact hs.writeValue hp rd (s.mod_value_lt_vmax (hs rb) hb _)
  case modpow rd ra rb rc =>
    split_ifs at h with _ hc <;> subst h
    · exact hs
    · exact hs
    · exact hs.writeValue hp rd ((modPow_lt hc _ _).trans (hval rc))
  case modinv rd ra rb =>
    split_ifs at h with _ hb <;> subst h
    · exact hs
    · exact hs
    · split
      · exact hs.writeUnspecified hp rd
      · rename_i v hv
        exact hs.writeValue hp rd ((modInv_lt hb hv).trans (hval rb))
  case rndlim rd ra =>
    split_ifs at h with _ ha <;> subst h
    · exact hs
    · exact hs
    · refine hs.writeValue_of_onlyDraws hp (s.onlyDraws_draw _ _) rd (lt_of_le_of_lt ?_ (hval ra))
      exact (s.draw_bounds (Nat.zero_le _)).2.trans (Nat.sub_le _ _)

/-! ## The invariant -/

namespace State.Inv

variable {s t : State}

/-- The invariant looks at the parameters, the registers, MEM, the table, STATUS and RESULT alone. -/
theorem congr (h : s.Inv) (hpar : t.par = s.par) (hregs : t.regs = s.regs) (hmem : t.mem = s.mem)
    (hsieve : t.sieve = s.sieve) (hstatus : t.status = s.status) (hresult : t.result = s.result) : t.Inv := by
  obtain ⟨h1, h2, h3, h4, h5, h6, h7, h8, h9, h10⟩ := h
  rw [RegsCanonical] at h2
  rw [← hpar, ← hregs, ← hmem, ← hsieve, ← hstatus, ← hresult] at *
  exact ⟨h1, h2, h3, h4, h5, h6, h7, h8, h9, h10⟩

theorem resetFor {p : Params} (hp : p.Legal) : (State.resetFor p).Inv where
  legal := hp
  regs := resetFor_regsCanonical hp
  memForm := rfl
  memRange := nofun
  sieveSorted := .nil
  sievePrimes := nofun
  sieveEmpty _ := rfl
  errCode := by simp [Status.clear]
  errSticky := nofun
  errResult := nofun

/-- Bytes written inside MEM keep its form and its range. -/
theorem memWrite (h : s.Inv) {a : Nat} {bs : List Byte} (hfit : a + bs.length ≤ s.par.memSize) : (s.memWrite a bs).Inv where
  legal := h.legal
  regs := h.regs
  memForm := Memory.wf_storeBytes h.memForm a bs
  memRange c hc := by
    obtain ⟨-, hlt⟩ | hold := Memory.mem_storeBytes hc
    · exact hlt.trans_le hfit
    · exact h.memRange c hold
  sieveSorted := h.sieveSorted
  sievePrimes := h.sievePrimes
  sieveEmpty := h.sieveEmpty
  errCode := h.errCode
  errSticky := h.errSticky
  errResult := h.errResult

theorem hostAct (h : s.Inv) (a : HostAction) : (s.hostAct a).Inv := by
  cases a with
  | reset => exact (resetFor h.legal).congr rfl rfl rfl rfl rfl rfl
  | issue w =>
    rw [State.hostAct, hostIssue_eq]
    exact h.congr rfl rfl rfl rfl rfl rfl
  | readStatus | readParam => exact h.congr rfl rfl rfl rfl rfl rfl
  | readResult =>
    cases hb : s.busy
    · rw [State.hostAct, hostReadResult_idle s hb]
      exact h.congr rfl rfl rfl rfl rfl rfl
    · rw [State.hostAct, hostReadResult_busy s hb]
      exact h.congr rfl rfl rfl rfl rfl rfl
  | memWrite a b =>
    obtain ⟨hb, ha⟩ | hdropped := s.memAccess_cases a
    · rw [State.hostAct, hostMemWrite_served s b hb ha]
      exact h.memWrite ha
    · rw [State.hostAct, hostMemWrite_dropped s b hdropped]
      exact h
  | memRead a =>
    obtain ⟨hb, ha⟩ | hdropped := s.memAccess_cases a
    · rw [State.hostAct, hostMemRead_served s hb ha]
      exact h.congr rfl rfl rfl rfl rfl rfl
    · rw [State.hostAct, hostMemRead_dropped s hdropped]
      exact h.congr rfl rfl rfl rfl rfl rfl

theorem tickHost (h : s.Inv) : s.tickHost.Inv := by
  unfold State.tickHost
  split
  · exact h
  · exact h.congr rfl rfl rfl rfl rfl rfl

theorem raiseError (h : s.Inv) {c : ECode} (hc : c ≠ .ok) : (s.raiseError c).Inv where
  legal := h.legal
  regs := h.regs
  memForm := h.memForm
  memRange := h.memRange
  sieveSorted := h.sieveSorted
  sievePrimes := h.sievePrimes
  sieveEmpty := h.sieveEmpty
  errCode := by simp [hc]
  errSticky _ := rfl
  errResult _ := rfl

end State.Inv

/-- The MEM a command may leave is in its form and range. -/
theorem MemWritten.inv {i : Instr} {s : State} {mem : Memory} (h : MemWritten i s mem) (hs : s.Inv) :
    mem.wf = true ∧ ∀ c ∈ mem, c.1 < s.par.memSize := by
  obtain rfl | ⟨ra, addr, len, -, hfit, hlen, rfl⟩ := h
  · exact ⟨hs.memForm, hs.memRange⟩
  · have hstored := hs.memWrite (a := addr) (bs := wireBytes (s.value ra)) (by omega)
    exact ⟨hstored.memForm, hstored.memRange⟩

/-- The table a command may leave holds odd primes in ascending order, and none without SIEVE_VALID. -/
theorem TableWritten.inv {i : Instr} {s : State} {sieve : List Nat} {valid : Bool} (h : TableWritten i s sieve valid)
    (hs : s.Inv) : sieve.Pairwise (· < ·) ∧ (∀ q ∈ sieve, q.Prime ∧ q ≠ 2 ∧ q < s.par.sieveNmax) ∧
      (valid = false → sieve = []) := by
  obtain ⟨rfl, rfl⟩ | ⟨n, -, -, hn, rfl, rfl⟩ := h
  · exact ⟨hs.sieveSorted, hs.sievePrimes, hs.sieveEmpty⟩
  · refine ⟨oddPrimesBelow_ascending n, fun q hq => ?_, nofun⟩
    obtain ⟨h3, hlt, -, hprime⟩ := mem_oddPrimesBelow_iff.mp hq
    exact ⟨hprime, by omega, by omega⟩

theorem exec_inv {i : Instr} {s t : State} (hs : s.Inv) (h : exec i s = .next t) : t.Inv := by
  have hregs := exec_regsCanonical hs.legal hs.regs h
  cases exec_ends h with
  | goesOn => exact hs.congr rfl rfl rfl rfl rfl rfl
  | failed code regs fresh hcode =>
    have hraise := hs.raiseError fun hok : code = .ok => ok_not_mem_reportable i (hok ▸ hcode)
    exact ⟨hs.legal, hregs, hs.memForm, hs.memRange, hs.sieveSorted, hs.sievePrimes, hs.sieveEmpty, hraise.errCode,
      hraise.errSticky, hraise.errResult⟩
  | retired _ _ _ _ _ _ _ _ _ hmem htable =>
    obtain ⟨hform, hrange⟩ := hmem.inv hs
    obtain ⟨hsorted, hprimes, hempty⟩ := htable.inv hs
    exact ⟨hs.legal, hregs, hform, hrange, hsorted, hprimes, hempty, by simp, nofun, nofun⟩

theorem runCommand_inv {w : CmdWord} {s t : State} (hs : s.Inv) (h : runCommand w s = .next t) : t.Inv := by
  cases hd : decode w with
  | ok i => exact exec_inv hs ((runCommand_of_ok hd s).symm.trans h)
  | error e =>
    cases (runCommand_of_error hd s).symm.trans h
    exact hs.raiseError (by decide)

theorem sequencer_inv {s t : State} (hs : s.Inv) (h : sequencer s = .next t) : t.Inv := by
  unfold sequencer at h
  split at h
  · cases h
    exact hs
  · exact runCommand_inv hs.tickHost h

theorem State.Inv.dueAction {s t : State} {a : HostAction} (hs : s.Inv) (h : s.dueAction = some (a, t)) : t.Inv := by
  unfold State.dueAction at h
  split at h
  · cases h
  · split_ifs at h
    cases h
    exact hs.congr rfl rfl rfl rfl rfl rfl

theorem step_inv {s t : State} (hs : s.Inv) (h : step s = .next t) : t.Inv := by
  unfold step at h
  split at h
  · rename_i hdue
    cases h
    exact (hs.dueAction hdue).hostAct _
  · exact sequencer_inv hs h

/-! ## RNDPRIME may run on (70_reset_and_hazards.md R258) -/

/-- The command RNDPRIME with one trial and the prefilter, and a table of which the prime 3 divides `2^28 + 5`, a candidate
of 29 bits, which the RAND port lists `k` times. -/
def rejecting (k : Nat) : State :=
  { State.resetFor ⟨.d29, 3, 64, 100⟩ with
    sieve := [3], status := ⟨false, false, true, .ok⟩, running := some (encode (.rndprime 0 29 1 true)),
    rand := List.replicate k (2 ^ 28 + 5) }

theorem rejecting_zero_inv : (rejecting 0).Inv where
  legal := by decide
  regs := resetFor_regsCanonical (p := ⟨.d29, 3, 64, 100⟩) (by decide)
  memForm := rfl
  memRange := nofun
  sieveSorted := by decide
  sievePrimes := by decide
  sieveEmpty := nofun
  errCode := by decide
  errSticky := nofun
  errResult := nofun

theorem rejecting_inv (k : Nat) : (rejecting k).Inv := rejecting_zero_inv.congr rfl rfl rfl rfl rfl rfl

/-- Every round rejects its candidate and takes one draw. -/
theorem step_rejecting (k : Nat) : step (rejecting (k + 1)) = .next (rejecting k) := by
  have hok : ¬ RndprimeBad (rejecting k) 29 1 true := not_rndprimeBad (le_refl 29) le_rfl fun _ => rfl
  have hfit : 29 ≤ (rejecting k).digitBits * (rejecting k).par.cap := show 29 ≤ 29 * 3 by decide
  have hhit : SieveHit [3] true (2 ^ 28 + 5) := ⟨rfl, 3, by decide⟩
  rw [step_of_running rfl (State.dueAction_of_host_nil _ rfl), State.tickHost_of_host_nil _ rfl,
    runCommand_of_ok (decode_encode rfl)]
  exact exec_rndprime_hit hok hfit (by decide) (by decide) hhit (List.replicate k (2 ^ 28 + 5))

theorem run_rejecting (k : Nat) : core.run k (rejecting k) = .next (rejecting 0) := by
  induction k with
  | zero => rfl
  | succ k ih =>
    have hstep : core.step (rejecting (k + 1)) = .next (rejecting k) := step_rejecting k
    simp only [Host.Core.run, hstep, ih]

end Sys2Proof.Machine

/-! ## The obligations -/

namespace Sys2Proof.Proofs

open Sys2Proof Sys2Proof.Machine

/-- Settles O24: a host action keeps the invariant (`State.Inv.hostAct`), and so does a command: its registers stay canonical
(`exec_regsCanonical`), and the rest follows from the three ways it can end (`exec_ends`). -/
theorem stepKeepsInv : Obligations.StepKeepsInv := fun _ _ => step_inv

/-- Settles O23: the registers are canonical zeros, MEM and the table are empty, and no error is on record. -/
theorem resetMeetsInv : Obligations.ResetMeetsInv := ⟨fun _ => .resetFor, .resetFor (by decide)⟩

/-- Settles O22: of the three ends of a command only RNDPRIME's next round is not idle (`Ends.idle`), and `rejecting k` is
still busy after `k` rounds. -/
theorem onlyRndprimeMayNotRetire : Obligations.OnlyRndprimeMayNotRetire := by
  refine ⟨fun i s hi => ?_, fun k => ⟨rejecting k, rejecting_inv k, rfl, rejecting 0, run_rejecting k, rfl⟩⟩
  obtain ⟨t, ht⟩ := exists_exec_eq_next i s
  exact ⟨t, ht, (exec_ends ht).idle hi⟩

end Sys2Proof.Proofs
end

section
/-! PROOFS. The digit procedures of add, subtract, multiply and shift give the digits of what the values give
(41_compare_add_sub.md R122, R125, 42_multiply.md R141, R142, 44_modular.md R171). -/

namespace Sys2Proof.Machine

/-! ## Digits of canonical contents -/

theorem Bigint.Canonical.digits_eq {p : Params} {a : Bigint} (h : a.Canonical p) :
    canonDigits p.digitBits (a.val p.digitBits) = a.digits := congrArg Bigint.digits (canon_val h)

/-- A canonical content is 0 if it is the one digit 0 (R22, R23). -/
theorem Bigint.Canonical.digits_eq_zero_iff {p : Params} {a : Bigint} (h : a.Canonical p) :
    a.digits = [0] ↔ a.val p.digitBits = 0 := by
  constructor
  · intro hd
    simp [Bigint.val, hd]
  · intro hv
    rw [← h.digits_eq, hv, canonDigits_zero]

/-- Removing one leading zero is enough where the digits are at most one more than the value needs. -/
theorem trimOne_eq_canonDigits {D : Nat} {ds : List Nat} (hD : 0 < D) (hne : 1 ≤ ds.length) (hlt : ∀ d ∈ ds, d < 2 ^ D)
    (hlen : ds.length ≤ digitLen D (digitsVal D ds) + 1) : trimOne ds = canonDigits D (digitsVal D ds) := by
  unfold trimOne
  split_ifs with h
  · obtain ⟨hlong, htop⟩ := h
    obtain ⟨init, rfl⟩ := List.getLast?_eq_some_iff.mp htop
    have hval : digitsVal D (init ++ [0]) = digitsVal D init := by simp [digitsVal_append]
    have hinit : ∀ d ∈ init, d < 2 ^ D := fun d hd => hlt d (List.mem_append_left _ hd)
    rw [hval] at hlen ⊢
    simp only [List.length_append, List.length_singleton] at hlong hlen
    have hle : digitLen D (digitsVal D init) ≤ init.length := (digitLen_le_iff hD (by omega)).mpr (digitsVal_lt D init hinit)
    rw [List.dropLast_concat, canonDigits_digitsVal_of_digitLen hinit (by omega)]
  · exact (canonDigits_digitsVal hD hne hlt (by by_contra hc; exact h (by
      rw [not_or, not_not] at hc
      exact ⟨by omega, hc.2⟩))).symm

/-! ## Subtract (R125) -/

theorem lt_of_mem_pairDigits {D : Nat} {a b : List Nat} (ha : ∀ d ∈ a, d < 2 ^ D) (hb : ∀ d ∈ b, d < 2 ^ D)
    {q : Nat × Nat} (h : q ∈ pairDigits a b) : q.1 < 2 ^ D ∧ q.2 < 2 ^ D := by
  have hpad {ds : List Nat} {n d : Nat} (hds : ∀ d ∈ ds, d < 2 ^ D) (hd : d ∈ ds ++ List.replicate n 0) : d < 2 ^ D := by
    rcases List.mem_append.mp hd with hd | hd
    · exact hds d hd
    · rw [List.eq_of_mem_replicate hd]
      exact Nat.two_pow_pos D
  obtain ⟨h1, h2⟩ := List.of_mem_zip (show (q.1, q.2) ∈ _ from h)
  exact ⟨hpad ha h1, hpad hb h2⟩

/-- One position of R125: the masked digit, and the borrow it hands on. -/
theorem subRaw_split {D x y borrow : Nat} (hx : x < 2 ^ D) (hy : y < 2 ^ D) (hb : borrow ≤ 1) :
    x + 2 ^ D * (1 - subRaw D x y borrow / 2 ^ D) = subRaw D x y borrow % 2 ^ D + y + borrow := by
  have hraw := Nat.mod_add_div (subRaw D x y borrow) (2 ^ D)
  have hq : subRaw D x y borrow / 2 ^ D < 2 := (Nat.div_lt_iff_lt_mul (Nat.two_pow_pos D)).mpr (by unfold subRaw; omega)
  have hdef : subRaw D x y borrow = x + 2 ^ D - y - borrow := rfl
  obtain h | h := Nat.le_one_iff_eq_zero_or_eq_one.mp (Nat.lt_succ_iff.mp hq) <;> rw [h] at hraw ⊢ <;> omega

theorem lt_of_mem_subLoop {D : Nat} {ps : List (Nat × Nat)} {borrow d : Nat} (h : d ∈ subLoop D ps borrow) :
    d < 2 ^ D := by
  induction ps generalizing borrow with
  | nil => simp [subLoop] at h
  | cons q ps ih =>
    rcases List.mem_cons.mp h with rfl | h
    · exact Nat.mod_lt _ (Nat.two_pow_pos D)
    · exact ih h

@[simp] theorem subLoop_length (D : Nat) (ps : List (Nat × Nat)) (borrow : Nat) :
    (subLoop D ps borrow).length = ps.length := by
  induction ps generalizing borrow with
  | nil => rfl
  | cons q ps ih => simp [subLoop, ih]

/-- The loop's digits and a last borrow make up the difference. -/
theorem exists_digitsVal_subLoop {D : Nat} {ps : List (Nat × Nat)} (h : ∀ q ∈ ps, q.1 < 2 ^ D ∧ q.2 < 2 ^ D) {borrow : Nat}
    (hb : borrow ≤ 1) : ∃ last, digitsVal D (ps.map Prod.fst) + 2 ^ (D * ps.length) * last =
      digitsVal D (subLoop D ps borrow) + digitsVal D (ps.map Prod.snd) + borrow := by
  induction ps generalizing borrow with
  | nil => exact ⟨borrow, by simp [subLoop]⟩
  | cons q ps ih =>
    obtain ⟨x, y⟩ := q
    obtain ⟨⟨hx, hy⟩, hps⟩ := List.forall_mem_cons.mp h
    obtain ⟨last, hlast⟩ := ih hps (borrow := 1 - subRaw D x y borrow / 2 ^ D) (Nat.sub_le _ _)
    have hdigit := subRaw_split hx hy hb
    refine ⟨last, ?_⟩
    simp only [subLoop, List.map_cons, digitsVal_cons, List.length_cons, Nat.mul_succ, Nat.pow_add]
    linear_combination hdigit + 2 ^ D * hlast

/-- R125: the digits of the difference. -/
theorem subDigits_eq {p : Params} {a b : Bigint} (ha : a.Canonical p) (hb : b.Canonical p)
    (hle : b.val p.digitBits ≤ a.val p.digitBits) :
    subDigits p.digitBits a.digits b.digits = canonDigits p.digitBits (a.val p.digitBits - b.val p.digitBits) := by
  have hlt : ∀ d ∈ subLoop p.digitBits (pairDigits a.digits b.digits) 0, d < 2 ^ p.digitBits :=
    fun _ => lt_of_mem_subLoop
  obtain ⟨last, hlast⟩ := exists_digitsVal_subLoop (fun _ => lt_of_mem_pairDigits ha.2.2 hb.2.2) (Nat.zero_le 1)
  have hval := digitsVal_lt _ _ hlt
  rw [digitsVal_map_fst_pairDigits, digitsVal_map_snd_pairDigits] at hlast
  rw [subLoop_length] at hval
  rw [subDigits, trimDigits_eq_canonDigits (digitBits_pos p) hlt]
  congr 1
  simp only [Bigint.val] at hle ⊢
  obtain rfl | hpos := Nat.eq_zero_or_pos last
  · omega
  · have := Nat.le_mul_of_pos_right (2 ^ (p.digitBits * (pairDigits a.digits b.digits).length)) hpos
    omega

/-! ## Reading and writing one position -/

theorem getD_set_of_lt {t : List Nat} {i : Nat} (h : i < t.length) (x j : Nat) :
    (t.set i x).getD j 0 = if j = i then x else t.getD j 0 := by
  simp only [List.getD_eq_getElem?_getD, List.getElem?_set]
  by_cases hj : i = j
  · subst hj
    simp [h]
  · simp [hj, Ne.symm hj]

/-- A position written changes the value by the difference of what it held and holds. -/
theorem digitsVal_set (D : Nat) {t : List Nat} {i : Nat} (h : i < t.length) (x : Nat) :
    digitsVal D (t.set i x) + 2 ^ (D * i) * t.getD i 0 = digitsVal D t + 2 ^ (D * i) * x := by
  induction t generalizing i with
  | nil => simp at h
  | cons d ds ih =>
    cases i with
    | zero => simp; omega
    | succ i =>
      have hi := ih (i := i) (by simpa using h)
      simp only [List.set_cons_succ, digitsVal_cons, List.getD_cons_succ, Nat.mul_succ, Nat.pow_add]
      linear_combination 2 ^ D * hi

@[simp] theorem addAt_length (t : List Nat) (i x : Nat) : (addAt t i x).length = t.length := by simp [addAt]

theorem getD_addAt {t : List Nat} {i : Nat} (h : i < t.length) (x j : Nat) :
    (addAt t i x).getD j 0 = t.getD j 0 + if i = j then x else 0 := by
  rw [addAt, getD_set_of_lt h]
  by_cases hj : i = j
  · subst hj
    simp
  · simp [hj, Ne.symm hj]

theorem getD_addAt_of_ne {t : List Nat} {i : Nat} (h : i < t.length) (x : Nat) {j : Nat} (hj : i ≠ j) :
    (addAt t i x).getD j 0 = t.getD j 0 := by
  rw [getD_addAt h, if_neg hj, Nat.add_zero]

/-- A digit is at most what its place lets the value hold. -/
theorem mul_getD_le_digitsVal (D : Nat) {t : List Nat} {j : Nat} (h : j < t.length) :
    2 ^ (D * j) * t.getD j 0 ≤ digitsVal D t := by
  rw [digitsVal_eq_sum, Nat.mul_comm]
  exact Finset.single_le_sum (f := fun k => t.getD k 0 * 2 ^ (D * k)) (fun _ _ => Nat.zero_le _) (Finset.mem_range.mpr h)

theorem digitsVal_addAt (D : Nat) {t : List Nat} {i : Nat} (h : i < t.length) (x : Nat) :
    digitsVal D (addAt t i x) = digitsVal D t + 2 ^ (D * i) * x := by
  have hset := digitsVal_set D h (t.getD i 0 + x)
  rw [Nat.mul_add] at hset
  rw [addAt]
  omega

/-! ## The columns of a product (R141 steps 2 and 3, R142) -/

theorem foldl_range_succ {α : Type} (f : α → Nat → α) (x : α) (n : Nat) :
    (List.range (n + 1)).foldl f x = f ((List.range n).foldl f x) n := by
  rw [List.range_succ, List.foldl_append]
  rfl

section

variable {t : List Nat} {k n : Nat} (f : Nat → Nat)

/-- `t` with `f i` added at `k + i` for every `i < n`. -/
def addFrom (t : List Nat) (k n : Nat) (f : Nat → Nat) : List Nat :=
  (List.range n).foldl (fun t i => addAt t (k + i) (f i)) t

theorem addFrom_succ (t : List Nat) (k n : Nat) :
    addFrom t k (n + 1) f = addAt (addFrom t k n f) (k + n) (f n) := foldl_range_succ _ t n

@[simp] theorem addFrom_length (t : List Nat) (k n : Nat) : (addFrom t k n f).length = t.length := by
  induction n with
  | zero => rfl
  | succ n ih => rw [addFrom_succ, addAt_length, ih]

theorem getD_addFrom (h : k + n ≤ t.length) (j : Nat) : (addFrom t k n f).getD j 0 =
    t.getD j 0 + ∑ i ∈ Finset.range n, if k + i = j then f i else 0 := by
  induction n with
  | zero => rfl
  | succ n ih =>
    rw [addFrom_succ, getD_addAt (by rw [addFrom_length]; omega), ih (by omega), Finset.sum_range_succ, Nat.add_assoc]

theorem digitsVal_addFrom (D : Nat) (h : k + n ≤ t.length) : digitsVal D (addFrom t k n f) =
    digitsVal D t + 2 ^ (D * k) * ∑ i ∈ Finset.range n, f i * 2 ^ (D * i) := by
  induction n with
  | zero => rfl
  | succ n ih =>
    rw [addFrom_succ, digitsVal_addAt D (by rw [addFrom_length]; omega), ih (by omega), Finset.sum_range_succ, Nat.mul_add,
      Nat.mul_add, Nat.pow_add]
    ring

end

section

variable (a b : List Nat) {t : List Nat} {n : Nat}

theorem mulRow_eq_addFrom (t : List Nat) (k : Nat) :
    mulRow a b t k = addFrom t k b.length fun i => a.getD k 0 * b.getD i 0 := rfl

/-- R141 step 3 for the first `n` digits of `a`. -/
def addRows (t : List Nat) (n : Nat) : List Nat := (List.range n).foldl (mulRow a b) t

theorem addRows_succ (t : List Nat) (n : Nat) : addRows a b t (n + 1) = mulRow a b (addRows a b t n) n :=
  foldl_range_succ _ t n

@[simp] theorem addRows_length (t : List Nat) (n : Nat) : (addRows a b t n).length = t.length := by
  induction n with
  | zero => rfl
  | succ n ih => rw [addRows_succ, mulRow_eq_addFrom, addFrom_length, ih]

/-- Column `j` gains the products `a[k]·b[i]` with `k + i = j`. -/
theorem getD_addRows (h : n + b.length ≤ t.length + 1) (j : Nat) : (addRows a b t n).getD j 0 = t.getD j 0 +
    ∑ k ∈ Finset.range n, ∑ i ∈ Finset.range b.length, if k + i = j then a.getD k 0 * b.getD i 0 else 0 := by
  induction n with
  | zero => rfl
  | succ n ih =>
    rw [addRows_succ, mulRow_eq_addFrom, getD_addFrom _ (by rw [addRows_length]; omega), ih (by omega),
      Finset.sum_range_succ, Nat.add_assoc]

theorem digitsVal_addRows (D : Nat) (h : n + b.length ≤ t.length + 1) : digitsVal D (addRows a b t n) = digitsVal D t +
    (∑ k ∈ Finset.range n, a.getD k 0 * 2 ^ (D * k)) * digitsVal D b := by
  induction n with
  | zero => simp [addRows]
  | succ n ih =>
    have hrow : ∑ i ∈ Finset.range b.length, a.getD n 0 * b.getD i 0 * 2 ^ (D * i) = a.getD n 0 * digitsVal D b := by
      rw [digitsVal_eq_sum, Finset.mul_sum]
      exact Finset.sum_congr rfl fun i _ => Nat.mul_assoc _ _ _
    rw [addRows_succ, mulRow_eq_addFrom, digitsVal_addFrom _ D (by rw [addRows_length]; omega), ih (by omega), hrow,
      Finset.sum_range_succ]
    ring

theorem mulColumns_eq_addRows :
    mulColumns a b = addRows a b (List.replicate (a.length + b.length) 0) a.length := rfl

@[simp] theorem mulColumns_length : (mulColumns a b).length = a.length + b.length := by
  simp [mulColumns_eq_addRows]

/-- The columns stand for the product. -/
theorem digitsVal_mulColumns (D : Nat) : digitsVal D (mulColumns a b) = digitsVal D a * digitsVal D b := by
  rw [mulColumns_eq_addRows, digitsVal_addRows a b D (by simp), digitsVal_replicate_zero, Nat.zero_add,
    ← digitsVal_eq_sum]

theorem getD_mulColumns (j : Nat) : (mulColumns a b).getD j 0 =
    ∑ k ∈ Finset.range a.length, ∑ i ∈ Finset.range b.length, if k + i = j then a.getD k 0 * b.getD i 0 else 0 := by
  have hzero : (List.replicate (a.length + b.length) 0).getD j 0 = 0 := by
    simp only [List.getD_eq_getElem?_getD, List.getElem?_replicate]
    split <;> rfl
  rw [mulColumns_eq_addRows, getD_addRows a b (by simp), hzero, Nat.zero_add]

end

/-- Of the terms of one row at most one stands in a column. -/
theorem sum_ite_add_eq_le {n k j M : Nat} {f : Nat → Nat} (hf : ∀ i, f i ≤ M) :
    (∑ i ∈ Finset.range n, if k + i = j then f i else 0) ≤ M := by
  rw [Finset.sum_ite, Finset.sum_const_zero, Nat.add_zero]
  have hcard : ((Finset.range n).filter fun i => k + i = j).card ≤ 1 :=
    Finset.card_le_one.mpr fun x hx y hy => by
      have hx := (Finset.mem_filter.mp hx).2
      have hy := (Finset.mem_filter.mp hy).2
      omega
  calc (∑ i ∈ (Finset.range n).filter fun i => k + i = j, f i)
      ≤ ((Finset.range n).filter fun i => k + i = j).card * M := Finset.sum_le_card_nsmul _ _ _ fun i _ => hf i
    _ ≤ M := by simpa using Nat.mul_le_mul_right M hcard

/-- R142: a column holds at most one term of each row and of each column of the operands. -/
theorem getD_mulColumns_le {a b : List Nat} {M : Nat} (h : ∀ k i, a.getD k 0 * b.getD i 0 ≤ M) (j : Nat) :
    (mulColumns a b).getD j 0 ≤ min a.length b.length * M := by
  rw [getD_mulColumns, ← Nat.mul_min_mul_right, le_min_iff]
  constructor
  · simpa using Finset.sum_le_card_nsmul (Finset.range a.length) _ M fun k _ => sum_ite_add_eq_le fun i => h k i
  · rw [Finset.sum_comm]
    simp only [Nat.add_comm _ (_ : Nat)]
    simpa using Finset.sum_le_card_nsmul (Finset.range b.length) _ M fun i _ => sum_ite_add_eq_le fun k => h k i

/-- R142: every column of a product of canonical contents is small. -/
theorem le_of_mem_mulColumns {p : Params} {a b : Bigint} (ha : a.Canonical p) (hb : b.Canonical p) {x : Nat}
    (hx : x ∈ mulColumns a.digits b.digits) : x ≤ min a.length b.length * (2 ^ p.digitBits - 1) ^ 2 := by
  have hdigit {ds : List Nat} (hds : ∀ d ∈ ds, d < 2 ^ p.digitBits) (k : Nat) : ds.getD k 0 ≤ 2 ^ p.digitBits - 1 := by
    rw [getD_eq_bitsOf hds]
    exact Nat.le_sub_one_of_lt (Nat.mod_lt _ (Nat.two_pow_pos _))
  obtain ⟨j, hj, rfl⟩ := List.mem_iff_getElem.mp hx
  rw [← List.getD_eq_getElem _ 0 hj, Nat.pow_two]
  exact getD_mulColumns_le (fun k i => Nat.mul_le_mul (hdigit ha.2.2 k) (hdigit hb.2.2 i)) j

/-- The accumulator is wide enough for `CAP` full products of two digits (R142, D7). -/
theorem min_mul_lt_accumulator {p : Params} {n : Nat} (hn : n ≤ p.cap) :
    n * (2 ^ p.digitBits - 1) ^ 2 < 2 ^ (2 * p.digitBits + Nat.clog 2 p.cap + 1) := by
  have hcap : n ≤ 2 ^ Nat.clog 2 p.cap := hn.trans (Nat.le_pow_clog (by decide) _)
  calc n * (2 ^ p.digitBits - 1) ^ 2
      ≤ 2 ^ Nat.clog 2 p.cap * (2 ^ p.digitBits) ^ 2 :=
        Nat.mul_le_mul hcap (Nat.pow_le_pow_left (Nat.sub_le _ _) 2)
    _ = 2 ^ (2 * p.digitBits + Nat.clog 2 p.cap) := by rw [← Nat.pow_mul, ← Nat.pow_add]; congr 1; omega
    _ < 2 ^ (2 * p.digitBits + Nat.clog 2 p.cap + 1) := Nat.pow_lt_pow_right (by decide) (Nat.lt_succ_self _)

/-! ## The carry pass (R141 step 4) -/

@[simp] theorem carryStep_length (D : Nat) (t : List Nat) (i : Nat) : (carryStep D t i).length = t.length := by
  simp [carryStep]

/-- A carry moves from one position to the next and leaves the value as it is. -/
theorem digitsVal_carryStep (D : Nat) {t : List Nat} {i : Nat} (h : i + 1 < t.length) :
    digitsVal D (carryStep D t i) = digitsVal D t := by
  have hcarry := digitsVal_addAt D h (t.getD i 0 / 2 ^ D)
  have hmask := digitsVal_set D (t := addAt t (i + 1) (t.getD i 0 / 2 ^ D)) (i := i) (by rw [addAt_length]; omega)
    (t.getD i 0 % 2 ^ D)
  have hdigit : 2 ^ (D * i) * (t.getD i 0 % 2 ^ D) + 2 ^ (D * (i + 1)) * (t.getD i 0 / 2 ^ D) =
      2 ^ (D * i) * t.getD i 0 := by
    rw [Nat.mul_succ, Nat.pow_add, Nat.mul_assoc, ← Nat.mul_add, Nat.mod_add_div]
  rw [getD_addAt_of_ne h _ i.succ_ne_self, hcarry] at hmask
  rw [carryStep]
  omega

theorem getD_carryStep (D : Nat) {t : List Nat} {i : Nat} (h : i + 1 < t.length) {j : Nat} (hj : j ≤ i) :
    (carryStep D t i).getD j 0 = if j = i then t.getD i 0 % 2 ^ D else t.getD j 0 := by
  rw [carryStep, getD_set_of_lt (by rw [addAt_length]; omega), getD_addAt_of_ne h _ (by omega)]

/-- The carry pass over the first `n` positions. -/
def carryUpTo (D : Nat) (t : List Nat) (n : Nat) : List Nat := (List.range n).foldl (carryStep D) t

theorem carryUpTo_succ (D : Nat) (t : List Nat) (n : Nat) : carryUpTo D t (n + 1) = carryStep D (carryUpTo D t n) n :=
  foldl_range_succ _ t n

@[simp] theorem carryUpTo_length (D : Nat) (t : List Nat) (n : Nat) : (carryUpTo D t n).length = t.length := by
  induction n with
  | zero => rfl
  | succ n ih => rw [carryUpTo_succ, carryStep_length, ih]

/-- The pass keeps the value and makes digits of the positions it has been at. -/
theorem carryUpTo_spec (D : Nat) {t : List Nat} {n : Nat} (h : n + 1 ≤ t.length) :
    digitsVal D (carryUpTo D t n) = digitsVal D t ∧ ∀ j < n, (carryUpTo D t n).getD j 0 < 2 ^ D := by
  induction n with
  | zero => exact ⟨rfl, nofun⟩
  | succ n ih =>
    obtain ⟨hval, hdigits⟩ := ih (by omega)
    have hn : n + 1 < (carryUpTo D t n).length := by rw [carryUpTo_length]; omega
    rw [carryUpTo_succ]
    refine ⟨(digitsVal_carryStep D hn).trans hval, fun j hj => ?_⟩
    rw [getD_carryStep D hn (Nat.lt_succ_iff.mp hj)]
    split_ifs with hjn
    · exact Nat.mod_lt _ (Nat.two_pow_pos D)
    · exact hdigits j (by omega)

/-- If the value fits the array, the one pass leaves digits alone, the top position too. -/
theorem lt_of_mem_carryPass {D : Nat} {t : List Nat} (hfit : digitsVal D t < 2 ^ (D * t.length)) {d : Nat}
    (hd : d ∈ carryPass D t) : d < 2 ^ D := by
  obtain ⟨j, hj, rfl⟩ := List.mem_iff_getElem.mp hd
  have hlen : (carryPass D t).length = t.length := carryUpTo_length D t _
  have hplace := mul_getD_le_digitsVal D hj
  obtain ⟨hval, hdigits⟩ := carryUpTo_spec D (t := t) (n := t.length - 1) (by omega)
  rw [← List.getD_eq_getElem _ 0 hj]
  rcases Nat.lt_or_ge j (t.length - 1) with hlow | htop
  · exact hdigits j hlow
  · rw [show t.length = j + 1 by omega, Nat.mul_succ, Nat.pow_add] at hfit
    exact Nat.lt_of_mul_lt_mul_left (a := 2 ^ (D * j)) ((hplace.trans_eq hval).trans_lt hfit)

/-! ## Multiply (R141) -/

/-- A product of numbers that are not 0 has at least as many digits as the factors have together, less one. -/
theorem digitLen_add_le_digitLen_mul {D v w : Nat} (hD : 0 < D) (hv : v ≠ 0) (hw : w ≠ 0) :
    digitLen D v + digitLen D w ≤ digitLen D (v * w) + 1 := by
  have hlow := Nat.mul_le_mul (two_pow_digitLen_pred_le hD hv) (two_pow_digitLen_pred_le hD hw)
  have hpos := digitLen_pos (v * w) hD
  rw [← Nat.pow_add, ← Nat.mul_add] at hlow
  by_contra hc
  have hlen := (digitLen_le_iff (n := digitLen D v - 1 + (digitLen D w - 1)) hD (by omega)).mp
    (show digitLen D (v * w) ≤ _ by omega)
  omega

/-- R141 steps 2 to 5 give the digits of the product of two canonical contents that are not 0. -/
theorem trimOne_carryPass_mulColumns {p : Params} {a b : Bigint} (ha : a.Canonical p) (hb : b.Canonical p)
    (hva : a.val p.digitBits ≠ 0) (hvb : b.val p.digitBits ≠ 0) :
    trimOne (carryPass p.digitBits (mulColumns a.digits b.digits)) =
      canonDigits p.digitBits (a.val p.digitBits * b.val p.digitBits) := by
  have hD := digitBits_pos p
  have hcols : (mulColumns a.digits b.digits).length = a.length + b.length := mulColumns_length _ _
  have hpos := ha.1.1
  have hfit : digitsVal p.digitBits (mulColumns a.digits b.digits) <
      2 ^ (p.digitBits * (mulColumns a.digits b.digits).length) := by
    rw [digitsVal_mulColumns, hcols]
    exact ha.val_mul_val_lt hb
  have hlen : (carryPass p.digitBits (mulColumns a.digits b.digits)).length = a.length + b.length :=
    (carryUpTo_length _ _ _).trans hcols
  have hval : digitsVal p.digitBits (carryPass p.digitBits (mulColumns a.digits b.digits)) =
      a.val p.digitBits * b.val p.digitBits :=
    (carryUpTo_spec _ (by omega)).1.trans (digitsVal_mulColumns _ _ _)
  have hshort := digitLen_add_le_digitLen_mul hD hva hvb
  rw [ha.digitLen_val, hb.digitLen_val, ← hval, ← hlen] at hshort
  rw [← hval]
  exact trimOne_eq_canonDigits hD (by omega) (fun _ => lt_of_mem_carryPass hfit) hshort

/-- R141: zero operands, the capacity test on the lengths, and else the digits of the product. -/
theorem mulDigits_eq {p : Params} {a b : Bigint} (ha : a.Canonical p) (hb : b.Canonical p) :
    mulDigits p.digitBits p.cap a.digits b.digits =
      if a.val p.digitBits = 0 ∨ b.val p.digitBits = 0 then some [0]
      else if p.cap < a.length + b.length then none
      else some (canonDigits p.digitBits (a.val p.digitBits * b.val p.digitBits)) := by
  simp only [mulDigits, ha.digits_eq_zero_iff, hb.digits_eq_zero_iff]
  split_ifs with hzero hcap hcap' hcap''
  · rfl
  · rfl
  · exact absurd hcap hcap'
  · exact absurd hcap'' hcap
  · obtain ⟨hva, hvb⟩ := not_or.mp hzero
    rw [trimOne_carryPass_mulColumns ha hb hva hvb]

/-! ## The right shift (44_modular.md R171) -/

/-- The low bit of a number of digits is that of its lowest digit. -/
theorem digitsVal_mod_two {D : Nat} (hD : 0 < D) (ds : List Nat) : digitsVal D ds % 2 = ds.headD 0 % 2 := by
  cases ds with
  | nil => rfl
  | cons d ds =>
    obtain ⟨k, rfl⟩ := Nat.exists_eq_add_one_of_ne_zero hD.ne'
    rw [digitsVal_cons, Nat.pow_succ', Nat.mul_assoc, Nat.add_mul_mod_self_left, List.headD_cons]

/-- The digits of R171's shift before the trim. -/
def shiftDigits (D : Nat) (ds : List Nat) : List Nat :=
  List.zipWith (fun d hi => d / 2 + hi % 2 * 2 ^ (D - 1)) ds (ds.tail ++ [0])

theorem shiftRightOne_eq (D : Nat) (ds : List Nat) : shiftRightOne D ds = trimOne (shiftDigits D ds) := rfl

theorem shiftDigits_cons (D d : Nat) (ds : List Nat) :
    shiftDigits D (d :: ds) = (d / 2 + ds.headD 0 % 2 * 2 ^ (D - 1)) :: shiftDigits D ds := by
  cases ds <;> rfl

@[simp] theorem shiftDigits_length (D : Nat) (ds : List Nat) : (shiftDigits D ds).length = ds.length := by
  cases ds <;> simp [shiftDigits]

theorem digitsVal_shiftDigits {D : Nat} (hD : 0 < D) (ds : List Nat) :
    digitsVal D (shiftDigits D ds) = digitsVal D ds / 2 := by
  induction ds with
  | nil => simp [shiftDigits]
  | cons d ds ih =>
    obtain ⟨k, rfl⟩ := Nat.exists_eq_add_one_of_ne_zero hD.ne'
    have hlow := digitsVal_mod_two hD ds
    have hsplit := Nat.mod_add_div (digitsVal (k + 1) ds) 2
    have hhalf : (d + 2 ^ (k + 1) * digitsVal (k + 1) ds) / 2 = d / 2 + 2 ^ k * digitsVal (k + 1) ds := by
      rw [Nat.pow_succ', Nat.mul_assoc, Nat.add_mul_div_left _ _ Nat.two_pos]
    rw [shiftDigits_cons, digitsVal_cons, digitsVal_cons, ih, ← hlow, Nat.add_sub_cancel, hhalf]
    linear_combination 2 ^ k * hsplit

theorem lt_of_mem_shiftDigits {D : Nat} (hD : 0 < D) {ds : List Nat} (hds : ∀ d ∈ ds, d < 2 ^ D) {x : Nat}
    (hx : x ∈ shiftDigits D ds) : x < 2 ^ D := by
  induction ds with
  | nil => simp [shiftDigits] at hx
  | cons d ds ih =>
    obtain ⟨hd, hds⟩ := List.forall_mem_cons.mp hds
    rw [shiftDigits_cons] at hx
    rcases List.mem_cons.mp hx with rfl | hx
    · obtain ⟨k, rfl⟩ := Nat.exists_eq_add_one_of_ne_zero hD.ne'
      rw [Nat.pow_succ'] at hd ⊢
      rw [Nat.add_sub_cancel]
      rcases Nat.mod_two_eq_zero_or_one (ds.headD 0) with h | h <;> rw [h] <;> omega
    · exact ih hds hx

/-- Halving a number takes at most one digit away. -/
theorem digitLen_le_digitLen_half {D : Nat} (hD : 0 < D) (e : Nat) : digitLen D e ≤ digitLen D (e / 2) + 1 := by
  rw [digitLen_le_iff hD (by omega)]
  have hhalf := lt_two_pow_digitLen (e / 2) hD
  have hgrow : 2 ^ (D * digitLen D (e / 2) + 1) ≤ 2 ^ (D * (digitLen D (e / 2) + 1)) :=
    Nat.pow_le_pow_right (by decide) (by rw [Nat.mul_succ]; omega)
  rw [Nat.pow_succ] at hgrow
  omega

/-- R171: the shift halves. -/
theorem shiftRightOne_canonDigits {D : Nat} (hD : 0 < D) (e : Nat) :
    shiftRightOne D (canonDigits D e) = canonDigits D (e / 2) := by
  have hval : digitsVal D (shiftDigits D (canonDigits D e)) = e / 2 := by
    rw [digitsVal_shiftDigits hD, digitsVal_canonDigits e hD]
  have hlen : (shiftDigits D (canonDigits D e)).length = digitLen D e := by simp
  rw [shiftRightOne_eq, trimOne_eq_canonDigits hD (hlen ▸ digitLen_pos e hD)
    (fun _ => lt_of_mem_shiftDigits hD fun _ => canonDigits_lt) ?_, hval]
  rw [hlen, hval]
  exact digitLen_le_digitLen_half hD e

theorem isOddDigits_canonDigits {D : Nat} (hD : 0 < D) (e : Nat) :
    isOddDigits (canonDigits D e) = decide (e % 2 = 1) := by
  rw [isOddDigits, ← digitsVal_mod_two hD, digitsVal_canonDigits e hD]
  rfl

end Sys2Proof.Machine

/-! ## The obligations -/

namespace Sys2Proof.Proofs

open Sys2Proof Sys2Proof.Machine

/-- Settles O39 (`addDigits_eq`). -/
theorem addDigitsAgree : Obligations.AddDigitsAgree := fun _ _ _ _ ha hb => addDigits_eq ha hb

/-- Settles O40: the loop's digits and a last borrow make up the difference, and no borrow is left (`subDigits_eq`). -/
theorem subDigitsAgree : Obligations.SubDigitsAgree := fun _ _ _ ha hb hle => subDigits_eq ha hb hle

/-- Settles O42: the columns stand for the product, the carry pass keeps the value and makes digits of them, and the product
is at most one digit shorter than they are many. -/
theorem mulDigitsAgree : Obligations.MulDigitsAgree := fun _ _ _ ha hb => mulDigits_eq ha hb

/-- Settles O43: a column holds at most one product of digits for each digit of the shorter operand. -/
theorem mulColumnsFit : Obligations.MulColumnsFit := by
  intro p a b ha hb x hx
  have hle := le_of_mem_mulColumns ha hb hx
  exact ⟨hle, hle.trans_lt (min_mul_lt_accumulator (min_le_of_left_le ha.1.2))⟩

/-- Settles O49: each digit of the shift takes the low bit of the next, and halving takes at most one digit away. -/
theorem shiftRightHalves : Obligations.ShiftRightHalves :=
  fun w e => ⟨shiftRightOne_canonDigits (DigitWidth.bits_pos w) e, isOddDigits_canonDigits (DigitWidth.bits_pos w) e⟩

end Sys2Proof.Proofs
end

section
/-! PROOFS. The long division of 43_divide.md on canonical digits: the estimate of a quotient digit is at most one too high
and is corrected exactly (R153, R154, R157), and the loop gives the digits of quotient and remainder (R151 to R156). -/

namespace Sys2Proof.Machine

/-! ## Parts of canonical digits -/

section

variable {D : Nat} (hD : 0 < D)

include hD

/-- The digits from position `n` up stand for the value less its low digits. -/
theorem digitsVal_drop_canonDigits (v n : Nat) : digitsVal D ((canonDigits D v).drop n) = v / 2 ^ (D * n) := by
  rcases Nat.lt_or_ge (digitLen D v) n with hlong | hn
  · have hsmall : v < 2 ^ (D * n) :=
      (lt_two_pow_digitLen v hD).trans_le (Nat.pow_le_pow_right (by decide) (Nat.mul_le_mul_left D hlong.le))
    rw [List.drop_eq_nil_of_le (by rw [canonDigits_length]; exact hlong.le), Nat.div_eq_of_lt hsmall, digitsVal_nil]
  · have hlen : ((canonDigits D v).take n).length = n := by simpa using hn
    have hlow := digitsVal_lt D ((canonDigits D v).take n) fun d hd => canonDigits_lt (List.mem_of_mem_take hd)
    have hsplit := digitsVal_append D ((canonDigits D v).take n) ((canonDigits D v).drop n)
    rw [List.take_append_drop, digitsVal_canonDigits v hD] at hsplit
    rw [hlen] at hlow hsplit
    conv_rhs => rw [hsplit, Nat.add_mul_div_left _ _ (Nat.two_pow_pos _), Nat.div_eq_of_lt hlow, Nat.zero_add]

theorem digitsVal_take_canonDigits (v n : Nat) : digitsVal D ((canonDigits D v).take n) = v % 2 ^ (D * n) := by
  rcases Nat.lt_or_ge (digitLen D v) n with hlong | hn
  · have hsmall : v < 2 ^ (D * n) :=
      (lt_two_pow_digitLen v hD).trans_le (Nat.pow_le_pow_right (by decide) (Nat.mul_le_mul_left D hlong.le))
    rw [List.take_of_length_le (by rw [canonDigits_length]; exact hlong.le), Nat.mod_eq_of_lt hsmall,
      digitsVal_canonDigits v hD]
  · have hlen : ((canonDigits D v).take n).length = n := by simpa using hn
    have hsplit := digitsVal_append D ((canonDigits D v).take n) ((canonDigits D v).drop n)
    rw [List.take_append_drop, digitsVal_canonDigits v hD, digitsVal_drop_canonDigits hD, hlen] at hsplit
    have := Nat.mod_add_div v (2 ^ (D * n))
    omega

/-- The digits from a position below the top up are canonical. -/
theorem drop_canonDigits {v n : Nat} (hn : n < digitLen D v) :
    (canonDigits D v).drop n = canonDigits D (v / 2 ^ (D * n)) := by
  have hlen : ((canonDigits D v).drop n).length = digitLen D v - n := by simp
  rw [← digitsVal_drop_canonDigits hD v n]
  refine (canonDigits_digitsVal hD (by omega) (fun d hd => canonDigits_lt (List.mem_of_mem_drop hd)) ?_).symm
  by_cases hv : v = 0
  · subst hv
    left
    simp only [digitLen, if_true] at hn hlen
    omega
  · right
    rw [List.getLast?_drop, if_neg (by rw [canonDigits_length]; omega)]
    exact canonDigits_getLast? hD hv

/-- R155: the next dividend digit below a remainder. -/
theorem shiftIn_canonDigits (v : Nat) {d : Nat} (hd : d < 2 ^ D) :
    shiftIn (canonDigits D v) d = canonDigits D (d + 2 ^ D * v) := by
  have hzero : canonDigits D v = [0] ↔ v = 0 := by
    constructor
    · intro h
      have := digitsVal_canonDigits v hD
      rw [h] at this
      simpa using this.symm
    · rintro rfl
      exact canonDigits_zero D
  unfold shiftIn
  split_ifs with h
  · rw [hzero.mp h, Nat.mul_zero, Nat.add_zero, canonDigits_of_lt hD hd]
  · have hv : v ≠ 0 := hzero.not.mp h
    have hval : digitsVal D (d :: canonDigits D v) = d + 2 ^ D * v := by rw [digitsVal_cons, digitsVal_canonDigits v hD]
    have htop := canonDigits_getLast? hD hv
    rw [← hval]
    refine (canonDigits_digitsVal hD (by simp) (fun x hx => ?_) (.inr ?_)).symm
    · rcases List.mem_cons.mp hx with rfl | hx
      · exact hd
      · exact canonDigits_lt hx
    · rwa [List.getLast?_cons_of_ne_nil (List.ne_nil_of_length_pos (by rw [canonDigits_length]; exact digitLen_pos v hD))]

end

/-! ## Comparing canonical digits (R120) -/

/-- R120 on the digits of any two numbers: some register is wide enough for both. -/
theorem cmpDigits_canonDigits (w : DigitWidth) (v u : Nat) :
    cmpDigits (canonDigits w.bits v) (canonDigits w.bits u) = compare v u := by
  let p : Params := ⟨w, max (digitLen w.bits v) (digitLen w.bits u), 0, 0⟩
  have hD : 0 < p.digitBits := digitBits_pos p
  have hcap : 1 ≤ p.cap := le_max_of_le_left (digitLen_pos v hD)
  have hv : v < p.vmax := (digitLen_le_iff hD hcap).mp (le_max_left _ _)
  have hu : u < p.vmax := (digitLen_le_iff hD hcap).mp (le_max_right _ _)
  have h := cmpDigits_eq_compare (canon_canonical hcap hv) (canon_canonical hcap hu)
  rwa [val_canon v hD, val_canon u hD] at h

/-! ## The estimate (R153) -/

theorem topValue_canonDigits {D : Nat} (hD : 0 < D) (v k : Nat) :
    topValue D (canonDigits D v) k = v / 2 ^ (D * (digitLen D v - k)) := by
  rw [topValue, canonDigits_length, digitsVal_drop_canonDigits hD]

/-- A remainder the loop can have is at most one digit longer than the divisor. -/
theorem digitLen_le_succ {D r b : Nat} (hD : 0 < D) (hr : r < b * 2 ^ D) : digitLen D r ≤ digitLen D b + 1 := by
  rw [digitLen_le_iff hD (by omega), Nat.mul_succ, Nat.pow_add]
  exact hr.trans (Nat.mul_lt_mul_of_pos_right (lt_two_pow_digitLen b hD) (Nat.two_pow_pos D))

/-- What of a remainder below `b·2^D` the estimate leaves out: all but its top 4 digits. -/
def leftOut (D r : Nat) : Nat := 2 ^ (D * (digitLen D r - 4))

/-- Both trial numbers leave out the same low digits. -/
theorem estimate_eq {D r b : Nat} (hD : 0 < D) (hlt : b < r) (hr : r < b * 2 ^ D) :
    estimate D (canonDigits D r) (canonDigits D b) = r / leftOut D r / (b / leftOut D r) := by
  have hlen : digitLen D b ≤ digitLen D r := digitLen_mono hD hlt.le
  have hlen' := digitLen_le_succ hD hr
  have hpos := digitLen_pos b hD
  rw [estimate, topValue_canonDigits hD, topValue_canonDigits hD, trialDivisorLen, trialLen, canonDigits_length,
    canonDigits_length, leftOut]
  have hr : digitLen D r - min (digitLen D r) 4 = digitLen D r - 4 := by omega
  have hb : (digitLen D b - if digitLen D b < digitLen D r then min (digitLen D r) 4 - 1 else min (digitLen D r) 4) =
      digitLen D r - 4 := by
    split <;> omega
  rw [hr, hb]

/-- Leaving out the low digits of both numbers never makes their quotient too low (R157 b). -/
theorem div_le_div_of_leftOut {r b S : Nat} (hS : 0 < S) (hb : S ≤ b) : r / b ≤ r / S / (b / S) := by
  rw [Nat.le_div_iff_mul_le (Nat.div_pos hb hS), Nat.le_div_iff_mul_le hS, Nat.mul_assoc]
  exact (Nat.mul_le_mul_left _ (Nat.div_mul_le_self b S)).trans (Nat.div_mul_le_self r b)

section

variable {r b S B : Nat} (hS : 0 < S) (hr : r < b * B) (hbig : B < b / S)

include hS hr hbig

/-- A quotient below `B` is estimated as at most `B` if the trial divisor is more than `B`. -/
theorem estimate_le_base : r / S / (b / S) ≤ B := by
  have hb : b ≤ (b / S + 1) * S := by
    rw [Nat.succ_mul]
    exact (Nat.lt_div_mul_add hS).le
  rw [← Nat.lt_succ_iff, Nat.div_lt_iff_lt_mul (by omega), Nat.div_lt_iff_lt_mul hS]
  calc r < b * B := hr
    _ ≤ (b / S + 1) * S * B := Nat.mul_le_mul_right B hb
    _ = (B * (b / S) + B) * S := by ring
    _ ≤ (B * (b / S) + b / S) * S := Nat.mul_le_mul_right S (by omega)
    _ = B.succ * (b / S) * S := by rw [Nat.succ_mul]

/-- The estimate is then at most one too high (R157 b). -/
theorem estimate_le_succ : r / S / (b / S) ≤ r / b + 1 := by
  have hle := estimate_le_base hS hr hbig
  have hq := Nat.div_mul_le_self (r / S) (b / S)
  cases hk : r / S / (b / S) with
  | zero => exact Nat.zero_le _
  | succ k =>
    rw [hk] at hle hq
    have hb : b ≤ (b / S + 1) * S := by
      rw [Nat.succ_mul]
      exact (Nat.lt_div_mul_add hS).le
    have hb0 : 0 < b := Nat.pos_of_ne_zero (by rintro rfl; simp at hr)
    refine Nat.succ_le_succ ((Nat.le_div_iff_mul_le hb0).mpr ?_)
    calc k * b ≤ k * ((b / S + 1) * S) := Nat.mul_le_mul_left k hb
      _ = (k * (b / S) + k) * S := by ring
      _ ≤ (k * (b / S) + b / S) * S := Nat.mul_le_mul_right S (by omega)
      _ = (k + 1) * (b / S) * S := by rw [Nat.succ_mul]
      _ ≤ r / S * S := Nat.mul_le_mul_right S hq
      _ ≤ r := Nat.div_mul_le_self r S

end

/-- The trial divisor for a remainder of more than four digits has at least three. -/
theorem base_lt_div_leftOut {D r b : Nat} (hD : 0 < D) (hr : r < b * 2 ^ D) (hlong : 4 < digitLen D r) :
    2 ^ D < b / leftOut D r := by
  have hb : b ≠ 0 := by rintro rfl; simp at hr
  have hlen : digitLen D r ≤ digitLen D b + 1 := digitLen_le_succ hD hr
  have hexp : D + 1 + D * (digitLen D r - 4) ≤ D * (digitLen D b - 1) := by
    obtain ⟨k, hk⟩ : ∃ k, digitLen D b = k + (digitLen D r - 4) + 3 := ⟨digitLen D b - (digitLen D r - 4) - 3, by omega⟩
    rw [hk, show k + (digitLen D r - 4) + 3 - 1 = k + (digitLen D r - 4) + 2 by omega, Nat.mul_add, Nat.mul_add]
    omega
  rw [leftOut, Nat.lt_iff_add_one_le, Nat.le_div_iff_mul_le (Nat.two_pow_pos _)]
  calc (2 ^ D + 1) * 2 ^ (D * (digitLen D r - 4))
      ≤ 2 ^ (D + 1) * 2 ^ (D * (digitLen D r - 4)) :=
        Nat.mul_le_mul_right _ (by rw [Nat.pow_succ]; have := Nat.two_pow_pos D; omega)
    _ = 2 ^ (D + 1 + D * (digitLen D r - 4)) := (Nat.pow_add 2 _ _).symm
    _ ≤ 2 ^ (D * (digitLen D b - 1)) := Nat.pow_le_pow_right (by decide) hexp
    _ ≤ b := two_pow_digitLen_pred_le hD hb

/-- R157 b and d, for a remainder the loop can have. -/
theorem estimate_bounds {D r b : Nat} (hD : 0 < D) (hlt : b < r) (hr : r < b * 2 ^ D) :
    r / b ≤ estimate D (canonDigits D r) (canonDigits D b) ∧
      estimate D (canonDigits D r) (canonDigits D b) ≤ r / b + 1 ∧
      (digitLen D r ≤ 4 → estimate D (canonDigits D r) (canonDigits D b) = r / b) ∧
      estimate D (canonDigits D r) (canonDigits D b) ≤ 2 ^ D := by
  have hb : 0 < b := Nat.pos_of_ne_zero (by rintro rfl; simp at hr)
  rw [estimate_eq hD hlt hr]
  rcases Nat.lt_or_ge 4 (digitLen D r) with hlong | hshort
  · have hS : 0 < leftOut D r := Nat.two_pow_pos _
    have hbig := base_lt_div_leftOut hD hr hlong
    have hle : leftOut D r ≤ b := (Nat.div_pos_iff.mp ((Nat.zero_le _).trans_lt hbig)).2
    exact ⟨div_le_div_of_leftOut hS hle, estimate_le_succ hS hr hbig, fun h => absurd hlong (Nat.not_lt.mpr h),
      estimate_le_base hS hr hbig⟩
  · have hS : leftOut D r = 1 := by rw [leftOut, Nat.sub_eq_zero_of_le hshort, Nat.mul_zero, Nat.pow_zero]
    have hq : r / b < 2 ^ D := (Nat.div_lt_iff_lt_mul hb).mpr (by rwa [Nat.mul_comm])
    simp only [hS, Nat.div_one]
    exact ⟨le_rfl, Nat.le_succ _, fun _ => trivial, hq.le⟩

/-- R154: the largest number up to the candidate that does not make the product too large. -/
theorem correct_eq {valB valR : Nat} (hb : valB ≠ 0) (q : Nat) : correct valB valR q = min q (valR / valB) := by
  induction q with
  | zero => simp [correct]
  | succ q ih =>
    have hiff : q + 1 ≤ valR / valB ↔ valB * (q + 1) ≤ valR := by
      rw [Nat.le_div_iff_mul_le (Nat.pos_of_ne_zero hb), Nat.mul_comm]
    rw [correct]
    split_ifs with h
    · rw [ih]
      omega
    · omega

/-- R154: the corrected candidate is the quotient digit. -/
theorem estimateAndCorrect_eq {D r b : Nat} (hD : 0 < D) (hlt : b < r) (hr : r < b * 2 ^ D) :
    estimateAndCorrect D (canonDigits D r) (canonDigits D b) = r / b := by
  have hb : b ≠ 0 := by rintro rfl; simp at hr
  have hle := (estimate_bounds hD hlt hr).1
  rw [estimateAndCorrect, digitsVal_canonDigits b hD, digitsVal_canonDigits r hD, correct_eq hb, Nat.min_eq_right hle]

/-! ## The loop (R152, R155, R156) -/

/-- One iteration gives a quotient digit and the remainder. -/
theorem divStep_canonDigits (w : DigitWidth) {r b : Nat} (hr : r < b * 2 ^ w.bits) :
    divStep w.bits (canonDigits w.bits b) (canonDigits w.bits r) = (r / b, canonDigits w.bits (r % b)) := by
  have hD := DigitWidth.bits_pos w
  have hb : 0 < b := Nat.pos_of_ne_zero (by rintro rfl; simp at hr)
  rw [divStep, cmpDigits_canonDigits]
  rcases lt_trichotomy r b with h | rfl | h
  · rw [Nat.compare_eq_lt.mpr h, Nat.div_eq_of_lt h, Nat.mod_eq_of_lt h]
  · rw [Nat.compare_eq_eq.mpr rfl, Nat.div_self hb, Nat.mod_self, canonDigits_zero]
  · have hmod := Nat.mod_add_div r b
    rw [Nat.compare_eq_gt.mpr h]
    simp only [estimateAndCorrect_eq hD h hr, digitsVal_canonDigits _ hD]
    rw [show r - b * (r / b) = r % b by omega]

theorem div_lt_base {r b B : Nat} (hr : r < b * B) : r / b < B :=
  Nat.div_lt_of_lt_mul hr

/-- The next remainder of the loop is again below the divisor's multiple by the base. -/
theorem next_lt_mul_base {r b d B : Nat} (hb : 0 < b) (hd : d < B) : d + B * (r % b) < b * B :=
  calc d + B * (r % b) < B * (r % b + 1) := by rw [Nat.mul_succ]; omega
    _ ≤ B * b := Nat.mul_le_mul_left B (Nat.mod_lt r hb)
    _ = b * B := Nat.mul_comm B b

/-- The loop gives one quotient digit for `r` and one for each dividend digit still to come, and the last remainder. The
dividend it divides is `r` followed by these digits. -/
theorem divLoop_canonDigits (w : DigitWidth) {b : Nat} {ds : List Nat} (hds : ∀ d ∈ ds, d < 2 ^ w.bits) {r n : Nat}
    (hr : r < b * 2 ^ w.bits) (hn : n = r * 2 ^ (w.bits * ds.length) + digitsVal w.bits ds.reverse) (q : List Nat) :
    ∃ qs, qs.length = ds.length + 1 ∧ (∀ d ∈ qs, d < 2 ^ w.bits) ∧ digitsVal w.bits qs = n / b ∧
      divLoop w.bits (canonDigits w.bits b) ds (canonDigits w.bits r) q = (qs ++ q, canonDigits w.bits (n % b)) := by
  have hb : 0 < b := Nat.pos_of_ne_zero (by rintro rfl; simp at hr)
  induction ds generalizing r n q with
  | nil =>
    obtain rfl : n = r := by simpa using hn
    refine ⟨[n / b], rfl, by simpa using div_lt_base hr, by simp, ?_⟩
    rw [divLoop, divStep_canonDigits w hr]
    rfl
  | cons d ds ih =>
    obtain ⟨hd, hds⟩ := List.forall_mem_cons.mp hds
    obtain ⟨qs, hlen, hlt, hval, hloop⟩ := ih hds (next_lt_mul_base (r := r) hb hd) rfl (r / b :: q)
    have hsplit : n = (d + 2 ^ w.bits * (r % b)) * 2 ^ (w.bits * ds.length) + digitsVal w.bits ds.reverse +
        b * (2 ^ (w.bits * qs.length) * (r / b)) := by
      have hr := Nat.mod_add_div r b
      rw [hn, hlen, List.reverse_cons, digitsVal_append, List.length_reverse, List.length_cons, Nat.mul_succ, Nat.pow_add]
      conv_lhs => rw [← hr]
      simp only [digitsVal_cons, digitsVal_nil]
      ring
    refine ⟨qs ++ [r / b], by simp [hlen], ?_, ?_, ?_⟩
    · simpa [or_imp, forall_and] using ⟨hlt, div_lt_base hr⟩
    · rw [digitsVal_append, hval, hsplit, Nat.add_mul_div_left _ _ hb]
      simp
    · rw [divLoop, divStep_canonDigits w hr]
      simp only [shiftIn_canonDigits (DigitWidth.bits_pos w) _ hd, hloop]
      rw [hsplit, Nat.add_mul_mod_self_left, List.append_assoc]
      rfl

/-! ## Long division (R151, R156) -/

/-- A quotient has at least as many digits as the dividend has more than the divisor. -/
theorem digitLen_sub_le_digitLen_div {D a b : Nat} (hD : 0 < D) (hb : b ≠ 0) (hab : b ≤ a) :
    digitLen D a - digitLen D b ≤ digitLen D (a / b) := by
  have ha : a ≠ 0 := by omega
  have hpos := digitLen_pos (a / b) hD
  have hbpos := digitLen_pos b hD
  by_contra hc
  have hq : a / b < 2 ^ (D * (digitLen D a - digitLen D b - 1)) := (digitLen_le_iff hD (by omega)).mp (by omega)
  have hlow := two_pow_digitLen_pred_le hD ha
  have hhigh := lt_two_pow_digitLen b hD
  have hexp : digitLen D a - 1 = digitLen D a - digitLen D b - 1 + digitLen D b := by omega
  rw [hexp, Nat.mul_add, Nat.pow_add] at hlow
  rw [Nat.div_lt_iff_lt_mul (Nat.pos_of_ne_zero hb)] at hq
  have := Nat.mul_le_mul_left (2 ^ (D * (digitLen D a - digitLen D b - 1))) hhigh.le
  omega

/-- Dividing a number that is larger than the divisor. -/
theorem divDigits_of_gt (w : DigitWidth) {a b : Nat} (hb : b ≠ 0) (hab : b < a) :
    divDigits w.bits (canonDigits w.bits a) (canonDigits w.bits b) =
      (canonDigits w.bits (a / b), canonDigits w.bits (a % b)) := by
  have hD := DigitWidth.bits_pos w
  have hlen := digitLen_mono hD hab.le
  have hpos := digitLen_pos b hD
  rw [divDigits, cmpDigits_canonDigits, Nat.compare_eq_gt.mpr hab]
  simp only [canonDigits_length]
  generalize hlow : digitLen w.bits a - digitLen w.bits b = low
  have hds : ∀ d ∈ ((canonDigits w.bits a).take low).reverse, d < 2 ^ w.bits :=
    fun d hd => canonDigits_lt (List.mem_of_mem_take (List.mem_reverse.mp hd))
  have hr : a / 2 ^ (w.bits * low) < b * 2 ^ w.bits := by
    rw [Nat.div_lt_iff_lt_mul (Nat.two_pow_pos _)]
    calc a < 2 ^ (w.bits * digitLen w.bits a) := lt_two_pow_digitLen a hD
      _ = 2 ^ (w.bits * (digitLen w.bits b - 1)) * 2 ^ w.bits * 2 ^ (w.bits * low) := by
        rw [← Nat.pow_add, ← Nat.pow_add, ← Nat.mul_succ, ← Nat.mul_add]
        congr 2
        omega
      _ ≤ b * 2 ^ w.bits * 2 ^ (w.bits * low) :=
        Nat.mul_le_mul_right _ (Nat.mul_le_mul_right _ (two_pow_digitLen_pred_le hD hb))
  have hn : a = a / 2 ^ (w.bits * low) * 2 ^ (w.bits * ((canonDigits w.bits a).take low).reverse.length) +
      digitsVal w.bits ((canonDigits w.bits a).take low).reverse.reverse := by
    have hlow : ((canonDigits w.bits a).take low).length = low := by simp; omega
    rw [List.reverse_reverse, List.length_reverse, hlow, digitsVal_take_canonDigits hD, Nat.div_add_mod']
  obtain ⟨qs, hqs, hlt, hval, hloop⟩ := divLoop_canonDigits w hds hr hn []
  rw [drop_canonDigits hD (by omega), hloop]
  have hqlen : qs.length ≤ digitLen w.bits (digitsVal w.bits qs) + 1 := by
    have := digitLen_sub_le_digitLen_div hD hb hab.le
    rw [hqs, hval, List.length_reverse, List.length_take, canonDigits_length]
    omega
  rw [List.append_nil, ← hval, trimOne_eq_canonDigits hD (by omega) hlt hqlen]

theorem divDigits_canonDigits (w : DigitWidth) (a : Nat) {b : Nat} (hb : b ≠ 0) :
    divDigits w.bits (canonDigits w.bits a) (canonDigits w.bits b) =
      (canonDigits w.bits (a / b), canonDigits w.bits (a % b)) := by
  have hD := DigitWidth.bits_pos w
  rcases lt_trichotomy a b with h | rfl | h
  · rw [divDigits, cmpDigits_canonDigits, Nat.compare_eq_lt.mpr h, Nat.div_eq_of_lt h, Nat.mod_eq_of_lt h, canonDigits_zero]
  · rw [divDigits, cmpDigits_canonDigits, Nat.compare_eq_eq.mpr rfl, Nat.div_self (Nat.pos_of_ne_zero hb), Nat.mod_self,
      canonDigits_zero, canonDigits_of_lt hD (Nat.one_lt_two_pow hD.ne')]
  · exact divDigits_of_gt w hb h

end Sys2Proof.Machine

/-! ## The obligations -/

namespace Sys2Proof.Proofs

open Sys2Proof Sys2Proof.Machine

/-- Settles O46: the loop gives the digits of the quotient, at most one zero too many, and those of the remainder. -/
theorem divDigitsAgree : Obligations.DivDigitsAgree := fun w a _ hb => divDigits_canonDigits w a hb

/-- Settles O47 (`estimate_bounds`, `estimateAndCorrect_eq`). -/
theorem estimateIsClose : Obligations.EstimateIsClose := by
  intro w r b _ hlt hr
  obtain ⟨hlow, hhigh, hexact, hbase⟩ := estimate_bounds (DigitWidth.bits_pos w) hlt hr
  exact ⟨hlow, hhigh, hexact, hbase, estimateAndCorrect_eq (DigitWidth.bits_pos w) hlt hr⟩

end Sys2Proof.Proofs
end

section
/-! PROOFS. The classical sieve of 45_number_theory.md (R194): what is marked before each round of its loop. -/

namespace Sys2Proof.Machine

/-- What is still marked when the multiples of all numbers below `i` are unmarked, each from its square up. -/
def NoDivisorBelow (i j : Nat) : Prop := 2 ≤ j ∧ ∀ k, 2 ≤ k → k < i → k * k ≤ j → ¬ k ∣ j

theorem noDivisorBelow_two {j : Nat} : NoDivisorBelow 2 j ↔ 2 ≤ j :=
  ⟨fun h => h.1, fun h => ⟨h, fun _ hk hlt => absurd hlt (Nat.not_lt.mpr hk)⟩⟩

theorem noDivisorBelow_succ {i j : Nat} (hi : 2 ≤ i) :
    NoDivisorBelow (i + 1) j ↔ NoDivisorBelow i j ∧ ¬ (i * i ≤ j ∧ i ∣ j) := by
  constructor
  · rintro ⟨hj, h⟩
    exact ⟨⟨hj, fun k hk hlt => h k hk (by omega)⟩, fun ⟨hsq, hdvd⟩ => h i hi (by omega) hsq hdvd⟩
  · rintro ⟨⟨hj, h⟩, hnot⟩
    refine ⟨hj, fun k hk hlt hsq hdvd => ?_⟩
    obtain rfl | hlt := (Nat.lt_succ_iff.mp hlt).eq_or_lt
    · exact hnot ⟨hsq, hdvd⟩
    · exact h k hk hlt hsq hdvd

/-- The multiples of an unmarked number are unmarked already, as multiples of its divisor. -/
theorem noDivisorBelow_succ_of_not {i j : Nat} (hi : 2 ≤ i) (hnot : ¬ NoDivisorBelow i i) :
    NoDivisorBelow (i + 1) j ↔ NoDivisorBelow i j := by
  rw [noDivisorBelow_succ hi, and_iff_left_iff_imp]
  rintro ⟨_, h⟩ ⟨hsq, hdvd⟩
  refine hnot ⟨hi, fun k hk hlt _ hki => h k hk hlt ?_ (hki.trans hdvd)⟩
  exact (Nat.mul_self_le_mul_self hlt.le).trans hsq

/-- Once `i` has passed the root of `j`, only the primes are left. -/
theorem noDivisorBelow_iff_prime {i j : Nat} (hj : j < i * i) : NoDivisorBelow i j ↔ j.Prime := by
  rw [Nat.prime_def_le_sqrt]
  refine and_congr_right fun _ => forall_congr' fun k => forall_congr' fun _ => ?_
  rw [Nat.le_sqrt]
  exact ⟨fun h hsq => h (Nat.mul_self_lt_mul_self_iff.mp (hsq.trans_lt hj)) hsq, fun h _ => h⟩

/-- The array before the round of `i`. -/
def MarkedBefore (N i : Nat) (marks : List Bool) : Prop :=
  marks.length = N ∧ ∀ j < N, marks.getD j false = true ↔ NoDivisorBelow i j

theorem unmarkMultiples_length (i : Nat) (marks : List Bool) : (unmarkMultiples i marks).length = marks.length := by
  simp [unmarkMultiples]

theorem unmarkMultiples_getD {i j : Nat} {marks : List Bool} (hj : j < marks.length) :
    (unmarkMultiples i marks).getD j false = true ↔ marks.getD j false = true ∧ ¬ (i * i ≤ j ∧ i ∣ j) := by
  simp [unmarkMultiples, hj, Nat.dvd_iff_mod_eq_zero, imp_iff_not_or]

theorem markedBefore_two (N : Nat) : MarkedBefore N 2 ((List.range N).map fun i => decide (2 ≤ i)) := by
  refine ⟨by simp, fun j hj => ?_⟩
  simp [noDivisorBelow_two, hj]

/-- A round keeps the invariant. -/
theorem MarkedBefore.succ {N i : Nat} {marks : List Bool} (h : MarkedBefore N i marks) (hi : 2 ≤ i) (hlt : i < N) :
    MarkedBefore N (i + 1) (if marks.getD i false then unmarkMultiples i marks else marks) := by
  obtain ⟨hlen, hmarks⟩ := h
  split_ifs with hmark
  · refine ⟨by rw [unmarkMultiples_length, hlen], fun j hj => ?_⟩
    rw [unmarkMultiples_getD (hlen ▸ hj), hmarks j hj, noDivisorBelow_succ hi]
  · refine ⟨hlen, fun j hj => ?_⟩
    rw [hmarks j hj, noDivisorBelow_succ_of_not hi (mt (hmarks i hlt).mpr hmark)]

/-- When the loop ends, exactly the primes are marked. -/
theorem eratosthenesLoop_getD {N fuel i : Nat} {marks : List Bool} (h : MarkedBefore N i marks) (hi : 2 ≤ i)
    (hfuel : N ≤ fuel + i) {j : Nat} (hj : j < N) :
    (eratosthenesLoop N fuel i marks).getD j false = true ↔ j.Prime := by
  have hself : i ≤ i * i := Nat.le_mul_self i
  induction fuel generalizing i marks with
  | zero => exact (h.2 j hj).trans (noDivisorBelow_iff_prime (by omega))
  | succ fuel ih =>
    rw [eratosthenesLoop]
    by_cases hsq : i * i < N
    · rw [if_pos hsq]
      exact ih (h.succ hi (by omega)) (by omega) (by omega) (Nat.le_mul_self _)
    · rw [if_neg hsq]
      exact (h.2 j hj).trans (noDivisorBelow_iff_prime (by omega))

end Sys2Proof.Machine

/-! ## The obligation -/

namespace Sys2Proof.Proofs

open Sys2Proof Sys2Proof.Machine

/-- Settles O54: both lists filter the numbers below the bound, and by the same test. -/
theorem eratosthenesGivesTheTable : Obligations.EratosthenesGivesTheTable := by
  intro n
  refine List.filter_congr fun j hj => Bool.eq_iff_iff.mpr ?_
  have hmarks := eratosthenesLoop_getD (fuel := n) (markedBefore_two n) le_rfl (by omega) (List.mem_range.mp hj)
  rw [isOddPrime_iff, Bool.and_eq_true, hmarks, beq_iff_eq]
  refine ⟨fun ⟨hodd, hprime⟩ => ⟨?_, hodd, hprime⟩, fun ⟨_, hodd, hprime⟩ => ⟨hodd, hprime⟩⟩
  have := hprime.two_le
  omega

end Sys2Proof.Proofs
end
